-- ==== Sys2Proof/Word.lean ====
section
/-! DEFINITION. The word types of the block (00_scope.md R8, R9): the 32-bit port words, bytes, 16-bit
samples and 16-bit unsigned coefficients. A sample is a `BitVec 16` read with `BitVec.toInt`. -/

namespace Sys2Proof

/-- A 32-bit word of the command port, also every u32 register (R8). -/
abbrev Word := BitVec 32

/-- A byte of source memory (R60). -/
abbrev Byte := BitVec 8

/-- A signed 16-bit sample or history cell (R8); its value is `BitVec.toInt`. -/
abbrev S16 := BitVec 16

/-- An unsigned 16-bit value: an alpha, a volume (R9). -/
abbrev U16 := BitVec 16

end Sys2Proof
end

