-- ==== Sys2Proof/Config.lean ====
section
/-! DEFINITION. What an implementation fixes: the parameters of 00_scope.md R7, the value types they
and the registers share, and the free values (opaque constants nothing constrains). -/

namespace Sys2Proof

/-- The two channels of R20 and R41. -/
inductive Channel where
  | left
  | right
deriving DecidableEq, Repr

/-- The two halves of `OUT` (R43). -/
inductive Half where
  | first
  | second
deriving DecidableEq, Repr

/-- The LPF levels of R92, in the code order 0 to 6. The reserved code 7 is no level. -/
inductive LpfLevel where
  | verySoft
  | soft
  | medium
  | firm
  | aggressive
  | custom
  | off
deriving DecidableEq, Repr

/-- The four fade windows of R31 and R101, in the index order 0 to 3. -/
inductive FadeWindow where
  | playIn
  | playOut
  | pauseOut
  | resumeIn
deriving DecidableEq, Repr

/-- One u32 for each fade window: `FADE_SEC` or `FADE_SMP` (R31). -/
structure FadeTable where
  playIn : Word
  playOut : Word
  pauseOut : Word
  resumeIn : Word
deriving DecidableEq, Repr

/-- One alpha for each of the levels 0 to 4: `LPF8_ALPHA` or `LPF16_ALPHA` (R7). -/
structure LevelTable where
  verySoft : U16
  soft : U16
  medium : U16
  firm : U16
  aggressive : U16
deriving DecidableEq, Repr

/-- The FilterConfig record `CFG` of R35. -/
structure FilterConfig where
  lpf16En : Bool
  lpf8En : Bool
  dcSoft : Bool
  gateEn : Bool
  clipEn : Bool
  airEn : Bool
  lpf8Level : LpfLevel
  lpf16Level : LpfLevel
  makeup8 : Word
  makeup16 : Word
  alpha8 : U16
  alpha16 : U16
deriving DecidableEq, Repr

/-- The parameters of R7 whose value is OPEN, and the input signal `VOL_PRESENT` (constant in a run).
γ is the rational `gammaNum / gammaDen`. The preset table is a list of signed Q16 dB words, so
`AIR_PRESET_COUNT` is its length. -/
structure Params where
  bufLen : Nat
  lpf8Alpha : LevelTable
  lpf16Alpha : LevelTable
  makeupDefault8 : Word
  makeupDefault16 : Word
  makeupMax : Word
  airPresetDb : List Word
  airGainReset : Word
  fadeSecReset : FadeTable
  cfgReset : FilterConfig
  lcgReset : Word
  gammaEn : Bool
  gammaNum : Nat
  gammaDen : Nat
  volPresent : Bool
deriving DecidableEq, Repr

/-- R36: both makeup gains in `[1, MAKEUP_MAX]` (a reserved level is not representable). -/
abbrev FilterConfig.legal (makeupMax : Word) (c : FilterConfig) : Prop :=
  1 ≤ c.makeup8.toNat ∧ c.makeup8.toNat ≤ makeupMax.toNat ∧
  1 ≤ c.makeup16.toNat ∧ c.makeup16.toNat ≤ makeupMax.toNat

/-- The constraints R7 puts on the OPEN parameters. The bound 256 on the number of presets is DEDUCED
from the 8-bit index of R38 and "The block never truncates an operand silently" of R108
(notes/assumptions/17.md; unsafe only for a table of more than 256 entries). -/
abbrev Params.legal (p : Params) : Prop :=
  (p.bufLen % 4 = 0 ∧ 4 ≤ p.bufLen ∧ p.bufLen ≤ 2 ^ 24) ∧
  (40960 ≤ p.lpf8Alpha.aggressive.toNat ∧ p.lpf8Alpha.aggressive.toNat < p.lpf8Alpha.firm.toNat ∧
    p.lpf8Alpha.firm.toNat < p.lpf8Alpha.medium.toNat ∧
    p.lpf8Alpha.medium.toNat < p.lpf8Alpha.soft.toNat ∧
    p.lpf8Alpha.soft.toNat < p.lpf8Alpha.verySoft.toNat ∧ p.lpf8Alpha.verySoft.toNat ≤ 61440) ∧
  (65536 ≤ p.makeupMax.toNat ∧
    1 ≤ p.makeupDefault8.toNat ∧ p.makeupDefault8.toNat ≤ p.makeupMax.toNat ∧
    1 ≤ p.makeupDefault16.toNat ∧ p.makeupDefault16.toNat ≤ p.makeupMax.toNat) ∧
  (1 ≤ p.airPresetDb.length ∧ p.airPresetDb.length ≤ 256) ∧
  p.airGainReset.toNat ≤ 131072 ∧
  p.cfgReset.legal p.makeupMax ∧
  (p.gammaEn = true → 0 < p.gammaNum ∧ 0 < p.gammaDen)

/-- The instance of the OPEN parameters that `State.reset` is built with. DESIGN CHOICE
(notes/assumptions/1.md and 2.md; unsafe for a claim about `State.reset` alone): the spec fixes none of them. The
buffer length, the seed, the disabled gamma curve and the connected volume are the start state of
95_test_vectors.md L3. Every other power-on is `State.powerOn` of other parameters. -/
def Config.params : Params where
  bufLen := 8
  lpf8Alpha := ⟨61440, 56320, 51200, 46080, 40960⟩
  lpf16Alpha := ⟨16384, 32768, 40960, 49152, 57344⟩
  makeupDefault8 := 98304
  makeupDefault16 := 49152
  makeupMax := 262144
  airPresetDb := [0, 196608, 393216]
  airGainReset := 65536
  fadeSecReset := ⟨0, 0, 0, 0⟩
  cfgReset := ⟨false, false, false, false, false, false, .off, .off, 65536, 65536, 0, 0⟩
  lcgReset := 1
  gammaEn := false
  gammaNum := 1
  gammaDen := 1
  volPresent := true

/-- Free value (notes/assumptions/6.md, safe): the answer of the n-th volume read that the state's
list of answers does not give (R71, R284). -/
opaque Config.freeVolume : Nat → U16

/-- Free value (notes/assumptions/7.md, safe): the answer of the n-th `TRANSPORT.start` that the
state's list of answers does not give (R285). -/
opaque Config.freeStart : Nat → Bool

/-- Free value (notes/assumptions/14.md, safe): "frames left" of a frame at an element index past
`END` (arguments `END` and the index), where R200's `(END − p) div C` has no value. -/
opaque Config.freeFramesLeft : Nat → Nat → Word

/-- Free value (notes/assumptions/30.md, safe): the output of `AIR_SHELF` at a gain above
`AIR_GAIN_MAX`, outside R137's operand range (arguments gain, sample, `AIR_XP`, `AIR_YP`). -/
opaque Config.freeAirShelf : Word → S16 → S16 → S16 → S16

/-- Free value (notes/assumptions/9.md, safe): what FILL puts into an output slot from a source that the
HOST changed in the session (I14; arguments the number of the volume read and the slot). -/
opaque Config.freeSlot : Nat → Nat → S16

/-- Free value (notes/assumptions/15.md, safe): `FADE_IN` outside R160's operand condition
(arguments sample, remaining, total, with remaining > total). -/
opaque Config.freeFadeIn : S16 → Word → Word → S16

/-- Free value (notes/assumptions/15.md, safe): `FADE_OUT_PAUSE` outside R161's operand condition
(arguments sample, remaining, total, with remaining > total > 0). -/
opaque Config.freeFadeOut : S16 → Word → Word → S16

/-- Free value (notes/assumptions/16.md, safe): the level PAUSE computes in a state that breaks R34
(arguments fade-in total, fade-in remaining, pause total). -/
opaque Config.freePauseLevel : Word → Word → Word → Word

end Sys2Proof
end

