-- ==== Sys2Proof/Syntax.lean ====
section
/-! DEFINITION. The instructions: one constructor for each row of spec/opcode_table.json, and the
words the block's ports carry (30_encoding.md R85, R96, R97). A command takes its operands from the
registers A0 to A4 (R87), so its constructor has no argument. A stage operation takes its operands
from wires (R98), so its constructor carries them. -/

namespace Sys2Proof

/-- The 15 commands (R93), the 2 fill events (R96) and the 29 stage operations (R97). -/
inductive Instr where
  -- commands
  | play
  | pause
  | resume
  | stop
  | getState
  | getSampleRate
  | setFilterConfig
  | getFilterConfig
  | setFadeTime
  | getFadeTime
  | setAirGainDb
  | setAirGainQ16
  | getAirGain
  | setAirPreset
  | getAirPreset
  -- fill events
  | evFill0
  | evFill1
  -- fixed-point primitives
  | q16Mul (a b : Int)
  | clamp16 (v : Int)
  | q16FromReal (mantissa : Int) (places : Nat)
  | alphaFromCutoff (fc fs : Word)
  | dbToQ16 (d : Word)
  | q16ToDb (g : Word)
  | secToSamples (sec rate : Word)
  -- filters
  | dcBlock (c : Channel) (x : S16)
  | lpf1 (c : Channel) (x : S16) (alpha : U16) (g : Word)
  | biquadCoef (alpha : U16)
  | biquadStep (c : Channel) (x : S16) (alpha : U16) (g : Word)
  | biquadWarmup (c : Channel) (x : S16) (alpha : U16) (g : Word)
  | airShelf (c : Channel) (x : S16) (gain : Word)
  -- post-filter
  | fadeIn (x : S16) (rem tot : Word)
  | fadeOutPause (x : S16) (r tot : Word)
  | fadeOutEnd (x : S16) (rem tot : Word)
  | noiseGate (x : S16)
  | softClip (x : S16)
  -- conversion and volume
  | lcgDraw
  | tpdfDither
  | u8ToS16 (p : Word)
  | s16Read (p : Word)
  | volCurve (v : U16)
  | volApply (x : S16) (g : U16)
  -- chunk processor
  | chain (c : Channel) (x : S16) (p : Word)
  | fill (h : Half)
  | fadeTick
  | endSession
  | silenceHalf (h : Half)
deriving DecidableEq, Repr

/-- The four operand wires of a stage operation (R98), exact integers in the order the stage's rule
names its operands; a stage leaves unread the wires it does not name. -/
structure Wires where
  w0 : Int
  w1 : Int
  w2 : Int
  w3 : Int
deriving DecidableEq, Repr

/-- All four wires at zero. -/
def Wires.zero : Wires := ⟨0, 0, 0, 0⟩

/-- What one of the block's ports carries in one step: a command word written to `CMD` (R85), the one
bit of a fill event (R96), or a stage id with its operand wires (R97, R98; notes/assumptions/5.md). -/
inductive PortWord where
  | command (w : Word)
  | event (h : BitVec 1)
  | stage (id : Byte) (w : Wires)
deriving DecidableEq, Repr

/-- Why a port word is no instruction. -/
inductive DecodeError where
  /-- A command word that R94 calls illegal. Safe: R94 gives its effect. -/
  | illegalCommand (w : Word)
  /-- A stage id that R97 does not list. Safe: the block issues none. -/
  | unknownStage (id : Byte)
  /-- A wire outside the type of its operand (R98, R111). Safe: no such wire exists. -/
  | badWire (id : Byte)
deriving DecidableEq, Repr

end Sys2Proof
end

