-- ==== Sys2Proof/Machine/State.lean ====
section
/-! DEFINITION. The state of the block as plain data: every register of 10_state.md, the two memories
of 20_memory.md, the parameters of 00_scope.md R7, the inputs still to come and the observable log.
INVENTORY.md lists each field with its rule and its power-on value. -/

namespace Sys2Proof.Machine

/-- The playback states of R23, in the code order of R89. Codes 6 and 7 are never written. -/
inductive PlayState where
  | idle
  | playing
  | pausing
  | paused
  | error
  | playingFailed
deriving DecidableEq, Repr

/-- The ChannelFilterState record of R41. -/
structure ChannelState where
  dcXp : S16
  dcYp : S16
  lpYp : S16
  bqX1 : S16
  bqX2 : S16
  bqY1 : S16
  bqY2 : S16
  airXp : S16
  airYp : S16
deriving DecidableEq, Repr

/-- Every field of a channel record at 0 (R42). -/
def ChannelState.zero : ChannelState := ⟨0, 0, 0, 0, 0, 0, 0, 0, 0⟩

/-- The observable actions of R213. -/
inductive LogEntry where
  | half (h : Half) (slots : List S16)
  | volRead (v : U16)
  | transportInit
  | transportStart (length : Nat) (ok : Bool)
  | transportStop
  | amp (on : Bool)
  | notify
deriving DecidableEq, Repr

/-- The operand registers a HOST writes (R22). -/
inductive OperandReg where
  | a0
  | a1
  | a2
  | a3
  | a4
deriving DecidableEq, Repr

/-- One input of the block: a HOST write of an operand register (R85), a HOST write of a byte of its
source buffer (R60, R79), or a port word: a command, a fill event, or a stage issue. -/
inductive Input where
  | operand (r : OperandReg) (v : Word)
  | store (addr : Word) (b : Byte)
  | port (w : PortWord)
deriving DecidableEq, Repr

/-- Source memory: (address, byte) pairs with strictly rising addresses (`Memory.wf`). An unlisted
address has no value (R69). -/
abbrev Memory := List Host.Cell

/-- The model faults of R274. Each ends the run. -/
inductive Fault where
  /-- `MISALIGNED_SOURCE`, raised by PLAY at depth 16 with an odd base; carries `A0`. Safe: R274 names
  it. -/
  | misalignedSource (base : Word)
  /-- `SOURCE_RANGE`, raised by PLAY whose region passes 2^32 and by a source read outside the
  admitted region or outside the memory the model was given; carries the byte address. Safe: R274
  names it (the address a refused PLAY carries is notes/assumptions/11.md). -/
  | sourceRange (addr : Nat)
deriving DecidableEq, Repr

/-- Why a step has no meaning. -/
inductive Refusal where
  /-- An instruction of the table without a meaning; no arm of `exec` answers it. Safe. -/
  | notModelled (mnemonic : String)
  /-- A stage issue with an id R97 does not list, raised by the fetch. Safe: no such input exists. -/
  | noSuchStage (id : Byte)
  /-- A stage issue with a wire outside the type of its operand, raised by the fetch. Safe: no such
  input exists (R98, R111). -/
  | badStageWires (id : Byte)
deriving DecidableEq, Repr

/-- The whole state. -/
structure State where
  -- command port (R22)
  cmd : Word
  a0 : Word
  a1 : Word
  a2 : Word
  a3 : Word
  a4 : Word
  r0 : Word
  r1 : Word
  r2 : Word
  r3 : Word
  status : Word
  -- playback (R23 to R30)
  playState : PlayState
  stopReq : Bool
  doneFired : Bool
  src : Word
  depth : BitVec 8
  mode : BitVec 8
  cur : Word
  endOff : Word
  pausePos : Word
  sampleRate : Word
  srcLen : Word
  -- fades (R31 to R33)
  fadeSec : FadeTable
  fadeSmp : FadeTable
  fadeInRem : Word
  fadeInTot : Word
  fadeOutRem : Word
  fadeOutTot : Word
  -- configuration, air effect, dither (R35, R38, R40)
  cfg : FilterConfig
  airGain : Word
  airPresetIdx : BitVec 8
  lcg : Word
  -- channel filter state (R41), output buffer (R43), source memory (R60)
  chL : ChannelState
  chR : ChannelState
  out : List S16
  mem : Memory
  -- parameters (R7)
  params : Params
  -- the model's own fields (INVENTORY.md)
  inbox : List Input
  volAnswers : List U16
  volDraws : Nat
  startAnswers : List Bool
  startDraws : Nat
  log : List LogEntry
  stageOut : List Int
  sourceChanged : Bool
deriving DecidableEq, Repr

/-- R47, R290: the state after power-on of a block with the parameters `p`. -/
def State.powerOn (p : Params) : State where
  cmd := 0
  a0 := 0
  a1 := 0
  a2 := 0
  a3 := 0
  a4 := 0
  r0 := 0
  r1 := 0
  r2 := 0
  r3 := 0
  status := 0
  playState := .idle
  stopReq := false
  doneFired := false
  src := 0
  depth := 0
  mode := 0
  cur := 0
  endOff := 0
  pausePos := 0
  sampleRate := 0
  srcLen := 0
  fadeSec := p.fadeSecReset
  fadeSmp := ⟨0, 0, 0, 0⟩
  fadeInRem := 0
  fadeInTot := 0
  fadeOutRem := 0
  fadeOutTot := 0
  cfg := p.cfgReset
  airGain := p.airGainReset
  airPresetIdx := 0
  lcg := p.lcgReset
  chL := ChannelState.zero
  chR := ChannelState.zero
  out := List.replicate p.bufLen 0
  mem := []
  params := p
  inbox := []
  volAnswers := []
  volDraws := 0
  startAnswers := []
  startDraws := 0
  log := []
  stageOut := []
  sourceChanged := false

/-- The machine right after reset: power-on is the only reset (R290). The values the spec leaves
OPEN are those of `Config.params` (notes/assumptions/1.md, 2.md). -/
def State.reset : State := State.powerOn Config.params

end Sys2Proof.Machine
end

