-- ==== Sys2Proof/Machine/Flags.lean ====
section
/-! DEFINITION. The codes the block reports. It has no condition flags (40_fixed_point_mu.md: "Flags:
none" in every rule): the nearest are the STATUS codes and the state codes of 30_encoding.md R88, R89. -/

namespace Sys2Proof.Machine

/-- `OK` (R88). -/
def statusOk : Word := 0

/-- `ILLEGAL_COMMAND` (R88). -/
def statusIllegal : Word := 1

/-- `BAD_OPERAND` (R88). -/
def statusBadOperand : Word := 2

/-- `VALIDATION_ERROR` (R88). -/
def statusValidation : Word := 3

/-- `TRANSPORT_START_ERROR` (R88). -/
def statusStartFailed : Word := 4

/-- The state codes (R89). -/
def stateCode : PlayState → Word
  | .idle => 0
  | .playing => 1
  | .pausing => 2
  | .paused => 3
  | .error => 4
  | .playingFailed => 5

/-- No session runs: PLAY is accepted (R231) and an event only writes silence (R207). -/
def noSession : PlayState → Bool
  | .idle => true
  | .playing => false
  | .pausing => false
  | .paused => false
  | .error => true
  | .playingFailed => true

end Sys2Proof.Machine
end

