-- ==== Sys2Proof/Machine/Operands.lean ====
section
/-! DEFINITION. Operands and derived values: the operators of 00_scope.md R10, the constants of
40_fixed_point_mu.md R119, the operand assembly of 30_encoding.md R87 to R92 and R101, and the derived
selections of 10_state.md R27, R28, R43, R44. -/

namespace Sys2Proof.Machine

/-! ### Operators (R10) -/

/-- `v >> 16`: floor, on any integer (R10, R122). -/
def shr16 (v : Int) : Int := v / 65536

/-- The saturation of R112. -/
def clampInt (v : Int) : Int := min (max v (-32768)) 32767

/-- The s16 that holds an integer of the s16 range. -/
def toS16 (v : Int) : S16 := BitVec.ofInt 16 v

/-- `CLAMP16` as an s16 (R112). -/
def clampS16 (v : Int) : S16 := toS16 (clampInt v)

/-- `sat32` (R10), as a u32. -/
def sat32 (v : Nat) : Word := BitVec.ofNat 32 (min v 4294967295)

/-! ### Fixed parameters and constants (R7, R119) -/

/-- `WARMUP_N`. -/
def warmupN : Nat := 16

/-- `AIR_GAIN_MAX`. -/
def airGainMax : Nat := 131072

/-- `AIR_ALPHA`. -/
def airAlpha : Int := 49152

/-- `FADE_MAX`, 2^31 − 1. -/
def fadeMax : Nat := 2147483647

/-- `ALPHA_DC_STD`. -/
def alphaDcStd : Int := 64225

/-- `ALPHA_DC_SOFT`. -/
def alphaDcSoft : Int := 65208

/-- `ALPHA_MAX`. -/
def alphaMax : Nat := 65535

/-- `GATE_THRESHOLD`. -/
def gateThreshold : Int := 512

/-- `GATE_FACTOR`. -/
def gateFactor : Int := 6554

/-- `CLIP_T`. -/
def clipT : Int := 28000

/-- `CLIP_FULL`. -/
def clipFull : Int := 32767

/-- `CLIP_R`. -/
def clipR : Int := 4767

/-- `LCG_MUL`. -/
def lcgMul : Word := 1103515245

/-- `LCG_INC`. -/
def lcgInc : Word := 12345

/-! ### Fade windows (R101) -/

/-- The window of an index operand, none above 3 (R95). -/
def windowOf (w : Word) : Option FadeWindow :=
  match w.toNat with
  | 0 => some .playIn
  | 1 => some .playOut
  | 2 => some .pauseOut
  | 3 => some .resumeIn
  | _ => none

/-- One entry of a fade table. -/
def fadeGet (t : FadeTable) : FadeWindow → Word
  | .playIn => t.playIn
  | .playOut => t.playOut
  | .pauseOut => t.pauseOut
  | .resumeIn => t.resumeIn

/-- A fade table with one entry replaced. -/
def fadeSet (t : FadeTable) (v : Word) : FadeWindow → FadeTable
  | .playIn => { t with playIn := v }
  | .playOut => { t with playOut := v }
  | .pauseOut => { t with pauseOut := v }
  | .resumeIn => { t with resumeIn := v }

/-! ### LPF levels (R92) and the configuration words (R90, R91) -/

/-- The level of a 3-bit code; code 7 is reserved. -/
def levelOf (code : Nat) : Option LpfLevel :=
  match code with
  | 0 => some .verySoft
  | 1 => some .soft
  | 2 => some .medium
  | 3 => some .firm
  | 4 => some .aggressive
  | 5 => some .custom
  | 6 => some .off
  | _ => none

/-- The 3-bit code of a level. -/
def levelCode : LpfLevel → Nat
  | .verySoft => 0
  | .soft => 1
  | .medium => 2
  | .firm => 3
  | .aggressive => 4
  | .custom => 5
  | .off => 6

/-- The field `v[lo+n-1 : lo]` (R11). -/
def fieldOf (v : Word) (lo n : Nat) : Nat := v.toNat / 2 ^ lo % 2 ^ n

/-- Whether every reserved bit of `CFGW0` is 0 (R90). -/
def cfgReservedClear (w : Word) : Bool :=
  fieldOf w 6 2 = 0 && fieldOf w 11 1 = 0 && fieldOf w 15 17 = 0

/-- R37: 0 or a gain above `MAKEUP_MAX` becomes the default. -/
def normMakeup (max v d : Word) : Word :=
  if v.toNat = 0 ∨ max.toNat < v.toNat then d else v

/-- The configuration that words 0 to 3 name (R90, R91), none where R95 refuses word 0. -/
def configOf (p : Params) (w0 w1 w2 w3 : Word) : Option FilterConfig :=
  if cfgReservedClear w0 then
    match levelOf (fieldOf w0 8 3), levelOf (fieldOf w0 12 3) with
    | some l8, some l16 =>
      some {
        lpf16En := fieldOf w0 0 1 = 1
        lpf8En := fieldOf w0 1 1 = 1
        dcSoft := fieldOf w0 2 1 = 1
        gateEn := fieldOf w0 3 1 = 1
        clipEn := fieldOf w0 4 1 = 1
        airEn := fieldOf w0 5 1 = 1
        lpf8Level := l8
        lpf16Level := l16
        makeup8 := normMakeup p.makeupMax w1 p.makeupDefault8
        makeup16 := normMakeup p.makeupMax w2 p.makeupDefault16
        alpha8 := BitVec.ofNat 16 (fieldOf w3 0 16)
        alpha16 := BitVec.ofNat 16 (fieldOf w3 16 16) }
    | _, _ => none
  else none

/-- Configuration word 0 of a configuration, every reserved bit 0 (R90). -/
def cfgWord0 (c : FilterConfig) : Word :=
  BitVec.ofNat 32 (c.lpf16En.toNat + 2 * c.lpf8En.toNat + 4 * c.dcSoft.toNat + 8 * c.gateEn.toNat +
    16 * c.clipEn.toNat + 32 * c.airEn.toNat + 256 * levelCode c.lpf8Level +
    4096 * levelCode c.lpf16Level)

/-- Configuration word 3 (R91). -/
def cfgWord3 (c : FilterConfig) : Word :=
  BitVec.ofNat 32 (c.alpha8.toNat + 65536 * c.alpha16.toNat)

/-- The alpha a level selects: a table entry, the custom alpha, or none for `Off` (R92). -/
def levelAlpha (t : LevelTable) (custom : U16) : LpfLevel → Option U16
  | .verySoft => some t.verySoft
  | .soft => some t.soft
  | .medium => some t.medium
  | .firm => some t.firm
  | .aggressive => some t.aggressive
  | .custom => some custom
  | .off => none

/-! ### Derived selections (R27, R28, R43, R44) -/

/-- `C`: the elements of a frame (R27). -/
def State.elems (s : State) : Nat := if s.mode = 2 then 2 else 1

/-- `HB`: the frames of a half (R43). -/
def State.halfFrames (s : State) : Nat := s.params.bufLen / 4

/-- `STEP = HB · C` (R28). -/
def State.stepElems (s : State) : Nat := s.halfFrames * s.elems

/-- `alpha16`, present exactly when `lpf16_active` (R44). -/
def State.alpha16 (s : State) : Option U16 :=
  if s.cfg.lpf16En then levelAlpha s.params.lpf16Alpha s.cfg.alpha16 s.cfg.lpf16Level else none

/-- `alpha8`, present exactly when `lpf8_active` (R44). -/
def State.alpha8 (s : State) : Option U16 :=
  if s.cfg.lpf8En then levelAlpha s.params.lpf8Alpha s.cfg.alpha8 s.cfg.lpf8Level else none

/-- `alpha_dc` (R44). -/
def State.alphaDc (s : State) : Int := if s.cfg.dcSoft then alphaDcSoft else alphaDcStd

/-- The half's index 0 or 1. -/
def halfIndex : Half → Nat
  | .first => 0
  | .second => 1

end Sys2Proof.Machine
end

