-- ==== Sys2Proof/Machine/Ops.lean ====
section
/-! DEFINITION. The named operations over memory and registers that the meanings share: source memory
(20_memory.md R60, R69), the channel records, the output buffer and the log (R43, R213), the oracle
draws (60_exceptions.md R283 to R285), the report of a command (30_encoding.md R88), and the refusal of
an illegal word (R94). The block takes no exception (R270): a command reports in STATUS. -/

namespace Sys2Proof.Machine

/-! ### Source memory -/

/-- The byte at an address, none where the memory holds no byte (R69). -/
def memRead : Memory → Nat → Option Byte
  | [], _ => none
  | (a, b) :: rest, x => if a = x then some b else memRead rest x

/-- The HOST's store of one byte (R79), keeping the addresses strictly rising. -/
def memWrite : Memory → Nat → Byte → Memory
  | [], x, v => [(x, v)]
  | (a, b) :: rest, x, v =>
    if x < a then (x, v) :: (a, b) :: rest
    else if x = a then (x, v) :: rest
    else (a, b) :: memWrite rest x v

/-- Every address of the memory is above `lo` and below 2^32, and they rise strictly. -/
def memSorted : Nat → Memory → Bool
  | _, [] => true
  | lo, (a, _) :: rest => decide (lo ≤ a) && decide (a < 4294967296) && memSorted (a + 1) rest

/-- The canonical form of source memory: addresses strictly rising, each of 32 bits (R60). No value is
excluded, since an unlisted address reads as no value. -/
def Memory.wf (m : Memory) : Bool := memSorted 0 m

/-- The bytes of the admitted region, `A1 · (DEPTH / 8)` (R69). -/
def State.regionBytes (s : State) : Nat := s.srcLen.toNat * (s.depth.toNat / 8)

/-- `MemRead(addr, 1)` of R12: the byte, or `Fault(SOURCE_RANGE)` outside the admitted region or the
memory given (R69). -/
def sourceByte (s : State) (addr : Nat) : Except Fault Byte :=
  if s.src.toNat ≤ addr ∧ addr < s.src.toNat + s.regionBytes then
    match memRead s.mem addr with
    | some b => .ok b
    | none => .error (.sourceRange addr)
  else .error (.sourceRange addr)

/-! ### Channel records, output slots, log -/

/-- `CH[c]` (R41). -/
def State.chan (s : State) : Channel → ChannelState
  | .left => s.chL
  | .right => s.chR

/-- Writes `CH[c]`. -/
def State.setChan (s : State) (c : Channel) (ch : ChannelState) : State :=
  match c with
  | .left => { s with chL := ch }
  | .right => { s with chR := ch }

/-- What goes into output slot `i` for a sample `y` of the chain: the sample, or a free value once the
HOST changed the source in this session (I14; notes/assumptions/9.md). -/
def State.slotSample (s : State) (i : Nat) (y : S16) : S16 :=
  if s.sourceChanged then Config.freeSlot s.volDraws i else y

/-- Writes the two slots of frame `k` (R43). -/
def putFrame (out : List S16) (k : Nat) (l r : S16) : List S16 :=
  (out.set (2 * k) l).set (2 * k + 1) r

/-- Writes the two slots of frame `k` of `OUT`. -/
def State.putFrame (s : State) (k : Nat) (l r : S16) : State :=
  { s with out := Sys2Proof.Machine.putFrame s.out k l r }

/-- Appends an entry to the log (R213). -/
def State.emit (s : State) (e : LogEntry) : State := { s with log := s.log ++ [e] }

/-- The slots of one half (R43). -/
def State.halfSlots (s : State) (h : Half) : List S16 :=
  (s.out.drop (2 * halfIndex h * s.halfFrames)).take (2 * s.halfFrames)

/-- Logs the slots of a half that was written (R213). -/
def State.emitHalf (s : State) (h : Half) : State := s.emit (.half h (s.halfSlots h))

/-! ### Collaborator calls (R283) -/

/-- The answer of the next volume read: the head of the answers given, else a free value (R284). -/
def State.volumeAnswer (s : State) : U16 :=
  match s.volAnswers with
  | v :: _ => v
  | [] => Config.freeVolume s.volDraws

/-- The state after a volume read: the answer is used up and logged (R71, R213). -/
def State.afterVolumeRead (s : State) : State :=
  { s with volAnswers := s.volAnswers.tail, volDraws := s.volDraws + 1,
           log := s.log ++ [.volRead s.volumeAnswer] }

/-- The answer of the next `TRANSPORT.start` (R285). -/
def State.startAnswer (s : State) : Bool :=
  match s.startAnswers with
  | b :: _ => b
  | [] => Config.freeStart s.startDraws

/-- The state after `TRANSPORT.start(OUT, BUF_LEN)`. -/
def State.afterStart (s : State) : State :=
  { s with startAnswers := s.startAnswers.tail, startDraws := s.startDraws + 1,
           log := s.log ++ [.transportStart s.params.bufLen s.startAnswer] }

/-! ### Reports -/

/-- Ends a command with a status code and no result (R85, R109). -/
def State.report (s : State) (code : Word) : State := { s with status := code }

/-- Ends a command with a state code in `R0` and a status code (R100). -/
def State.reportState (s : State) (p : PlayState) (code : Word) : State :=
  { s with r0 := stateCode p, status := code }

/-- R94, R271: an illegal command word writes `STATUS <- ILLEGAL_COMMAND` and nothing else. -/
def State.illegalCommand (s : State) : State := s.report statusIllegal

/-- The output wires of a stage operation issued as a step of its own (notes/assumptions/5.md). -/
def State.drive (s : State) (outs : List Int) : State := { s with stageOut := outs }

/-- The outcome of an operation that may raise a model fault (R274). -/
def outcomeOf : Except Fault State → Host.Outcome State Fault Refusal
  | .ok s => .next s
  | .error f => .fault f

/-! ### HOST writes -/

/-- The HOST's write of an operand register (R85). -/
def State.writeOperand (s : State) (r : OperandReg) (v : Word) : State :=
  match r with
  | .a0 => { s with a0 := v }
  | .a1 => { s with a1 := v }
  | .a2 => { s with a2 := v }
  | .a3 => { s with a3 := v }
  | .a4 => { s with a4 := v }

/-- R79: a store that keeps the HOST's duty of leaving the source alone: to a byte outside the admitted
region, or when no session runs. -/
def State.storeAllowed (s : State) (addr : Nat) : Bool :=
  noSession s.playState || decide (addr < s.src.toNat) || decide (s.src.toNat + s.regionBytes ≤ addr)

/-- Whether a store changes a byte of the admitted region during a session (R79, I14). -/
def State.storeChangesSource (s : State) (addr : Nat) (b : Byte) : Bool :=
  !s.storeAllowed addr && decide (memRead s.mem addr ≠ some b)

/-- The HOST's store to source memory. The block checks no duty of the HOST (R289): the byte is stored,
and a change of the source in a session leaves the output open from then on (I14;
notes/assumptions/9.md). -/
def hostStore (s : State) (addr : Word) (b : Byte) : State :=
  { s with mem := memWrite s.mem addr.toNat b,
           sourceChanged := s.sourceChanged || s.storeChangesSource addr.toNat b }

end Sys2Proof.Machine
end

