-- ==== Sys2Proof/Machine/RealFns.lean ====
section
/-! DEFINITION. The exact real functions of 00_scope.md R14 (power, logarithm, exponential) followed by
R10's `round`, in integer arithmetic (notes/assumptions/12.md). A power or a `log10` is rounded by
comparing products of integer powers: the comparison is decided by bounds of 128 or 512 leading bits
where they suffice and exactly where they do not. The exponential is rounded by comparing with natural
logarithms in fixed point, whose error is below every distance that two u32 operands can give. -/

namespace Sys2Proof.Machine

/-- The exact value of a product of powers, given as (base, exponent) pairs. -/
def powerProduct : List (Nat × Nat) → Nat
  | [] => 1
  | (b, k) :: rest => b ^ k * powerProduct rest

/-- A bound `m · 2^e`. -/
structure Scaled where
  m : Nat
  e : Nat
deriving DecidableEq, Repr

/-- The product of two bounds. -/
def scaledMul (x y : Scaled) : Scaled := ⟨x.m * y.m, x.e + y.e⟩

/-- Keeps the leading `bits` bits, rounding down. -/
def truncDown (bits : Nat) (x : Scaled) : Scaled :=
  let k := x.m.log2 + 1 - bits
  ⟨x.m >>> k, x.e + k⟩

/-- Keeps the leading `bits` bits, rounding up. -/
def truncUp (bits : Nat) (x : Scaled) : Scaled :=
  let k := x.m.log2 + 1 - bits
  if k = 0 then x else ⟨(x.m >>> k) + 1, x.e + k⟩

/-- A bound of `b^k`, by squaring, each product cut by `cut`; exact when `cut` is the identity and
`k < 2^fuel`. -/
def powScaled (cut : Scaled → Scaled) (b : Nat) : Nat → Nat → Scaled
  | 0, _ => ⟨1, 0⟩
  | fuel + 1, k =>
    if k = 0 then ⟨1, 0⟩
    else
      let half := powScaled cut b fuel (k / 2)
      let square := cut (scaledMul half half)
      if k % 2 = 0 then square else cut (scaledMul square ⟨b, 0⟩)

/-- A bound of a product of powers. -/
def productScaled (cut : Scaled → Scaled) : List (Nat × Nat) → Scaled
  | [] => ⟨1, 0⟩
  | (b, k) :: rest => cut (scaledMul (powScaled cut b (k.log2 + 1) k) (productScaled cut rest))

/-- `x.m · 2^x.e ≤ y.m · 2^y.e`, without writing the powers of two out. -/
def scaledLe (x y : Scaled) : Bool :=
  if y.e ≤ x.e then decide (x.m ≤ y.m >>> (x.e - y.e))
  else decide (x.m = 0) || decide ((x.m - 1) >>> (y.e - x.e) < y.m)

/-- The comparison of two products decided by bounds of `bits` leading bits, where they decide it. -/
def compareAt (bits : Nat) (l r : List (Nat × Nat)) : Option Bool :=
  if scaledLe (productScaled (truncUp bits) l) (productScaled (truncDown bits) r) then some true
  else if scaledLe (productScaled (truncDown bits) l) (productScaled (truncUp bits) r) then none
  else some false

/-- `powerProduct l ≤ powerProduct r`, exactly. -/
def productLe (l r : List (Nat × Nat)) : Bool :=
  match compareAt 128 l r with
  | some b => b
  | none =>
    match compareAt 512 l r with
    | some b => b
    | none => decide (powerProduct l ≤ powerProduct r)

/-- The greatest `n < acc + 2^bits` at or above `acc` with `p n`, for a `p` that holds up to some point
and not after it; `acc` when `p` holds of none above it. -/
def greatestUpTo (p : Nat → Bool) : Nat → Nat → Nat
  | 0, acc => acc
  | bits + 1, acc =>
    if p (acc + 2 ^ bits) then greatestUpTo p bits (acc + 2 ^ bits) else greatestUpTo p bits acc

/-- `1310720 = 65536 · 20`, the scale of a signed Q16 dB value (R116). -/
def dbScale : Nat := 1310720

/-- `n − 1/2 ≤ 65536 · 10^(d / 1310720)` for `n ≥ 1`. -/
def dbReaches (d : Int) (n : Nat) : Bool :=
  if 0 ≤ d then productLe [(2 * n - 1, dbScale)] [(2, 17 * dbScale), (10, d.toNat)]
  else productLe [(2 * n - 1, dbScale), (10, (-d).toNat)] [(2, 17 * dbScale)]

/-- `round(65536 · 10^(d / (65536 · 20)))`, up to 262143 (R116 clamps it at 131072). -/
def roundDbGain (d : Int) : Nat := greatestUpTo (dbReaches d) 18 0

/-- `v − 1/2 ≤ 1310720 · |log10(g / 65536)|` for `v ≥ 1` and `g ≥ 1`. -/
def gainDbReaches (g v : Nat) : Bool :=
  if 65536 ≤ g then productLe [(10, 2 * v - 1), (2, 32 * dbScale)] [(g, 2 * dbScale)]
  else productLe [(10, 2 * v - 1), (g, 2 * dbScale)] [(2, 32 * dbScale)]

/-- `round(65536 · 20 · log10(g / 65536))` for `g ≥ 1` (R117); its magnitude is below 2^23. -/
def roundGainDb (g : Nat) : Int :=
  let m : Int := greatestUpTo (gainDbReaches g) 23 0
  if 65536 ≤ g then m else -m

/-- `n − 1/2 ≤ 65535 · (v / 65535)^(den / num)` for `n ≥ 1`. -/
def curveReaches (num den v n : Nat) : Bool :=
  productLe [(2 * n - 1, num), (65535, den)] [(v, den), (131070, num)]

/-- `round(65535 · (v / 65535)^(1/γ))` with `γ = num / den`, for `v ≤ 65535` (R185). -/
def roundVolumeCurve (num den v : Nat) : Nat := greatestUpTo (curveReaches num den v) 16 0

/-- `floor(π · 2^128)` (`piFixed_bounds`). -/
def piFixed : Nat := 1069028584064966747859680373161870783300

/-- `ln 2 · 2^128`, at most 43 too small (`ln2Fixed_bounds`). -/
def ln2Fixed : Nat := 235865763225513294137944142764154484381

/-- The terms `t / i`, `t / (dd · (i + 2))`, `t / (dd² · (i + 4))`, …, each rounded down, added up to the
first where the dividend is 0. -/
def artanhTerms (dd : Nat) : Nat → Nat → Nat → Nat
  | 0, _, _ => 0
  | fuel + 1, i, t => if t = 0 then 0 else t / i + artanhTerms dd fuel (i + 2) (t / dd)

/-- `ln((d + 1) / (d − 1)) · 2^128 = 2 · artanh(1 / d) · 2^128` for `d ≥ 3`, at most 43 too small. -/
def lnStep (d : Nat) : Nat := artanhTerms (d * d) 42 1 (2 ^ 129 / d)

/-- `ln m · 2^128` for `1 ≤ m < 2^fuel`, at most `86 · fuel` too small, by
`ln m = ln (m / 2) + ln 2` and, for an odd `m`, `ln m = ln (m − 1) + ln (m / (m − 1))`. -/
def lnFixed : Nat → Nat → Nat
  | 0, _ => 0
  | fuel + 1, m =>
    if m ≤ 1 then 0
    else lnFixed fuel (m / 2) + ln2Fixed + (if m % 2 = 1 then lnStep (2 * m - 1) else 0)

/-- `ln(131072 / m) · 2^128` for `m < 131072`, with an error below 2^13. -/
def lnRatio (m : Nat) : Nat := 17 * ln2Fixed - lnFixed 17 m

/-- `n − 1/2 ≤ 65536 · exp(−2π·fc/fs)` for `1 ≤ n ≤ 65535`, `fc < 2^32` and `0 < fs < 2^32`, as
`fc · 2π ≤ fs · ln(131072 / (2n − 1))`. It is exact: no two such `fc` and `fs` bring the sides so near
that an error of the fixed-point numbers could turn the comparison (`decayReaches_iff`). -/
def decayReaches (fc fs n : Nat) : Bool :=
  decide (fc * (2 * piFixed) ≤ fs * lnRatio (2 * n - 1))

/-- `min(round(65536 · exp(−2π·fc/fs)), 65535)` for u32 `fc` and `fs` with `fs > 0` (R115). -/
def roundDecay (fc fs : Nat) : Nat := greatestUpTo (decayReaches fc fs) 16 0

end Sys2Proof.Machine
end

