-- ==== Sys2Proof/Machine/Convert.lean ====
section
/-! DEFINITION. Dither, source reads and volume of 43_dither_format.md (R180 to R186). -/

namespace Sys2Proof.Machine

/-- The generator's next state, modulo 2^32 (R180). The literals stand on the left, where the kernel does
not unfold them in a sum or product with a variable. -/
def lcgNext (l : Word) : Word := lcgInc + lcgMul * l

/-- The draw a generator state gives, `(LCG >> 16) & 0x7FFF` (R180). -/
def lcgDrawOf (l : Word) : Nat := l.toNat / 65536 % 32768

/-- The dither of two successive draws from the state `l`: `(d1 − d2) >> 6` (R181). -/
def ditherOf (l : Word) : Int :=
  ((lcgDrawOf (lcgNext l) : Int) - lcgDrawOf (lcgNext (lcgNext l))) / 64

/-- The generator's state after two draws. -/
def lcgAfterDither (l : Word) : Word := lcgNext (lcgNext l)

/-- The sample of an 8-bit element and its dither (R182). -/
def u8Sample (b : Byte) (dither : Int) : S16 := clampS16 (((b.toNat : Int) - 128) * 256 + dither)

/-- `U8_TO_S16` (R182): the byte at `SRC + p`, two draws. -/
def u8ToS16 (s : State) (p : Nat) : Except Fault (S16 × State) :=
  match sourceByte s (s.src.toNat + p) with
  | .error f => .error f
  | .ok b => .ok (u8Sample b (ditherOf s.lcg), { s with lcg := lcgAfterDither s.lcg })

/-- `S16_READ` (R183): little-endian bytes at `SRC + 2p` and `SRC + 2p + 1` (R64, R66). -/
def s16Read (s : State) (p : Nat) : Except Fault S16 :=
  match sourceByte s (s.src.toNat + 2 * p) with
  | .error f => .error f
  | .ok lo =>
    match sourceByte s (s.src.toNat + 2 * p + 1) with
    | .error f => .error f
    | .ok hi => .ok (BitVec.ofNat 16 (lo.toNat + 256 * hi.toNat))

/-- `READ` (R184). -/
def readElement (s : State) (p : Nat) : Except Fault (S16 × State) :=
  if s.depth = 16 then
    match s16Read s p with
    | .error f => .error f
    | .ok x => .ok (x, s)
  else u8ToS16 s p

/-- `VOL_CURVE` (R185). -/
def volCurve (p : Params) (v : U16) : U16 :=
  if p.gammaEn then BitVec.ofNat 16 (roundVolumeCurve p.gammaNum p.gammaDen v.toNat) else v

/-- `VOL_APPLY` (R186): the division truncates toward zero. -/
def volApply (x : S16) (g : U16) : S16 := toS16 ((x.toInt * g.toNat).tdiv 65535)

/-! ### Meanings -/

/-- `LCG_DRAW` (R180). -/
def execLcgDraw (s : State) : Host.Outcome State Fault Refusal :=
  .next ({ s with lcg := lcgNext s.lcg }.drive [(lcgDrawOf (lcgNext s.lcg) : Int)])

/-- `TPDF_DITHER` (R181). -/
def execTpdfDither (s : State) : Host.Outcome State Fault Refusal :=
  .next ({ s with lcg := lcgAfterDither s.lcg }.drive [ditherOf s.lcg])

/-- `U8_TO_S16` (R182). -/
def execU8ToS16 (p : Word) (s : State) : Host.Outcome State Fault Refusal :=
  match u8ToS16 s p.toNat with
  | .error f => .fault f
  | .ok (x, t) => .next (t.drive [x.toInt])

/-- `S16_READ` (R183). -/
def execS16Read (p : Word) (s : State) : Host.Outcome State Fault Refusal :=
  match s16Read s p.toNat with
  | .error f => .fault f
  | .ok x => .next (s.drive [x.toInt])

/-- `VOL_CURVE` (R185). -/
def execVolCurve (v : U16) (s : State) : Host.Outcome State Fault Refusal :=
  .next (s.drive [((volCurve s.params v).toNat : Int)])

/-- `VOL_APPLY` (R186). -/
def execVolApply (x : S16) (g : U16) (s : State) : Host.Outcome State Fault Refusal :=
  .next (s.drive [(volApply x g).toInt])

end Sys2Proof.Machine
end

