-- ==== Sys2Proof/Machine/FixedPoint.lean ====
section
/-! DEFINITION. The fixed-point primitives of 40_fixed_point_mu.md (R111 to R118) and the meanings of
their stage operations. -/

namespace Sys2Proof.Machine

/-- `Q16_MUL` (R111). -/
def q16Mul (a b : Int) : Int := shr16 (a * b)

/-- `round(r · 65536)` of the real `mantissa / 10^places`, ties away from zero (R10, R113;
notes/assumptions/13.md). -/
def q16FromReal (mantissa : Int) (places : Nat) : Int :=
  let magnitude := (2 * mantissa.natAbs * 65536 + 10 ^ places) / (2 * 10 ^ places)
  if mantissa < 0 then -(magnitude : Int) else magnitude

/-- `ALPHA_FROM_CUTOFF` (R115), the clamp before the quantizing being the clamp at `ALPHA_MAX` after
it: `0.99998 · 65536` rounds to 65535. -/
def alphaFromCutoff (fc fs : Word) : U16 :=
  if fs = 0 then 0 else BitVec.ofNat 16 (min (roundDecay fc.toNat fs.toNat) alphaMax)

/-- `DB_TO_Q16` of a signed Q16 dB word (R116). -/
def dbToQ16 (d : Word) : Word := BitVec.ofNat 32 (min (roundDbGain d.toInt) airGainMax)

/-- `Q16_TO_DB` (R117). -/
def q16ToDb (g : Word) : Int :=
  if g.toNat = 0 then -2147483648
  else min (max (roundGainDb g.toNat) (-2147483648)) 2147483647

/-- `SEC_TO_SAMPLES` (R118). -/
def secToSamples (sec rate : Word) : Word :=
  BitVec.ofNat 32 (min (sec.toNat * rate.toNat / 65536) fadeMax)

/-! ### Meanings -/

/-- `Q16_MUL` (R111). -/
def execQ16Mul (a b : Int) (s : State) : Host.Outcome State Fault Refusal :=
  .next (s.drive [q16Mul a b])

/-- `CLAMP16` (R112). -/
def execClamp16 (v : Int) (s : State) : Host.Outcome State Fault Refusal :=
  .next (s.drive [clampInt v])

/-- `Q16_FROM_REAL` (R113). -/
def execQ16FromReal (mantissa : Int) (places : Nat) (s : State) : Host.Outcome State Fault Refusal :=
  .next (s.drive [q16FromReal mantissa places])

/-- `ALPHA_FROM_CUTOFF` (R115). -/
def execAlphaFromCutoff (fc fs : Word) (s : State) : Host.Outcome State Fault Refusal :=
  .next (s.drive [((alphaFromCutoff fc fs).toNat : Int)])

/-- `DB_TO_Q16` (R116). -/
def execDbToQ16 (d : Word) (s : State) : Host.Outcome State Fault Refusal :=
  .next (s.drive [((dbToQ16 d).toNat : Int)])

/-- `Q16_TO_DB` (R117). -/
def execQ16ToDb (g : Word) (s : State) : Host.Outcome State Fault Refusal :=
  .next (s.drive [q16ToDb g])

/-- `SEC_TO_SAMPLES` (R118). -/
def execSecToSamples (sec rate : Word) (s : State) : Host.Outcome State Fault Refusal :=
  .next (s.drive [((secToSamples sec rate).toNat : Int)])

end Sys2Proof.Machine
end

