-- ==== Sys2Proof/Machine/Filters.lean ====
section
/-! DEFINITION. The per-channel filter bank of 41_filters.md (R130 to R137). Each stage is a function
of one channel record (R140), read whole before it is written (R138). -/

namespace Sys2Proof.Machine

/-- `DC_BLOCK` on a channel record (R130). -/
def dcBlock (alpha : Int) (x : S16) (ch : ChannelState) : S16 × ChannelState :=
  let y := clampS16 (x.toInt - ch.dcXp.toInt + shr16 (ch.dcYp.toInt * alpha))
  (y, { ch with dcXp := x, dcYp := y })

/-- `LPF1`'s value before the makeup gain (R131). -/
def lpf1Raw (alpha : U16) (x yp : S16) : Int :=
  shr16 (alpha.toNat * x.toInt + (65536 - alpha.toNat) * yp.toInt)

/-- `LPF1` on a channel record (R131). The raw value is in the s16 range, so `toS16` holds it. -/
def lpf1 (alpha : U16) (g : Word) (x : S16) (ch : ChannelState) : S16 × ChannelState :=
  let yf := lpf1Raw alpha x ch.lpYp
  (clampS16 (shr16 (yf * g.toNat)), { ch with lpYp := toS16 yf })

/-- The coefficients of R133. -/
structure BiquadCoef where
  b0 : Int
  b1 : Int
  b2 : Int
  a1 : Int
  a2 : Int
deriving DecidableEq, Repr

/-- `BIQUAD_COEF` (R133). -/
def biquadCoef (alpha : U16) : BiquadCoef :=
  let a : Int := alpha.toNat
  let b0 := (65536 - a) * (65536 - a) / 131072
  ⟨b0, 2 * b0, b0, -2 * a, shr16 (a * a)⟩

/-- The exact accumulator of R134. -/
def biquadAcc (alpha : U16) (x : S16) (ch : ChannelState) : Int :=
  let k := biquadCoef alpha
  k.b0 * x.toInt + k.b1 * ch.bqX1.toInt + k.b2 * ch.bqX2.toInt - k.a1 * ch.bqY1.toInt -
    k.a2 * ch.bqY2.toInt

/-- `BIQUAD_STEP` on a channel record (R134). -/
def biquadStep (alpha : U16) (g : Word) (x : S16) (ch : ChannelState) : S16 × ChannelState :=
  let yh := clampS16 (shr16 (biquadAcc alpha x ch))
  (clampS16 (shr16 (yh.toInt * g.toNat)),
    { ch with bqX2 := ch.bqX1, bqX1 := x, bqY2 := ch.bqY1, bqY1 := yh })

/-- `n` passes of `BIQUAD_STEP` with the outputs discarded (R136). -/
def biquadPasses (alpha : U16) (g : Word) (x : S16) : Nat → ChannelState → ChannelState
  | 0, ch => ch
  | n + 1, ch => biquadPasses alpha g x n (biquadStep alpha g x ch).2

/-- `BIQUAD_WARMUP` on a channel record (R136). -/
def biquadWarmup (alpha : U16) (g : Word) (x : S16) (ch : ChannelState) : ChannelState :=
  biquadPasses alpha g x warmupN ch

/-- `AIR_SHELF` on a channel record (R137): three separate floor shifts. Its operand range is
`gain ≤ AIR_GAIN_MAX`; above it the output is a free value (notes/assumptions/30.md). -/
def airShelf (gain : Word) (x : S16) (ch : ChannelState) : S16 × ChannelState :=
  let high := x.toInt - ch.airXp.toInt
  let boost := shr16 (shr16 (high * (65536 - airAlpha)) * gain.toNat)
  let y :=
    if airGainMax < gain.toNat then Config.freeAirShelf gain x ch.airXp ch.airYp
    else clampS16 (shr16 (airAlpha * x.toInt) + shr16 ((65536 - airAlpha) * ch.airYp.toInt) + boost)
  (y, { ch with airXp := x, airYp := y })

/-! ### Meanings -/

/-- A stage operation on `CH[c]` that returns a sample: writes the record, drives the sample. -/
def runOnChannel (c : Channel) (s : State) (f : ChannelState → S16 × ChannelState) : State :=
  let r := f (s.chan c)
  (s.setChan c r.2).drive [r.1.toInt]

/-- `DC_BLOCK` (R130). -/
def execDcBlock (c : Channel) (x : S16) (s : State) : Host.Outcome State Fault Refusal :=
  .next (runOnChannel c s (dcBlock s.alphaDc x))

/-- `LPF1` (R131). -/
def execLpf1 (c : Channel) (x : S16) (alpha : U16) (g : Word) (s : State) :
    Host.Outcome State Fault Refusal :=
  .next (runOnChannel c s (lpf1 alpha g x))

/-- `BIQUAD_COEF` (R133). -/
def execBiquadCoef (alpha : U16) (s : State) : Host.Outcome State Fault Refusal :=
  let k := biquadCoef alpha
  .next (s.drive [k.b0, k.b1, k.b2, k.a1, k.a2])

/-- `BIQUAD_STEP` (R134). -/
def execBiquadStep (c : Channel) (x : S16) (alpha : U16) (g : Word) (s : State) :
    Host.Outcome State Fault Refusal :=
  .next (runOnChannel c s (biquadStep alpha g x))

/-- `BIQUAD_WARMUP` (R136). -/
def execBiquadWarmup (c : Channel) (x : S16) (alpha : U16) (g : Word) (s : State) :
    Host.Outcome State Fault Refusal :=
  .next ((s.setChan c (biquadWarmup alpha g x (s.chan c))).drive [])

/-- `AIR_SHELF` (R137). -/
def execAirShelf (c : Channel) (x : S16) (gain : Word) (s : State) :
    Host.Outcome State Fault Refusal :=
  .next (runOnChannel c s (airShelf gain x))

end Sys2Proof.Machine
end

