-- ==== Sys2Proof/Machine/PostFilter.lean ====
section
/-! DEFINITION. The post-filter stage of 42_post_filter.md (R160 to R166): the fades, the counter tick,
the noise gate and the soft clipper. None writes a channel record (R167). -/

namespace Sys2Proof.Machine

/-- `CLAMP16((x · mult) / total)`, the division truncating toward zero (R160 to R162). -/
def fadeScale (x : S16) (mult total : Nat) : S16 := clampS16 ((x.toInt * mult).tdiv total)

/-- `FADE_IN` (R160). Its operand condition is `rem ≤ tot`; outside it the sample is a free value
(notes/assumptions/15.md). -/
def fadeIn (x : S16) (rem tot : Word) : S16 :=
  if rem = 0 then x
  else if tot.toNat < rem.toNat then Config.freeFadeIn x rem tot
  else
    let progress := tot.toNat - rem.toNat
    fadeScale x (progress * progress / tot.toNat) tot.toNat

/-- `FADE_OUT_PAUSE` (R161). Its operand condition is `r ≤ T`; outside it, with `T > 0`, the sample is
a free value (notes/assumptions/15.md). -/
def fadeOutPause (x : S16) (r tot : Word) : S16 :=
  if tot = 0 then 0
  else if tot.toNat < r.toNat then Config.freeFadeOut x r tot
  else fadeScale x (r.toNat * r.toNat / tot.toNat) tot.toNat

/-- `FADE_OUT_END` (R162). -/
def fadeOutEnd (x : S16) (rem tot : Word) : S16 :=
  if tot = 0 ∨ tot.toNat < rem.toNat then x
  else fadeScale x (rem.toNat * rem.toNat / tot.toNat) tot.toNat

/-- `FADE_TICK` (R164). -/
def State.fadeTick (s : State) : State :=
  { s with
    fadeInRem := if s.fadeInRem = 0 then s.fadeInRem else s.fadeInRem - 1
    fadeOutRem :=
      if s.playState = .pausing ∧ s.fadeOutRem ≠ 0 then s.fadeOutRem - 1 else s.fadeOutRem }

/-- `NOISE_GATE` (R165). -/
def noiseGate (x : S16) : S16 :=
  if (x.toInt.natAbs : Int) < gateThreshold then toS16 (shr16 (x.toInt * gateFactor)) else x

/-- The magnitude `SOFT_CLIP` gives for a magnitude above the threshold (R166). -/
def clipMagnitude (a : Int) : Int :=
  let e := a - clipT
  if clipR ≤ e then clipFull
  else
    let u := e * 65536 / clipR
    let u2 := shr16 (u * u)
    let u3 := shr16 (u2 * u)
    let c := 3 * u2 - 2 * u3
    clipT + shr16 (c * clipR)

/-- `SOFT_CLIP` (R166). -/
def softClip (x : S16) : S16 :=
  let a : Int := x.toInt.natAbs
  if a ≤ clipT then x
  else toS16 (if 0 < x.toInt then clipMagnitude a else -clipMagnitude a)

/-! ### Meanings -/

/-- `FADE_IN` (R160). -/
def execFadeIn (x : S16) (rem tot : Word) (s : State) : Host.Outcome State Fault Refusal :=
  .next (s.drive [(fadeIn x rem tot).toInt])

/-- `FADE_OUT_PAUSE` (R161). -/
def execFadeOutPause (x : S16) (r tot : Word) (s : State) : Host.Outcome State Fault Refusal :=
  .next (s.drive [(fadeOutPause x r tot).toInt])

/-- `FADE_OUT_END` (R162). -/
def execFadeOutEnd (x : S16) (rem tot : Word) (s : State) : Host.Outcome State Fault Refusal :=
  .next (s.drive [(fadeOutEnd x rem tot).toInt])

/-- `FADE_TICK` (R164). -/
def execFadeTick (s : State) : Host.Outcome State Fault Refusal :=
  .next (s.fadeTick.drive [])

/-- `NOISE_GATE` (R165). -/
def execNoiseGate (x : S16) (s : State) : Host.Outcome State Fault Refusal :=
  .next (s.drive [(noiseGate x).toInt])

/-- `SOFT_CLIP` (R166). -/
def execSoftClip (x : S16) (s : State) : Host.Outcome State Fault Refusal :=
  .next (s.drive [(softClip x).toInt])

end Sys2Proof.Machine
end

