-- ==== Sys2Proof/Machine/Chunk.lean ====
section
/-! DEFINITION. The chunk processor of 44_chunk_processor.md: the filter chain (R200), silence (R201),
filling a half (R202 to R206), the fill event (R207 to R212) and the end of a session (R211). -/

namespace Sys2Proof.Machine

/-! ### The chain (R200) -/

/-- The LPF of the session's path; inactive, it passes the sample through (R141). -/
def lpfStage (s : State) (x : S16) (ch : ChannelState) : S16 × ChannelState :=
  if s.depth = 16 then
    match s.alpha16 with
    | some alpha => biquadStep alpha s.cfg.makeup16 x ch
    | none => (x, ch)
  else
    match s.alpha8 with
    | some alpha => lpf1 alpha s.cfg.makeup8 x ch
    | none => (x, ch)

/-- The air effect; disabled, it passes the sample through (R141). -/
def airStage (s : State) (x : S16) (ch : ChannelState) : S16 × ChannelState :=
  if s.cfg.airEn then airShelf s.airGain x ch else (x, ch)

/-- The frames left in the source at element index `p`, `(END − p) div C`; past `END`, where no rule
runs the chain, a free value (notes/assumptions/14.md). -/
def framesLeft (s : State) (p : Nat) : Word :=
  if p ≤ s.endOff.toNat then BitVec.ofNat 32 ((s.endOff.toNat - p) / s.elems)
  else Config.freeFramesLeft s.endOff.toNat p

/-- The fade-out: the pause window while Pausing, else the end-of-stream window. -/
def fadeOutStage (s : State) (p : Nat) (x : S16) : S16 :=
  if s.playState = .pausing then fadeOutPause x s.fadeOutRem s.fadeOutTot
  else fadeOutEnd x (framesLeft s p) s.fadeSmp.playOut

/-- Fade-in, fade-out, noise gate, soft clip, in that order. -/
def postStages (s : State) (p : Nat) (x : S16) : S16 :=
  let y1 := fadeIn x s.fadeInRem s.fadeInTot
  let y2 := fadeOutStage s p y1
  let y3 := if s.cfg.gateEn then noiseGate y2 else y2
  if s.cfg.clipEn then softClip y3 else y3

/-- `CHAIN` on a channel record: LPF, DC blocker, air effect, then the post-filter stages. -/
def chainOn (s : State) (x : S16) (p : Nat) (ch : ChannelState) : S16 × ChannelState :=
  let r1 := lpfStage s x ch
  let r2 := dcBlock s.alphaDc r1.1 r1.2
  let r3 := airStage s r2.1 r2.2
  (postStages s p r3.1, r3.2)

/-- The sample `CHAIN(c, x, p)` returns. -/
def chainSample (s : State) (c : Channel) (x : S16) (p : Nat) : S16 := (chainOn s x p (s.chan c)).1

/-- The state `CHAIN(c, x, p)` leaves: only `CH[c]` changes (R140). -/
def afterChain (s : State) (c : Channel) (x : S16) (p : Nat) : State :=
  s.setChan c (chainOn s x p (s.chan c)).2

/-! ### Halves (R201 to R206) -/

/-- Writes `n` silent frames from frame `k` on. -/
def silenceFrames : Nat → Nat → List S16 → List S16
  | 0, _, out => out
  | n + 1, k, out => silenceFrames n (k + 1) (putFrame out k 0 0)

/-- `SILENCE_HALF` (R201). -/
def State.silenceHalf (s : State) (h : Half) : State :=
  { s with out := silenceFrames s.halfFrames (halfIndex h * s.halfFrames) s.out }.emitHalf h

/-- A mono frame (R204): one read, the left chain, both slots, a tick. -/
def fillMono (s : State) (g : U16) (p k : Nat) : Except Fault State :=
  match readElement s p with
  | .error f => .error f
  | .ok (x, s1) =>
    let y := chainSample s1 .left (volApply x g) p
    .ok ((afterChain s1 .left (volApply x g) p).putFrame k
      (s.slotSample (2 * k) y) (s.slotSample (2 * k + 1) y)).fadeTick

/-- A stereo frame (R205): read left, read right, chain left, chain right, both slots, a tick. -/
def fillStereo (s : State) (g : U16) (p k : Nat) : Except Fault State :=
  match readElement s p with
  | .error f => .error f
  | .ok (xl, s1) =>
    match readElement s1 (p + 1) with
    | .error f => .error f
    | .ok (xr, s2) =>
      let yl := chainSample s2 .left (volApply xl g) p
      let s3 := afterChain s2 .left (volApply xl g) p
      let yr := chainSample s3 .right (volApply xr g) p
      .ok ((afterChain s3 .right (volApply xr g) p).putFrame k
        (s.slotSample (2 * k) yl) (s.slotSample (2 * k + 1) yr)).fadeTick

/-- One frame of FILL (R202): the frame at `p = CUR + f·C` is silent unless `p + C ≤ END` (R203). -/
def fillFrame (h : Half) (g : U16) (f : Nat) (s : State) : Except Fault State :=
  let p := s.cur.toNat + f * s.elems
  let k := halfIndex h * s.halfFrames + f
  if s.endOff.toNat < p + s.elems then .ok (s.putFrame k 0 0)
  else if s.elems = 1 then fillMono s g p k
  else fillStereo s g p k

/-- The frames `f .. f + n − 1` of a half. -/
def fillFrames (h : Half) (g : U16) : Nat → Nat → State → Except Fault State
  | 0, _, s => .ok s
  | n + 1, f, s =>
    match fillFrame h g f s with
    | .error e => .error e
    | .ok s1 => fillFrames h g n (f + 1) s1

/-- The cursor's advance by `STEP` (R206). -/
def State.advance (s : State) : State := { s with cur := sat32 (s.cur.toNat + s.stepElems) }

/-- `FILL` (R202). -/
def fill (s : State) (h : Half) : Except Fault State :=
  match fillFrames h (volCurve s.params s.volumeAnswer) s.halfFrames 0 s.afterVolumeRead with
  | .error f => .error f
  | .ok s1 => .ok (s1.advance.emitHalf h)

/-! ### The end of a session and the fill event -/

/-- The registers `END_SESSION` writes after its first two calls (R211, R293). -/
def State.clearSession (s : State) : State :=
  { s with cur := 0, endOff := 0, pausePos := 0, fadeInRem := 0, fadeOutRem := 0, fadeOutTot := 0,
           playState := .idle, stopReq := false }

/-- The one-shot completion notification (R26, R211). -/
def State.notifyOnce (s : State) : State :=
  if s.doneFired then s else { s with doneFired := true }.emit .notify

/-- `END_SESSION` (R211). -/
def State.endSession (s : State) : State :=
  ((s.emit .transportStop).emit (.amp false)).clearSession.notifyOnce

/-- A stop request seen while Playing: `END` moves to the end of a play-end window (R208). -/
def State.shortenEnd (s : State) : State :=
  { s with
    endOff := BitVec.ofNat 32
      (min s.endOff.toNat (sat32 (s.cur.toNat + s.fadeSmp.playOut.toNat * s.elems)).toNat)
    stopReq := false }

/-- FILL, then the end of the session when the cursor has reached `END` (R207). -/
def fillThenEnd (s : State) (h : Half) : Except Fault State :=
  match fill s h with
  | .error f => .error f
  | .ok t => .ok (if t.endOff.toNat ≤ t.cur.toNat then t.endSession else t)

/-- Pause completion: a silent half, the cursor saved, `Paused` entered (R209). -/
def State.completePause (s : State) (h : Half) : State :=
  { s.silenceHalf h with pausePos := s.cur, playState := .paused }

/-- `EV_FILL(h)` (R207). A pending stop waits while Pausing (R208). -/
def fillEvent (s : State) (h : Half) : Except Fault State :=
  match s.playState with
  | .idle => .ok (s.silenceHalf h)
  | .error => .ok (s.silenceHalf h)
  | .playingFailed => .ok (s.silenceHalf h)
  | .paused => .ok (if s.stopReq then (s.silenceHalf h).endSession else s.silenceHalf h)
  | .pausing =>
    if s.fadeOutRem.toNat ≤ s.halfFrames then .ok (s.completePause h) else fillThenEnd s h
  | .playing => fillThenEnd (if s.stopReq then s.shortenEnd else s) h

/-! ### Meanings -/

/-- `EV_FILL0` (R207). -/
def execEvFill0 (s : State) : Host.Outcome State Fault Refusal := outcomeOf (fillEvent s .first)

/-- `EV_FILL1` (R207). -/
def execEvFill1 (s : State) : Host.Outcome State Fault Refusal := outcomeOf (fillEvent s .second)

/-- `CHAIN` (R200). -/
def execChain (c : Channel) (x : S16) (p : Word) (s : State) : Host.Outcome State Fault Refusal :=
  .next ((afterChain s c x p.toNat).drive [(chainSample s c x p.toNat).toInt])

/-- `FILL` (R202). -/
def execFill (h : Half) (s : State) : Host.Outcome State Fault Refusal :=
  match fill s h with
  | .error f => .fault f
  | .ok t => .next (t.drive [])

/-- `END_SESSION` (R211). -/
def execEndSession (s : State) : Host.Outcome State Fault Refusal := .next (s.endSession.drive [])

/-- `SILENCE_HALF` (R201). -/
def execSilenceHalf (h : Half) (s : State) : Host.Outcome State Fault Refusal :=
  .next ((s.silenceHalf h).drive [])

end Sys2Proof.Machine
end

