-- ==== Sys2Proof/Machine/Commands.lean ====
section
/-! DEFINITION. The HOST's commands of 45_control_commands.md (R230 to R246). A command reads A0 to A4
from the state (R87, R100) and ends by writing STATUS. -/

namespace Sys2Proof.Machine

/-! ### PLAY (R231, R232) -/

/-- PLAY's validation (R231). -/
def playValid (s : State) : Bool :=
  noSession s.playState && decide (s.a0 ≠ 0) && decide (s.a1 ≠ 0) &&
  (decide (s.a3 = 8) || decide (s.a3 = 16)) && (decide (s.a4 = 1) || decide (s.a4 = 2)) &&
  s.params.volPresent

/-- The first byte address after the region PLAY is given (R69). -/
def playRegionEnd (s : State) : Nat := s.a0.toNat + s.a1.toNat * (s.a3.toNat / 8)

/-- The session registers and the channel records (R232, R292). The HOST's duty to leave the source alone
starts anew (R79). -/
def State.openSession (s : State) : State :=
  { s with
    stopReq := false, doneFired := false
    src := s.a0, endOff := s.a1, srcLen := s.a1, cur := 0, pausePos := 0
    depth := BitVec.ofNat 8 s.a3.toNat, mode := BitVec.ofNat 8 s.a4.toNat
    chL := ChannelState.zero, chR := ChannelState.zero
    sourceChanged := false }

/-- The new sample rate, with a call of `TRANSPORT.init` only where it changes (R232, R30). -/
def State.takeRate (s : State) : State :=
  if s.a2 = s.sampleRate then s else { s with sampleRate := s.a2 }.emit .transportInit

/-- The sample counts of all four windows at a rate (R31). -/
def fadeCounts (sec : FadeTable) (rate : Word) : FadeTable :=
  ⟨secToSamples sec.playIn rate, secToSamples sec.playOut rate, secToSamples sec.pauseOut rate,
    secToSamples sec.resumeIn rate⟩

/-- The fade registers at the start of a session (R232). -/
def State.startFades (s : State) : State :=
  let smp := fadeCounts s.fadeSec s.sampleRate
  { s with fadeSmp := smp, fadeInTot := smp.playIn, fadeInRem := smp.playIn, fadeOutRem := 0,
           fadeOutTot := 0 }

/-- The biquad warm-up (R232): at depth 16, with the LPF active and at least one frame, each channel on
its raw first sample; in mono both on the same one. -/
def warmup (s : State) : Except Fault State :=
  if s.depth = 16 ∧ s.elems ≤ s.endOff.toNat then
    match s.alpha16 with
    | none => .ok s
    | some alpha =>
      match readElement s 0 with
      | .error f => .error f
      | .ok (xl, s1) =>
        match (if s.elems = 2 then readElement s1 1 else .ok (xl, s1)) with
        | .error f => .error f
        | .ok (xr, s2) =>
          .ok { s2 with chL := biquadWarmup alpha s.cfg.makeup16 xl s2.chL,
                        chR := biquadWarmup alpha s.cfg.makeup16 xr s2.chR }
  else .ok s

/-- The amplifier, the transport's start and the state it leads to (R232). -/
def State.startTransport (s : State) : State :=
  let s1 := s.emit (.amp true)
  if s1.startAnswer then { s1.afterStart with playState := .playing }.reportState .playing statusOk
  else { s1.afterStart.emit (.amp false) with playState := .playingFailed }.reportState
    .playingFailed statusStartFailed

/-- PLAY's body (R232). -/
def playBody (s : State) : Except Fault State :=
  match warmup s.openSession.takeRate.startFades with
  | .error f => .error f
  | .ok s1 =>
    match fill s1 .first with
    | .error f => .error f
    | .ok s2 =>
      match fill s2 .second with
      | .error f => .error f
      | .ok s3 => .ok s3.startTransport

/-- `PLAY` (R231, R232): validation, then the two model faults, then the body (R275). -/
def execPlay (s : State) : Host.Outcome State Fault Refusal :=
  if playValid s then
    if s.a3 = 16 ∧ s.a0.toNat % 2 = 1 then .fault (.misalignedSource s.a0)
    else if 4294967296 < playRegionEnd s then .fault (.sourceRange s.a0.toNat)
    else outcomeOf (playBody s)
  else .next (s.reportState .error statusValidation)

/-! ### PAUSE, RESUME, STOP (R233 to R235) -/

/-- The frames left in the file (R233). -/
def framesToEnd (s : State) : Nat :=
  if s.cur.toNat < s.endOff.toNat then (s.endOff.toNat - s.cur.toNat) / s.elems else 0

/-- The continuity-preserving start level of the pause fade-out (R233). With more frames remaining
than the fade-in's total, which R34 rules out, the level is a free value (notes/assumptions/16.md). -/
def pauseLevel (s : State) : Word :=
  let tp := s.fadeSmp.pauseOut
  let te := s.fadeSmp.playOut
  if s.fadeInRem ≠ 0 then
    if s.fadeInTot.toNat < s.fadeInRem.toNat then Config.freePauseLevel s.fadeInTot s.fadeInRem tp
    else
      BitVec.ofNat 32 ((s.fadeInTot.toNat - s.fadeInRem.toNat) * tp.toNat / s.fadeInTot.toNat)
  else if te ≠ 0 ∧ framesToEnd s ≤ te.toNat then
    BitVec.ofNat 32 (framesToEnd s * tp.toNat / te.toNat)
  else tp

/-- `PAUSE` (R233). -/
def execPause (s : State) : Host.Outcome State Fault Refusal :=
  if s.playState = .playing then
    .next ({ s with fadeOutRem := pauseLevel s, fadeOutTot := s.fadeSmp.pauseOut, fadeInRem := 0,
                    playState := .pausing }.reportState .pausing statusOk)
  else .next (s.reportState s.playState statusOk)

/-- `RESUME` (R234). -/
def execResume (s : State) : Host.Outcome State Fault Refusal :=
  if s.playState = .paused then
    .next ({ s with cur := s.pausePos, fadeOutRem := 0, fadeOutTot := 0,
                    fadeInTot := s.fadeSmp.resumeIn, fadeInRem := s.fadeSmp.resumeIn,
                    playState := .playing }.reportState .playing statusOk)
  else .next (s.reportState s.playState statusOk)

/-- `STOP` (R235). -/
def execStop (s : State) : Host.Outcome State Fault Refusal :=
  .next ({ s with stopReq := true }.reportState s.playState statusOk)

/-! ### Getters and setters (R236 to R246) -/

/-- `GET_STATE` (R236). -/
def execGetState (s : State) : Host.Outcome State Fault Refusal :=
  .next (s.reportState s.playState statusOk)

/-- `GET_SAMPLE_RATE` (R237). -/
def execGetSampleRate (s : State) : Host.Outcome State Fault Refusal :=
  .next ({ s with r0 := s.sampleRate }.report statusOk)

/-- `SET_FILTER_CONFIG` (R238). -/
def execSetFilterConfig (s : State) : Host.Outcome State Fault Refusal :=
  match configOf s.params s.a0 s.a1 s.a2 s.a3 with
  | some c => .next ({ s with cfg := c }.report statusOk)
  | none => .next (s.report statusBadOperand)

/-- `GET_FILTER_CONFIG` (R239). -/
def execGetFilterConfig (s : State) : Host.Outcome State Fault Refusal :=
  .next ({ s with r0 := cfgWord0 s.cfg, r1 := s.cfg.makeup8, r2 := s.cfg.makeup16,
                  r3 := cfgWord3 s.cfg }.report statusOk)

/-- `SET_FADE_TIME` (R240). -/
def execSetFadeTime (s : State) : Host.Outcome State Fault Refusal :=
  match windowOf s.a0 with
  | some w =>
    .next ({ s with fadeSec := fadeSet s.fadeSec s.a1 w,
                    fadeSmp := fadeSet s.fadeSmp (secToSamples s.a1 s.sampleRate) w }.report statusOk)
  | none => .next (s.report statusBadOperand)

/-- `GET_FADE_TIME` (R241). -/
def execGetFadeTime (s : State) : Host.Outcome State Fault Refusal :=
  match windowOf s.a0 with
  | some w => .next ({ s with r0 := fadeGet s.fadeSec w, r1 := fadeGet s.fadeSmp w }.report statusOk)
  | none => .next (s.report statusBadOperand)

/-- `SET_AIR_GAIN_DB` (R242). -/
def execSetAirGainDb (s : State) : Host.Outcome State Fault Refusal :=
  .next ({ s with airGain := dbToQ16 s.a0 }.report statusOk)

/-- `SET_AIR_GAIN_Q16` (R243). -/
def execSetAirGainQ16 (s : State) : Host.Outcome State Fault Refusal :=
  .next ({ s with airGain := BitVec.ofNat 32 (min s.a0.toNat airGainMax) }.report statusOk)

/-- `GET_AIR_GAIN` (R244): `R1` is the dB value modulo 2^32. -/
def execGetAirGain (s : State) : Host.Outcome State Fault Refusal :=
  .next ({ s with r0 := s.airGain, r1 := BitVec.ofInt 32 (q16ToDb s.airGain) }.report statusOk)

/-- `SET_AIR_PRESET` (R245). -/
def execSetAirPreset (s : State) : Host.Outcome State Fault Refusal :=
  match s.params.airPresetDb[s.a0.toNat]? with
  | none => .next (s.report statusBadOperand)
  | some db =>
    if s.a0 = 0 then
      .next ({ s with airPresetIdx := 0, cfg := { s.cfg with airEn := false } }.report statusOk)
    else
      .next ({ s with airPresetIdx := BitVec.ofNat 8 s.a0.toNat, airGain := dbToQ16 db,
                      cfg := { s.cfg with airEn := true } }.report statusOk)

/-- `GET_AIR_PRESET` (R246). -/
def execGetAirPreset (s : State) : Host.Outcome State Fault Refusal :=
  .next ({ s with r0 := BitVec.ofNat 32 s.airPresetIdx.toNat,
                  r1 := BitVec.ofNat 32 s.params.airPresetDb.length }.report statusOk)

end Sys2Proof.Machine
end

