-- ==== Sys2Proof/Machine/Dispatch.lean ====
section
/-! DEFINITION. The dispatch: one arm for each instruction, each one direct call of its meaning. -/

namespace Sys2Proof.Machine

def exec (i : Instr) (s : State) : Host.Outcome State Fault Refusal :=
  match i with
  | .play => Sys2Proof.Machine.execPlay s
  | .pause => Sys2Proof.Machine.execPause s
  | .resume => Sys2Proof.Machine.execResume s
  | .stop => Sys2Proof.Machine.execStop s
  | .getState => Sys2Proof.Machine.execGetState s
  | .getSampleRate => Sys2Proof.Machine.execGetSampleRate s
  | .setFilterConfig => Sys2Proof.Machine.execSetFilterConfig s
  | .getFilterConfig => Sys2Proof.Machine.execGetFilterConfig s
  | .setFadeTime => Sys2Proof.Machine.execSetFadeTime s
  | .getFadeTime => Sys2Proof.Machine.execGetFadeTime s
  | .setAirGainDb => Sys2Proof.Machine.execSetAirGainDb s
  | .setAirGainQ16 => Sys2Proof.Machine.execSetAirGainQ16 s
  | .getAirGain => Sys2Proof.Machine.execGetAirGain s
  | .setAirPreset => Sys2Proof.Machine.execSetAirPreset s
  | .getAirPreset => Sys2Proof.Machine.execGetAirPreset s
  | .evFill0 => Sys2Proof.Machine.execEvFill0 s
  | .evFill1 => Sys2Proof.Machine.execEvFill1 s
  | .q16Mul a b => Sys2Proof.Machine.execQ16Mul a b s
  | .clamp16 v => Sys2Proof.Machine.execClamp16 v s
  | .q16FromReal m k => Sys2Proof.Machine.execQ16FromReal m k s
  | .alphaFromCutoff fc fs => Sys2Proof.Machine.execAlphaFromCutoff fc fs s
  | .dbToQ16 d => Sys2Proof.Machine.execDbToQ16 d s
  | .q16ToDb g => Sys2Proof.Machine.execQ16ToDb g s
  | .secToSamples sec rate => Sys2Proof.Machine.execSecToSamples sec rate s
  | .dcBlock c x => Sys2Proof.Machine.execDcBlock c x s
  | .lpf1 c x alpha g => Sys2Proof.Machine.execLpf1 c x alpha g s
  | .biquadCoef alpha => Sys2Proof.Machine.execBiquadCoef alpha s
  | .biquadStep c x alpha g => Sys2Proof.Machine.execBiquadStep c x alpha g s
  | .biquadWarmup c x alpha g => Sys2Proof.Machine.execBiquadWarmup c x alpha g s
  | .airShelf c x gain => Sys2Proof.Machine.execAirShelf c x gain s
  | .fadeIn x rem tot => Sys2Proof.Machine.execFadeIn x rem tot s
  | .fadeOutPause x r tot => Sys2Proof.Machine.execFadeOutPause x r tot s
  | .fadeOutEnd x rem tot => Sys2Proof.Machine.execFadeOutEnd x rem tot s
  | .noiseGate x => Sys2Proof.Machine.execNoiseGate x s
  | .softClip x => Sys2Proof.Machine.execSoftClip x s
  | .lcgDraw => Sys2Proof.Machine.execLcgDraw s
  | .tpdfDither => Sys2Proof.Machine.execTpdfDither s
  | .u8ToS16 p => Sys2Proof.Machine.execU8ToS16 p s
  | .s16Read p => Sys2Proof.Machine.execS16Read p s
  | .volCurve v => Sys2Proof.Machine.execVolCurve v s
  | .volApply x g => Sys2Proof.Machine.execVolApply x g s
  | .chain c x p => Sys2Proof.Machine.execChain c x p s
  | .fill h => Sys2Proof.Machine.execFill h s
  | .fadeTick => Sys2Proof.Machine.execFadeTick s
  | .endSession => Sys2Proof.Machine.execEndSession s
  | .silenceHalf h => Sys2Proof.Machine.execSilenceHalf h s

end Sys2Proof.Machine
end

