-- ==== Sys2Proof/WellFormed.lean ====
section
/-! DEFINITION. Which instruction terms are well formed: the operand types that the constructors' own
types do not hold already (40_fixed_point_mu.md R111). A value inside its type for which a rule states no
result is well formed: the instruction runs, with a free value (notes/assumptions/15.md, 30.md). -/

namespace Sys2Proof

/-- R111: an operand of `Q16_MUL` is "within s32 or u32". -/
abbrev q16Operand (v : Int) : Prop := -2147483648 ≤ v ∧ v ≤ 4294967295

/-- The operand types of each instruction. -/
def Instr.wf : Instr → Bool
  | .play => true
  | .pause => true
  | .resume => true
  | .stop => true
  | .getState => true
  | .getSampleRate => true
  | .setFilterConfig => true
  | .getFilterConfig => true
  | .setFadeTime => true
  | .getFadeTime => true
  | .setAirGainDb => true
  | .setAirGainQ16 => true
  | .getAirGain => true
  | .setAirPreset => true
  | .getAirPreset => true
  | .evFill0 => true
  | .evFill1 => true
  | .q16Mul a b => decide (q16Operand a) && decide (q16Operand b)
  | .clamp16 _ => true
  | .q16FromReal _ _ => true
  | .alphaFromCutoff _ _ => true
  | .dbToQ16 _ => true
  | .q16ToDb _ => true
  | .secToSamples _ _ => true
  | .dcBlock _ _ => true
  | .lpf1 _ _ _ _ => true
  | .biquadCoef _ => true
  | .biquadStep _ _ _ _ => true
  | .biquadWarmup _ _ _ _ => true
  | .airShelf _ _ _ => true
  | .fadeIn _ _ _ => true
  | .fadeOutPause _ _ _ => true
  | .fadeOutEnd _ _ _ => true
  | .noiseGate _ => true
  | .softClip _ => true
  | .lcgDraw => true
  | .tpdfDither => true
  | .u8ToS16 _ => true
  | .s16Read _ => true
  | .volCurve _ => true
  | .volApply _ _ => true
  | .chain _ _ _ => true
  | .fill _ => true
  | .fadeTick => true
  | .endSession => true
  | .silenceHalf _ => true

end Sys2Proof
end

