-- ==== Sys2Proof/Decode.lean ====
section
/-! DEFINITION. Decoding the words of the block's ports (30_encoding.md R86, R93, R94, R96, R97, R98)
and, after it, encoding. Decoding is total: what is no instruction is rejected by name. -/

namespace Sys2Proof

/-! ### Wires (R98) -/

/-- An s16 wire. -/
def wireS16 (v : Int) : Option S16 :=
  if -32768 ≤ v ∧ v ≤ 32767 then some (BitVec.ofInt 16 v) else none

/-- A u16 wire. -/
def wireU16 (v : Int) : Option U16 :=
  if 0 ≤ v ∧ v ≤ 65535 then some (BitVec.ofInt 16 v) else none

/-- A u32 wire. -/
def wireU32 (v : Int) : Option Word :=
  if 0 ≤ v ∧ v ≤ 4294967295 then some (BitVec.ofInt 32 v) else none

/-- An s32 wire, as its 32-bit two's complement word. -/
def wireS32 (v : Int) : Option Word :=
  if -2147483648 ≤ v ∧ v ≤ 2147483647 then some (BitVec.ofInt 32 v) else none

/-- A channel selector wire: 0 for L, 1 for R (notes/assumptions/5.md). -/
def wireChannel (v : Int) : Option Channel :=
  if v = 0 then some .left else if v = 1 then some .right else none

/-- A half selector wire. -/
def wireHalf (v : Int) : Option Half :=
  if v = 0 then some .first else if v = 1 then some .second else none

/-- A wire that carries a natural number of any size. -/
def wireNat (v : Int) : Option Nat :=
  if 0 ≤ v then some v.toNat else none

/-- Keeps an instruction whose operands are in their types. -/
def wellFormedOnly (i : Instr) : Option Instr :=
  if i.wf then some i else none

/-! ### Decoding -/

/-- The operands of a stage operation, by its id (R97): `none` where a wire is outside its type, and
nothing at all for an id R97 does not list. -/
def decodeStageWires (id : Nat) (w : Wires) : Option (Option Instr) :=
  match id with
  | 0x20 => some (wellFormedOnly (.q16Mul w.w0 w.w1))
  | 0x21 => some (some (.clamp16 w.w0))
  | 0x22 => some ((wireNat w.w1).map (.q16FromReal w.w0))
  | 0x23 => some ((wireU32 w.w0).bind fun fc => (wireU32 w.w1).map (.alphaFromCutoff fc))
  | 0x24 => some ((wireS32 w.w0).map .dbToQ16)
  | 0x25 => some ((wireU32 w.w0).map .q16ToDb)
  | 0x26 => some ((wireU32 w.w0).bind fun sec => (wireU32 w.w1).map (.secToSamples sec))
  | 0x30 => some ((wireChannel w.w0).bind fun c => (wireS16 w.w1).map (.dcBlock c))
  | 0x31 => some ((wireChannel w.w0).bind fun c => (wireS16 w.w1).bind fun x =>
      (wireU16 w.w2).bind fun alpha => (wireU32 w.w3).map (.lpf1 c x alpha))
  | 0x32 => some ((wireU16 w.w0).map .biquadCoef)
  | 0x33 => some ((wireChannel w.w0).bind fun c => (wireS16 w.w1).bind fun x =>
      (wireU16 w.w2).bind fun alpha => (wireU32 w.w3).map (.biquadStep c x alpha))
  | 0x34 => some ((wireChannel w.w0).bind fun c => (wireS16 w.w1).bind fun x =>
      (wireU16 w.w2).bind fun alpha => (wireU32 w.w3).map (.biquadWarmup c x alpha))
  | 0x35 => some ((wireChannel w.w0).bind fun c => (wireS16 w.w1).bind fun x =>
      (wireU32 w.w2).map (.airShelf c x))
  | 0x40 => some ((wireS16 w.w0).bind fun x => (wireU32 w.w1).bind fun rem =>
      (wireU32 w.w2).map (.fadeIn x rem))
  | 0x41 => some ((wireS16 w.w0).bind fun x => (wireU32 w.w1).bind fun r =>
      (wireU32 w.w2).map (.fadeOutPause x r))
  | 0x42 => some ((wireS16 w.w0).bind fun x => (wireU32 w.w1).bind fun rem =>
      (wireU32 w.w2).map (.fadeOutEnd x rem))
  | 0x43 => some ((wireS16 w.w0).map .noiseGate)
  | 0x44 => some ((wireS16 w.w0).map .softClip)
  | 0x50 => some (some .lcgDraw)
  | 0x51 => some (some .tpdfDither)
  | 0x52 => some ((wireU32 w.w0).map .u8ToS16)
  | 0x53 => some ((wireU32 w.w0).map .s16Read)
  | 0x54 => some ((wireU16 w.w0).map .volCurve)
  | 0x55 => some ((wireS16 w.w0).bind fun x => (wireU16 w.w1).map (.volApply x))
  | 0x60 => some ((wireChannel w.w0).bind fun c => (wireS16 w.w1).bind fun x =>
      (wireU32 w.w2).map (.chain c x))
  | 0x61 => some ((wireHalf w.w0).map .fill)
  | 0x62 => some (some .fadeTick)
  | 0x63 => some (some .endSession)
  | 0x64 => some ((wireHalf w.w0).map .silenceHalf)
  | _ => none

/-- R97, R98: a stage id and its wires. -/
def decodeStage (id : Byte) (w : Wires) : Except DecodeError Instr :=
  match decodeStageWires id.toNat w with
  | none => .error (.unknownStage id)
  | some none => .error (.badWire id)
  | some (some i) => .ok i

/-- R86, R93, R94: a command word is legal if and only if it equals one of the fifteen words (so bits
31:8 are zero). -/
def decodeCommand (w : Word) : Except DecodeError Instr :=
  match w.toNat with
  | 0x01 => .ok .play
  | 0x02 => .ok .pause
  | 0x03 => .ok .resume
  | 0x04 => .ok .stop
  | 0x05 => .ok .getState
  | 0x06 => .ok .getSampleRate
  | 0x07 => .ok .setFilterConfig
  | 0x08 => .ok .getFilterConfig
  | 0x09 => .ok .setFadeTime
  | 0x0A => .ok .getFadeTime
  | 0x0B => .ok .setAirGainDb
  | 0x0C => .ok .setAirGainQ16
  | 0x0D => .ok .getAirGain
  | 0x0E => .ok .setAirPreset
  | 0x0F => .ok .getAirPreset
  | _ => .error (.illegalCommand w)

/-- R96: "No event value is illegal." -/
def decodeEvent (h : BitVec 1) : Instr :=
  if h = 0 then .evFill0 else .evFill1

/-- The decoder: any port word to an instruction or to a reason it is none. -/
def decode : PortWord → Except DecodeError Instr
  | .command w => decodeCommand w
  | .event h => .ok (decodeEvent h)
  | .stage id w => decodeStage id w

/-- The port word that a row of spec/opcode_table.json with `nbits` bits (in whole bytes) and the bits
`w` stands for: 32 bits are a command word, 8 bits are a fill event (0 and 1, whose one bit is `h`)
or a stage id with every wire at zero (notes/assumptions/23.md). -/
def portWordOf (nbits w : Nat) : Option PortWord :=
  if nbits = 32 then some (.command (BitVec.ofNat 32 w))
  else if nbits = 8 then
    if w < 2 then some (.event (BitVec.ofNat 1 w)) else some (.stage (BitVec.ofNat 8 w) Wires.zero)
  else none

/-- The instruction the decoder reads from a row's bits, for the host. -/
def decodeTableWord (nbits w : Nat) : Option Instr :=
  match portWordOf nbits w with
  | none => none
  | some pw =>
    match decode pw with
    | .ok i => some i
    | .error _ => none

/-! ### Encoding -/

/-- The channel selector on a wire. -/
def Channel.wire : Channel → Int
  | .left => 0
  | .right => 1

/-- The half selector on a wire; it is the bit `h` of R96. -/
def Half.wire : Half → Int
  | .first => 0
  | .second => 1

/-- The port word of an instruction, from the tables of R93, R96 and R97. -/
def encode : Instr → PortWord
  | .play => .command 0x01
  | .pause => .command 0x02
  | .resume => .command 0x03
  | .stop => .command 0x04
  | .getState => .command 0x05
  | .getSampleRate => .command 0x06
  | .setFilterConfig => .command 0x07
  | .getFilterConfig => .command 0x08
  | .setFadeTime => .command 0x09
  | .getFadeTime => .command 0x0A
  | .setAirGainDb => .command 0x0B
  | .setAirGainQ16 => .command 0x0C
  | .getAirGain => .command 0x0D
  | .setAirPreset => .command 0x0E
  | .getAirPreset => .command 0x0F
  | .evFill0 => .event 0
  | .evFill1 => .event 1
  | .q16Mul a b => .stage 0x20 ⟨a, b, 0, 0⟩
  | .clamp16 v => .stage 0x21 ⟨v, 0, 0, 0⟩
  | .q16FromReal m k => .stage 0x22 ⟨m, k, 0, 0⟩
  | .alphaFromCutoff fc fs => .stage 0x23 ⟨fc.toNat, fs.toNat, 0, 0⟩
  | .dbToQ16 d => .stage 0x24 ⟨d.toInt, 0, 0, 0⟩
  | .q16ToDb g => .stage 0x25 ⟨g.toNat, 0, 0, 0⟩
  | .secToSamples sec rate => .stage 0x26 ⟨sec.toNat, rate.toNat, 0, 0⟩
  | .dcBlock c x => .stage 0x30 ⟨c.wire, x.toInt, 0, 0⟩
  | .lpf1 c x alpha g => .stage 0x31 ⟨c.wire, x.toInt, alpha.toNat, g.toNat⟩
  | .biquadCoef alpha => .stage 0x32 ⟨alpha.toNat, 0, 0, 0⟩
  | .biquadStep c x alpha g => .stage 0x33 ⟨c.wire, x.toInt, alpha.toNat, g.toNat⟩
  | .biquadWarmup c x alpha g => .stage 0x34 ⟨c.wire, x.toInt, alpha.toNat, g.toNat⟩
  | .airShelf c x gain => .stage 0x35 ⟨c.wire, x.toInt, gain.toNat, 0⟩
  | .fadeIn x rem tot => .stage 0x40 ⟨x.toInt, rem.toNat, tot.toNat, 0⟩
  | .fadeOutPause x r tot => .stage 0x41 ⟨x.toInt, r.toNat, tot.toNat, 0⟩
  | .fadeOutEnd x rem tot => .stage 0x42 ⟨x.toInt, rem.toNat, tot.toNat, 0⟩
  | .noiseGate x => .stage 0x43 ⟨x.toInt, 0, 0, 0⟩
  | .softClip x => .stage 0x44 ⟨x.toInt, 0, 0, 0⟩
  | .lcgDraw => .stage 0x50 Wires.zero
  | .tpdfDither => .stage 0x51 Wires.zero
  | .u8ToS16 p => .stage 0x52 ⟨p.toNat, 0, 0, 0⟩
  | .s16Read p => .stage 0x53 ⟨p.toNat, 0, 0, 0⟩
  | .volCurve v => .stage 0x54 ⟨v.toNat, 0, 0, 0⟩
  | .volApply x g => .stage 0x55 ⟨x.toInt, g.toNat, 0, 0⟩
  | .chain c x p => .stage 0x60 ⟨c.wire, x.toInt, p.toNat, 0⟩
  | .fill h => .stage 0x61 ⟨h.wire, 0, 0, 0⟩
  | .fadeTick => .stage 0x62 Wires.zero
  | .endSession => .stage 0x63 Wires.zero
  | .silenceHalf h => .stage 0x64 ⟨h.wire, 0, 0, 0⟩

end Sys2Proof
end

