-- ==== Sys2Proof/Machine/Fetch.lean ====
section
/-! DEFINITION. How the next input becomes a step (10_state.md R21, 30_encoding.md R85). The block fetches
no program (R63): HOST and TRANSPORT choose its inputs, and `inbox` holds them, oldest first. -/

namespace Sys2Proof.Machine

/-- What the next input asks for: a step that is over (a HOST write, an illegal command word, no input
at all), or an instruction to run in the state the input leaves. -/
inductive Fetched where
  | done (o : Host.Outcome State Fault Refusal)
  | run (i : Instr) (s : State)

/-- The state once a port word was taken: a command word stands in `CMD` (R85). -/
def State.accept (s : State) (w : PortWord) : State :=
  match w with
  | .command c => { s with cmd := c }
  | .event _ => s
  | .stage _ _ => s

/-- A port word that is no instruction: an illegal command word has R94's effect; a stage issue the
block cannot make (an id R97 does not list, a wire outside its operand's type) is refused by name. -/
def rejectWord (s : State) : DecodeError → Host.Outcome State Fault Refusal
  | .illegalCommand _ => .next s.illegalCommand
  | .unknownStage id => .refused (.noSuchStage id)
  | .badWire id => .refused (.badStageWires id)

/-- A port word, in the state without the input. -/
def fetchWord (s : State) (w : PortWord) : Fetched :=
  match decode w with
  | .ok i => .run i (s.accept w)
  | .error e => .done (rejectWord (s.accept w) e)

/-- Takes the oldest input. With none the block waits (R291). -/
def fetch (s : State) : Fetched :=
  match s.inbox with
  | [] => .done (.next s)
  | .operand r v :: rest => .done (.next ({ s with inbox := rest }.writeOperand r v))
  | .store a b :: rest => .done (.next (hostStore { s with inbox := rest } a b))
  | .port w :: rest => fetchWord { s with inbox := rest } w

/-- Puts the port word of a row's bits before every other input. -/
def State.pushTableWord (s : State) (nbits w : Nat) : State :=
  match portWordOf nbits w with
  | some pw => { s with inbox := .port pw :: s.inbox }
  | none => s

end Sys2Proof.Machine
end

