-- ==== Sys2Proof/Machine/Step.lean ====
section
/-! DEFINITION. One step of the block: the oldest input, run as one atomic step (20_memory.md R74). -/

namespace Sys2Proof.Machine

/-- One step. -/
def step (s : State) : Host.Outcome State Fault Refusal :=
  match fetch s with
  | .done o => o
  | .run i t => exec i t

/-- `s` with the instruction of a row's bits as its next input (notes/assumptions/3.md). -/
def State.withFetchWord (s : State) (nbits w : Nat) : State := s.pushTableWord nbits w

end Sys2Proof.Machine
end

