-- ==== Sys2Proof/Safety.lean ====
section
/-! DEFINITION. What the statements mean by a sound state and a safe run: the invariant every step
keeps, the invariant of a session, and the HOST's duty that the source memory holds the region. -/

namespace Sys2Proof.Machine

/-- What holds in every state a run reaches: source memory in canonical form, legal parameters (R7), an
output buffer of `BUF_LEN` slots (R43), the fade bounds of R34 and of R118's clamp, a legal configuration (R36),
an air gain in range (R38), a preset index in the table (R245), and no `Error` in STATE (R24). -/
structure StateInv (s : State) : Prop where
  memory : Memory.wf s.mem = true
  params : s.params.legal
  outLength : s.out.length = s.params.bufLen
  fadeIn : s.fadeInRem.toNat ≤ s.fadeInTot.toNat
  fadeOut : s.fadeOutRem.toNat ≤ s.fadeOutTot.toNat
  fadeInTot : s.fadeInTot.toNat ≤ 2147483647
  fadeOutTot : s.fadeOutTot.toNat ≤ 2147483647
  fadeSmp : ∀ w : FadeWindow, (fadeGet s.fadeSmp w).toNat ≤ 2147483647
  cfg : s.cfg.legal s.params.makeupMax
  airGain : s.airGain.toNat ≤ 131072
  preset : s.airPresetIdx.toNat < s.params.airPresetDb.length
  notError : s.playState ≠ .error

/-- What holds during a session (R69, R67, R27, R301, R211, R29): `END` within the admitted count, a
depth and a mode PLAY accepts, a region inside the address space and aligned, a cursor past the
pre-fill, no notification yet, and while Paused the saved position equal to the cursor. -/
structure InSession (s : State) : Prop where
  endWithin : s.endOff.toNat ≤ s.srcLen.toNat
  depth : s.depth = 8 ∨ s.depth = 16
  mode : s.mode = 1 ∨ s.mode = 2
  region : s.src.toNat + s.regionBytes ≤ 4294967296
  aligned : s.depth = 16 → s.src.toNat % 2 = 0
  cursor : 2 * s.stepElems ≤ s.cur.toNat
  notNotified : s.doneFired = false
  pausedAt : s.playState = .paused → s.pausePos = s.cur

/-- The session invariant: vacuous outside a session. -/
def SessionInv (s : State) : Prop := noSession s.playState = false → InSession s

/-- The memory holds every byte of the admitted region (R69, R79, R295). -/
def SourceReady (s : State) : Prop :=
  ∀ a : Nat, s.src.toNat ≤ a → a < s.src.toNat + s.regionBytes → ∃ b, memRead s.mem a = some b

/-- What FILL needs to read its frames: a depth PLAY accepts, `END` within the admitted count, and
every byte of the region. -/
structure Fillable (s : State) : Prop where
  depth : s.depth = 8 ∨ s.depth = 16
  endWithin : s.endOff.toNat ≤ s.srcLen.toNat
  ready : SourceReady s

/-- A step of a run of the block: its next input is no stage issue of its own (notes/assumptions/5.md). -/
def RunInput (s : State) : Prop := ∀ id w rest, s.inbox ≠ .port (.stage id w) :: rest

/-- `o` is the buffer of `s` with every slot of half `h` at 0 and every other slot as it was (R201). -/
structure SilencedHalf (s : State) (h : Half) (o : List S16) : Prop where
  length : o.length = s.out.length
  inside : ∀ i, 2 * halfIndex h * s.halfFrames ≤ i →
    i < 2 * halfIndex h * s.halfFrames + 2 * s.halfFrames → o[i]? = some 0
  outside : ∀ i, ¬(2 * halfIndex h * s.halfFrames ≤ i ∧
    i < 2 * halfIndex h * s.halfFrames + 2 * s.halfFrames) → o[i]? = s.out[i]?

/-- One pass of the loop of R202, for frame `f` of half `h` at volume `g`: silent past `END` (R203), one
read and the left chain in mono (R204), two reads and both chains in stereo (R205). The slots take the
chain's samples while the HOST has left the source alone (R79); after that they are open (I14). -/
def FrameStep (h : Half) (g : U16) (f : Nat) (s t : State) : Prop :=
  let c := if s.mode = 2 then 2 else 1
  let p := s.cur.toNat + f * c
  let k := halfIndex h * (s.params.bufLen / 4) + f
  if s.endOff.toNat < p + c then
    t = { s with out := (s.out.set (2 * k) 0).set (2 * k + 1) 0 }
  else if c = 1 then
    ∃ (x l r : S16) (s1 : State), readElement s p = .ok (x, s1) ∧
      let y := chainSample s1 .left (volApply x g) p
      let s2 := afterChain s1 .left (volApply x g) p
      (s.sourceChanged = false → l = y ∧ r = y) ∧
      t = { s2 with out := (s2.out.set (2 * k) l).set (2 * k + 1) r }.fadeTick
  else
    ∃ (x xr l r : S16) (s1 s2 : State), readElement s p = .ok (x, s1) ∧
      readElement s1 (p + 1) = .ok (xr, s2) ∧
      let s3 := afterChain s2 .left (volApply x g) p
      let s4 := afterChain s3 .right (volApply xr g) p
      (s.sourceChanged = false → l = chainSample s2 .left (volApply x g) p ∧
        r = chainSample s3 .right (volApply xr g) p) ∧
      t = { s4 with out := (s4.out.set (2 * k) l).set (2 * k + 1) r }.fadeTick

/-- The instruction of a fill event: EV_FILL0 for half 0, EV_FILL1 for half 1 (R96). -/
def eventInstr : Half → Instr
  | .first => .evFill0
  | .second => .evFill1

/-- What PLAY's validation asks (R231): no session, a base and a count that are not 0, a depth of 8 or 16,
mono or stereo, and a volume collaborator. -/
def PlayAccepted (s : State) : Prop :=
  (s.playState = .idle ∨ s.playState = .error ∨ s.playState = .playingFailed) ∧ s.a0 ≠ 0 ∧ s.a1 ≠ 0 ∧
  (s.a3 = 8 ∨ s.a3 = 16) ∧ (s.a4 = 1 ∨ s.a4 = 2) ∧ s.params.volPresent = true

/-- The registers END_SESSION writes (R211, R293). -/
def SessionEnded (s : State) : State :=
  { s with cur := 0, endOff := 0, pausePos := 0, fadeInRem := 0, fadeOutRem := 0, fadeOutTot := 0,
           playState := .idle, stopReq := false, doneFired := true,
           log := s.log ++ [.transportStop, .amp false] ++ (if s.doneFired then [] else [.notify]) }

/-- The instructions a run of the block issues: commands and fill events (R21). -/
def isRunInstr : Instr → Bool
  | .play | .pause | .resume | .stop | .getState | .getSampleRate | .setFilterConfig
  | .getFilterConfig | .setFadeTime | .getFadeTime | .setAirGainDb | .setAirGainQ16 | .getAirGain
  | .setAirPreset | .getAirPreset | .evFill0 | .evFill1 => true
  | .q16Mul _ _ | .clamp16 _ | .q16FromReal _ _ | .alphaFromCutoff _ _ | .dbToQ16 _ | .q16ToDb _
  | .secToSamples _ _ | .dcBlock _ _ | .lpf1 _ _ _ _ | .biquadCoef _ | .biquadStep _ _ _ _
  | .biquadWarmup _ _ _ _ | .airShelf _ _ _ | .fadeIn _ _ _ | .fadeOutPause _ _ _
  | .fadeOutEnd _ _ _ | .noiseGate _ | .softClip _ | .lcgDraw | .tpdfDither | .u8ToS16 _
  | .s16Read _ | .volCurve _ | .volApply _ _ | .chain _ _ _ | .fill _ | .fadeTick | .endSession
  | .silenceHalf _ => false

end Sys2Proof.Machine
end

