-- ==== Sys2Proof/Certificates/Slice0/Obligations.lean ====
section
/-! DEFINITION. The statements for the provers. Each docstring names the rule of spec/ it formalises.
`/` on integers with a positive divisor is the floor (R10's `>>` and `div`); `Int.tdiv` truncates. -/

open Sys2Proof Sys2Proof.Machine

/-! ### Encoding and stepping -/

/-- R93: each opcode word of the table is its command, and every other word is illegal. -/
def Obligations.CommandWordsDecode : Prop :=
  decode (.command 0x00000001) = .ok .play ∧
  decode (.command 0x00000002) = .ok .pause ∧
  decode (.command 0x00000003) = .ok .resume ∧
  decode (.command 0x00000004) = .ok .stop ∧
  decode (.command 0x00000005) = .ok .getState ∧
  decode (.command 0x00000006) = .ok .getSampleRate ∧
  decode (.command 0x00000007) = .ok .setFilterConfig ∧
  decode (.command 0x00000008) = .ok .getFilterConfig ∧
  decode (.command 0x00000009) = .ok .setFadeTime ∧
  decode (.command 0x0000000A) = .ok .getFadeTime ∧
  decode (.command 0x0000000B) = .ok .setAirGainDb ∧
  decode (.command 0x0000000C) = .ok .setAirGainQ16 ∧
  decode (.command 0x0000000D) = .ok .getAirGain ∧
  decode (.command 0x0000000E) = .ok .setAirPreset ∧
  decode (.command 0x0000000F) = .ok .getAirPreset ∧
  ∀ w : Word, (w.toNat % 256 = 0 ∨ 16 ≤ w.toNat % 256 ∨ w.toNat / 256 ≠ 0) ↔
    decode (.command w) = .error (.illegalCommand w)

/-- R96, R97: the two event words, and one issue of every stage id. The values on the wires are the
model's form of "They are wires" (notes/assumptions/5.md); the ids are R97's. -/
def Obligations.EventAndStageWordsDecode : Prop :=
  decode (.event 0) = .ok .evFill0 ∧
  decode (.event 1) = .ok .evFill1 ∧
  decode (.stage 0x20 ⟨-3, 32768, 0, 0⟩) = .ok (.q16Mul (-3) 32768) ∧
  decode (.stage 0x21 ⟨98302, 0, 0, 0⟩) = .ok (.clamp16 98302) ∧
  decode (.stage 0x22 ⟨98, 2, 0, 0⟩) = .ok (.q16FromReal 98 2) ∧
  decode (.stage 0x23 ⟨1000, 22000, 0, 0⟩) = .ok (.alphaFromCutoff 1000 22000) ∧
  decode (.stage 0x24 ⟨-393216, 0, 0, 0⟩) = .ok (.dbToQ16 0xFFFA0000) ∧
  decode (.stage 0x25 ⟨131072, 0, 0, 0⟩) = .ok (.q16ToDb 131072) ∧
  decode (.stage 0x26 ⟨65536, 22000, 0, 0⟩) = .ok (.secToSamples 65536 22000) ∧
  decode (.stage 0x30 ⟨0, -1, 0, 0⟩) = .ok (.dcBlock .left 0xFFFF) ∧
  decode (.stage 0x31 ⟨1, 1000, 49152, 65536⟩) = .ok (.lpf1 .right 1000 49152 65536) ∧
  decode (.stage 0x32 ⟨65535, 0, 0, 0⟩) = .ok (.biquadCoef 65535) ∧
  decode (.stage 0x33 ⟨0, 1000, 32768, 65536⟩) = .ok (.biquadStep .left 1000 32768 65536) ∧
  decode (.stage 0x34 ⟨1, 10000, 32768, 65536⟩) = .ok (.biquadWarmup .right 10000 32768 65536) ∧
  decode (.stage 0x35 ⟨0, 1000, 131072, 0⟩) = .ok (.airShelf .left 1000 131072) ∧
  decode (.stage 0x40 ⟨10000, 3, 4, 0⟩) = .ok (.fadeIn 10000 3 4) ∧
  decode (.stage 0x41 ⟨10000, 4, 4, 0⟩) = .ok (.fadeOutPause 10000 4 4) ∧
  decode (.stage 0x42 ⟨10000, 6, 4, 0⟩) = .ok (.fadeOutEnd 10000 6 4) ∧
  decode (.stage 0x43 ⟨511, 0, 0, 0⟩) = .ok (.noiseGate 511) ∧
  decode (.stage 0x44 ⟨-32768, 0, 0, 0⟩) = .ok (.softClip 0x8000) ∧
  decode (.stage 0x50 ⟨0, 0, 0, 0⟩) = .ok .lcgDraw ∧
  decode (.stage 0x51 ⟨0, 0, 0, 0⟩) = .ok .tpdfDither ∧
  decode (.stage 0x52 ⟨7, 0, 0, 0⟩) = .ok (.u8ToS16 7) ∧
  decode (.stage 0x53 ⟨7, 0, 0, 0⟩) = .ok (.s16Read 7) ∧
  decode (.stage 0x54 ⟨40000, 0, 0, 0⟩) = .ok (.volCurve 40000) ∧
  decode (.stage 0x55 ⟨32767, 32768, 0, 0⟩) = .ok (.volApply 32767 32768) ∧
  decode (.stage 0x60 ⟨1, 1000, 2, 0⟩) = .ok (.chain .right 1000 2) ∧
  decode (.stage 0x61 ⟨1, 0, 0, 0⟩) = .ok (.fill .second) ∧
  decode (.stage 0x62 ⟨0, 0, 0, 0⟩) = .ok .fadeTick ∧
  decode (.stage 0x63 ⟨0, 0, 0, 0⟩) = .ok .endSession ∧
  decode (.stage 0x64 ⟨0, 0, 0, 0⟩) = .ok (.silenceHalf .first)

/-- Decode and encode agree on every well-formed instruction, with every operand at every value. -/
def Obligations.DecodeEncodeAgree : Prop :=
  ∀ i : Instr, i.wf = true → decode (encode i) = .ok i

/-- What decodes is well formed, and encoding it gives the port and the code it came from: the same
command word, the same event bit, the same stage id. -/
def Obligations.DecodedWordsEncodeBack : Prop :=
  ∀ (w : PortWord) (i : Instr), decode w = .ok i →
    i.wf = true ∧
    match w with
    | .command c => encode i = .command c
    | .event h => encode i = .event h
    | .stage id _ => ∃ v, encode i = .stage id v

/-- R85: a port word that decodes is run as one step, in the state that has the word taken from the
inputs and, for a command, standing in `CMD`. The order of inputs is notes/assumptions/3.md. -/
def Obligations.StepRunsDecodedInstruction : Prop :=
  ∀ (s : State) (w : PortWord) (rest : List Input) (i : Instr),
    s.inbox = .port w :: rest → decode w = .ok i →
    step s = exec i (match w with
      | .command c => { s with inbox := rest, cmd := c }
      | .event _ => { s with inbox := rest }
      | .stage _ _ => { s with inbox := rest })

/-- An illegal command word sets STATUS to ILLEGAL_COMMAND (1) and changes nothing else (R94, R271), but
that it stands in `CMD` like any word written there (R85): that clause is the model's reading, DEDUCED
(notes/assumptions/4.md). -/
def Obligations.IllegalCommandOnlyReports : Prop :=
  ∀ (s : State) (w : Word) (rest : List Input), s.inbox = .port (.command w) :: rest →
    (w.toNat % 256 = 0 ∨ 16 ≤ w.toNat % 256 ∨ w.toNat / 256 ≠ 0) →
    step s = .next { s with inbox := rest, cmd := w, status := 1 }

/-- A HOST input writes what it names and nothing else; with no input the block waits. No duty of the HOST
is checked (R289): a store completes at every address, and one that changes a byte of the admitted
region in a session raises the flag that leaves the output open (R79, I14). The inputs and the flag are
the model's (notes/assumptions/3.md, 4.md, 9.md). -/
def Obligations.HostInputsWriteTheirTarget : Prop :=
  (∀ (s : State) (r : OperandReg) (v : Word) (rest : List Input), s.inbox = .operand r v :: rest →
    step s = .next (match r with
      | .a0 => { s with inbox := rest, a0 := v }
      | .a1 => { s with inbox := rest, a1 := v }
      | .a2 => { s with inbox := rest, a2 := v }
      | .a3 => { s with inbox := rest, a3 := v }
      | .a4 => { s with inbox := rest, a4 := v })) ∧
  (∀ (s : State) (a : Word) (b : Byte) (rest : List Input), s.inbox = .store a b :: rest →
    ∃ (m : Memory) (c : Bool),
      step s = .next { s with inbox := rest, mem := m, sourceChanged := c } ∧
      memRead m a.toNat = some b ∧
      (∀ x, x ≠ a.toNat → memRead m x = memRead s.mem x) ∧
      (Memory.wf s.mem = true → Memory.wf m = true) ∧
      (c = true ↔ s.sourceChanged = true ∨
        (s.playState = .playing ∨ s.playState = .pausing ∨ s.playState = .paused) ∧
          s.src.toNat ≤ a.toNat ∧ a.toNat < s.src.toNat + s.srcLen.toNat * (s.depth.toNat / 8) ∧
          memRead s.mem a.toNat ≠ some b)) ∧
  (∀ s : State, s.inbox = [] → step s = .next s)

/-! ### Power-on and invariants -/

/-- R47: the value of every field after power-on, for every choice of the OPEN parameters. -/
def Obligations.PowerOnRegisters : Prop :=
  ∀ p : Params, let s := State.powerOn p
    (s.cmd = 0 ∧ s.a0 = 0 ∧ s.a1 = 0 ∧ s.a2 = 0 ∧ s.a3 = 0 ∧ s.a4 = 0 ∧ s.r0 = 0 ∧ s.r1 = 0 ∧
      s.r2 = 0 ∧ s.r3 = 0 ∧ s.status = 0) ∧
    s.playState = .idle ∧
    (s.stopReq = false ∧ s.doneFired = false) ∧
    (s.src = 0 ∧ s.depth = 0 ∧ s.mode = 0 ∧ s.cur = 0 ∧ s.endOff = 0 ∧ s.pausePos = 0) ∧
    s.sampleRate = 0 ∧
    s.fadeSec = p.fadeSecReset ∧
    s.fadeSmp = ⟨0, 0, 0, 0⟩ ∧
    (s.fadeInRem = 0 ∧ s.fadeInTot = 0 ∧ s.fadeOutRem = 0 ∧ s.fadeOutTot = 0) ∧
    s.cfg = p.cfgReset ∧
    s.airGain = p.airGainReset ∧
    s.airPresetIdx = 0 ∧
    s.lcg = p.lcgReset ∧
    (s.chL = ⟨0, 0, 0, 0, 0, 0, 0, 0, 0⟩ ∧ s.chR = ⟨0, 0, 0, 0, 0, 0, 0, 0, 0⟩) ∧
    s.out = List.replicate p.bufLen 0

/-- Power-on with legal parameters, and the reset state among them, meets both invariants. The
parameters of the reset state are the model's choice (notes/assumptions/1.md, 2.md). -/
def Obligations.PowerOnMeetsInv : Prop :=
  (∀ p : Params, p.legal → StateInv (State.powerOn p) ∧ SessionInv (State.powerOn p)) ∧
  State.reset = State.powerOn Config.params ∧ StateInv State.reset ∧ SessionInv State.reset

/-- Every step keeps the invariant: R34's fade bounds, a legal configuration, gains and presets in range,
the buffer's length, the memory's canonical form, and no `Error` in STATE. -/
def Obligations.StepKeepsInv : Prop :=
  ∀ s t : State, StateInv s → step s = .next t → StateInv t

/-- Every step of a run keeps the session invariant: `END` within the admitted count, a legal source
description, a cursor at or past `2·STEP`, no notification yet, and while Paused the saved position equal
to the cursor. -/
def Obligations.StepKeepsSessionInv : Prop :=
  ∀ s t : State, StateInv s → SessionInv s → RunInput s → step s = .next t → SessionInv t

/-- The block never writes its source memory or its parameters: an instruction leaves them, and a step
changes memory only by a HOST store, which in a session leaves every byte of the admitted region unless it
raises the flag of a broken duty (R79, R289; notes/assumptions/9.md). Only PLAY takes the flag down. -/
def Obligations.OnlyHostStoresChangeSource : Prop :=
  (∀ (i : Instr) (s t : State), exec i s = .next t →
    t.mem = s.mem ∧ t.params = s.params ∧ t.inbox = s.inbox ∧
    (t.sourceChanged = s.sourceChanged ∨ i = .play ∧ t.sourceChanged = false)) ∧
  ∀ s t : State, step s = .next t → t.params = s.params ∧
    (t.mem = s.mem ∨ ∃ a b rest, s.inbox = .store a b :: rest ∧
      t.mem = memWrite s.mem a.toNat b) ∧
    (s.playState = .playing ∨ s.playState = .pausing ∨ s.playState = .paused →
      t.sourceChanged = false →
      ∀ x, s.src.toNat ≤ x → x < s.src.toNat + s.srcLen.toNat * (s.depth.toNat / 8) →
        memRead t.mem x = memRead s.mem x)

/-- R46: the single-writer table. Fill events write no configuration, no source description and no port
register, only clear STOP_REQ and only set DONE_FIRED; a command writes a stream field only where its row
names it. -/
def Obligations.SingleWriterTable : Prop :=
  ∀ (i : Instr) (s t : State), isRunInstr i = true → exec i s = .next t →
    ((i = .evFill0 ∨ i = .evFill1) →
      t.cfg = s.cfg ∧ t.airGain = s.airGain ∧ t.airPresetIdx = s.airPresetIdx ∧
      t.fadeSec = s.fadeSec ∧ t.fadeSmp = s.fadeSmp ∧
      t.src = s.src ∧ t.depth = s.depth ∧ t.mode = s.mode ∧ t.sampleRate = s.sampleRate ∧
      (t.stopReq = s.stopReq ∨ t.stopReq = false) ∧
      (t.doneFired = s.doneFired ∨ t.doneFired = true) ∧
      t.cmd = s.cmd ∧ t.a0 = s.a0 ∧ t.a1 = s.a1 ∧ t.a2 = s.a2 ∧ t.a3 = s.a3 ∧ t.a4 = s.a4 ∧
      t.r0 = s.r0 ∧ t.r1 = s.r1 ∧ t.r2 = s.r2 ∧ t.r3 = s.r3 ∧ t.status = s.status) ∧
    (i ≠ .evFill0 → i ≠ .evFill1 →
      (i ≠ .play →
        t.src = s.src ∧ t.depth = s.depth ∧ t.mode = s.mode ∧ t.sampleRate = s.sampleRate ∧
        t.doneFired = s.doneFired ∧ t.chL = s.chL ∧ t.chR = s.chR ∧ t.lcg = s.lcg ∧ t.out = s.out) ∧
      (i ≠ .play → i ≠ .stop → t.stopReq = s.stopReq) ∧
      (i = .stop → t.stopReq = true) ∧
      (i = .play → (t.stopReq = s.stopReq ∨ t.stopReq = false) ∧
        (t.doneFired = s.doneFired ∨ t.doneFired = false)) ∧
      (i ≠ .play → ¬(i = .resume ∧ s.playState = .paused) →
        t.cur = s.cur ∧ t.endOff = s.endOff ∧ t.pausePos = s.pausePos) ∧
      (i ≠ .play → ¬(i = .resume ∧ s.playState = .paused) → ¬(i = .pause ∧ s.playState = .playing) →
        t.fadeInRem = s.fadeInRem ∧ t.fadeInTot = s.fadeInTot ∧ t.fadeOutRem = s.fadeOutRem ∧
        t.fadeOutTot = s.fadeOutTot ∧ t.playState = s.playState))

/-- The transition table of R248 (which the spec marks as derived): every row, STATE unchanged for every
pair not listed, no way to `Error`, and no way out of `PlayingFailed` but PLAY. -/
def Obligations.StateTransitions : Prop :=
  ∀ (i : Instr) (s t : State), isRunInstr i = true → exec i s = .next t →
    let hb := s.params.bufLen / 4
    let c := if s.mode = 2 then 2 else 1
    (i = .play → PlayAccepted s →
      t.playState = if s.startAnswer = true then .playing else .playingFailed) ∧
    (i = .play → ¬PlayAccepted s → t.playState = s.playState ∧ t.r0 = 4) ∧
    (i = .pause → t.playState = if s.playState = .playing then .pausing else s.playState) ∧
    (i = .resume → t.playState = if s.playState = .paused then .playing else s.playState) ∧
    ((i = .evFill0 ∨ i = .evFill1) →
      t.playState = match s.playState with
        | .idle => .idle
        | .error => .error
        | .playingFailed => .playingFailed
        | .paused => if s.stopReq = true then .idle else .paused
        | .pausing =>
          if s.fadeOutRem.toNat ≤ hb then .paused
          else if s.endOff.toNat ≤ min (s.cur.toNat + hb * c) 4294967295 then .idle else .pausing
        | .playing =>
          let e := if s.stopReq = true then
              min s.endOff.toNat (min (s.cur.toNat + s.fadeSmp.playOut.toNat * c) 4294967295)
            else s.endOff.toNat
          if e ≤ min (s.cur.toNat + hb * c) 4294967295 then .idle else .playing) ∧
    (i ≠ .play → i ≠ .pause → i ≠ .resume → i ≠ .evFill0 → i ≠ .evFill1 →
      t.playState = s.playState) ∧
    (t.playState = .error → s.playState = .error) ∧
    (s.playState = .playingFailed → i ≠ .play → t.playState = .playingFailed)

/-- R87's last sentences: a command does not read an operand register that its row in R100 does not
name. Other values in those registers give the same next state, with those values in it. -/
def Obligations.UnnamedOperandsDoNotMatter : Prop :=
  (∀ (i : Instr) (s t : State) (b0 b1 b2 b3 b4 : Word),
    (i = .pause ∨ i = .resume ∨ i = .stop ∨ i = .getState ∨ i = .getSampleRate ∨ i = .getFilterConfig ∨
      i = .getAirGain ∨ i = .getAirPreset) → exec i s = .next t →
    exec i { s with a0 := b0, a1 := b1, a2 := b2, a3 := b3, a4 := b4 } =
      .next { t with a0 := b0, a1 := b1, a2 := b2, a3 := b3, a4 := b4 }) ∧
  (∀ (i : Instr) (s t : State) (b1 b2 b3 b4 : Word),
    (i = .getFadeTime ∨ i = .setAirGainDb ∨ i = .setAirGainQ16 ∨ i = .setAirPreset) →
    exec i s = .next t →
    exec i { s with a1 := b1, a2 := b2, a3 := b3, a4 := b4 } =
      .next { t with a1 := b1, a2 := b2, a3 := b3, a4 := b4 }) ∧
  (∀ (s t : State) (b2 b3 b4 : Word), exec .setFadeTime s = .next t →
    exec .setFadeTime { s with a2 := b2, a3 := b3, a4 := b4 } =
      .next { t with a2 := b2, a3 := b3, a4 := b4 }) ∧
  (∀ (s t : State) (b4 : Word), exec .setFilterConfig s = .next t →
    exec .setFilterConfig { s with a4 := b4 } = .next { t with a4 := b4 })

/-! ### Playback commands -/

/-- R231: PLAY's validation and its two faults, in the order of R275. The address the range fault carries
is left open here (notes/assumptions/11.md). -/
def Obligations.PlayValidationAndFaults : Prop :=
  ∀ s : State,
    (¬PlayAccepted s → exec .play s = .next { s with r0 := 4, status := 3 }) ∧
    (PlayAccepted s → s.a3 = 16 → s.a0.toNat % 2 = 1 →
      exec .play s = .fault (.misalignedSource s.a0)) ∧
    (PlayAccepted s → ¬(s.a3 = 16 ∧ s.a0.toNat % 2 = 1) →
      4294967296 < s.a0.toNat + s.a1.toNat * (s.a3.toNat / 8) →
      ∃ a, exec .play s = .fault (.sourceRange a))

/-- R232: what an accepted PLAY does, for every memory that holds the region. `s0` has the session
registers, `s1` the warm-up, `s2` and `s3` the two halves of the pre-fill; the transport's answer is
`s.startAnswer`. Three clauses are the model's choice: that the answer is the first of the list
`startAnswers` (notes/assumptions/7.md), that `sourceChanged`, a field of its own, is taken down
(notes/assumptions/9.md), and that the admitted count is kept in `srcLen` (notes/assumptions/10.md). -/
def Obligations.PlayBody : Prop :=
  ∀ s : State, PlayAccepted s → ¬(s.a3 = 16 ∧ s.a0.toNat % 2 = 1) →
    s.a0.toNat + s.a1.toNat * (s.a3.toNat / 8) ≤ 4294967296 →
    (∀ a : Nat, s.a0.toNat ≤ a → a < s.a0.toNat + s.a1.toNat * (s.a3.toNat / 8) →
      ∃ b, memRead s.mem a = some b) →
    (∀ b rest, s.startAnswers = b :: rest → s.startAnswer = b) ∧
    ∃ (smp : FadeTable) (s0 s1 s2 s3 : State),
      (∀ w, (fadeGet smp w).toNat = min ((fadeGet s.fadeSec w).toNat * s.a2.toNat / 65536) 2147483647) ∧
      s0 = { s with
        stopReq := false, doneFired := false, sourceChanged := false, src := s.a0, endOff := s.a1,
        srcLen := s.a1, cur := 0, pausePos := 0, depth := s.a3.setWidth 8, mode := s.a4.setWidth 8,
        chL := ⟨0, 0, 0, 0, 0, 0, 0, 0, 0⟩, chR := ⟨0, 0, 0, 0, 0, 0, 0, 0, 0⟩,
        sampleRate := s.a2,
        log := if s.a2 = s.sampleRate then s.log else s.log ++ [.transportInit],
        fadeSmp := smp, fadeInTot := smp.playIn, fadeInRem := smp.playIn, fadeOutRem := 0,
        fadeOutTot := 0 } ∧
      (if s.a3 = 16 ∧ s.a4.toNat ≤ s.a1.toNat then
        match s.alpha16 with
        | none => s1 = s0
        | some alpha => ∃ xl xr : S16,
            readElement s0 0 = .ok (xl, s0) ∧
            (if s.a4 = 2 then readElement s0 1 = .ok (xr, s0) else xr = xl) ∧
            s1 = { s0 with chL := biquadWarmup alpha s.cfg.makeup16 xl s0.chL,
                           chR := biquadWarmup alpha s.cfg.makeup16 xr s0.chR }
      else s1 = s0) ∧
      fill s1 .first = .ok s2 ∧ fill s2 .second = .ok s3 ∧
      exec .play s = .next
        (if s.startAnswer = true then
          { s3 with playState := .playing, r0 := 1, status := 0,
                    startAnswers := s.startAnswers.tail, startDraws := s.startDraws + 1,
                    log := s3.log ++ [.amp true, .transportStart s.params.bufLen true] }
        else
          { s3 with playState := .playingFailed, r0 := 5, status := 4,
                    startAnswers := s.startAnswers.tail, startDraws := s.startDraws + 1,
                    log := s3.log ++ [.amp true, .transportStart s.params.bufLen false, .amp false] })

/-- R233: PAUSE changes nothing outside `Playing`; in `Playing`, with the fade-in counter within its
total (R34), it starts the pause ramp at the level that keeps the fade continuous. -/
def Obligations.PauseStartsRamp : Prop :=
  ∀ s : State,
    (s.playState ≠ .playing → exec .pause s = .next { s with r0 := stateCode s.playState, status := 0 }) ∧
    (s.playState = .playing → s.fadeInRem.toNat ≤ s.fadeInTot.toNat →
      let c := if s.mode = 2 then 2 else 1
      let tp := s.fadeSmp.pauseOut.toNat
      let te := s.fadeSmp.playOut.toNat
      let rem := if s.cur.toNat < s.endOff.toNat then (s.endOff.toNat - s.cur.toNat) / c else 0
      ∃ r : Word,
        r.toNat = (if 0 < s.fadeInRem.toNat then
            (s.fadeInTot.toNat - s.fadeInRem.toNat) * tp / s.fadeInTot.toNat
          else if 0 < te ∧ rem ≤ te then rem * tp / te else tp) ∧
        exec .pause s = .next { s with fadeOutRem := r, fadeOutTot := s.fadeSmp.pauseOut, fadeInRem := 0,
                                       playState := .pausing, r0 := 2, status := 0 })

/-- R234: RESUME leaves `Paused` with the saved cursor and the resume fade-in, and changes nothing but
its report elsewhere. -/
def Obligations.ResumeRestores : Prop :=
  ∀ s : State,
    (s.playState ≠ .paused → exec .resume s = .next { s with r0 := stateCode s.playState, status := 0 }) ∧
    (s.playState = .paused → exec .resume s = .next
      { s with cur := s.pausePos, fadeOutRem := 0, fadeOutTot := 0, fadeInTot := s.fadeSmp.resumeIn,
               fadeInRem := s.fadeSmp.resumeIn, playState := .playing, r0 := 1, status := 0 })

/-- R235, R236, R237, with the state codes of R89: STOP sets the request only; the two getters write their
result only. -/
def Obligations.StopAndStateGetters : Prop :=
  ∀ s : State,
    let code : Word := match s.playState with
      | .idle => 0
      | .playing => 1
      | .pausing => 2
      | .paused => 3
      | .error => 4
      | .playingFailed => 5
    stateCode s.playState = code ∧
    exec .stop s = .next { s with r0 := code, stopReq := true, status := 0 } ∧
    exec .getState s = .next { s with r0 := code, status := 0 } ∧
    exec .getSampleRate s = .next { s with r0 := s.sampleRate, status := 0 }

/-! ### Configuration commands -/

/-- R238: SET_FILTER_CONFIG refuses reserved bits and reserved levels, and otherwise replaces the whole
configuration, with the makeup gains normalised by R37. The levels have the codes of R92. -/
def Obligations.SetFilterConfigReplaces : Prop :=
  ∀ s : State,
    let w := s.a0
    let refused := w.extractLsb' 6 2 ≠ 0 ∨ w.getLsbD 11 = true ∨ w.extractLsb' 15 17 ≠ 0 ∨
      w.extractLsb' 8 3 = 7 ∨ w.extractLsb' 12 3 = 7
    let norm (v d : Word) : Word := if v = 0 ∨ s.params.makeupMax.toNat < v.toNat then d else v
    (levelCode .verySoft = 0 ∧ levelCode .soft = 1 ∧ levelCode .medium = 2 ∧ levelCode .firm = 3 ∧
      levelCode .aggressive = 4 ∧ levelCode .custom = 5 ∧ levelCode .off = 6) ∧
    (refused → exec .setFilterConfig s = .next { s with status := 2 }) ∧
    (¬refused → ∃ l8 l16 : LpfLevel,
      levelCode l8 = (w.extractLsb' 8 3).toNat ∧ levelCode l16 = (w.extractLsb' 12 3).toNat ∧
      exec .setFilterConfig s = .next { s with
        status := 0
        cfg := {
          lpf16En := w.getLsbD 0, lpf8En := w.getLsbD 1, dcSoft := w.getLsbD 2, gateEn := w.getLsbD 3
          clipEn := w.getLsbD 4, airEn := w.getLsbD 5, lpf8Level := l8, lpf16Level := l16
          makeup8 := norm s.a1 s.params.makeupDefault8
          makeup16 := norm s.a2 s.params.makeupDefault16
          alpha8 := s.a3.extractLsb' 0 16, alpha16 := s.a3.extractLsb' 16 16 } })

/-- R239: the four words GET_FILTER_CONFIG returns. -/
def Obligations.GetFilterConfigWords : Prop :=
  ∀ s : State, let c := s.cfg
    exec .getFilterConfig s = .next { s with
      r0 := (BitVec.ofBool c.lpf16En).setWidth 32 ||| (BitVec.ofBool c.lpf8En).setWidth 32 <<< 1 |||
        (BitVec.ofBool c.dcSoft).setWidth 32 <<< 2 ||| (BitVec.ofBool c.gateEn).setWidth 32 <<< 3 |||
        (BitVec.ofBool c.clipEn).setWidth 32 <<< 4 ||| (BitVec.ofBool c.airEn).setWidth 32 <<< 5 |||
        BitVec.ofNat 32 (levelCode c.lpf8Level) <<< 8 ||| BitVec.ofNat 32 (levelCode c.lpf16Level) <<< 12
      r1 := c.makeup8
      r2 := c.makeup16
      r3 := c.alpha8.setWidth 32 ||| c.alpha16.setWidth 32 <<< 16
      status := 0 }

/-- The round trip of the configuration words (R107, which the spec marks as derived): words accepted by
SET_FILTER_CONFIG come back from GET_FILTER_CONFIG, with the makeups normalised; a change of `AIR_EN` in
between shows in bit 5 of word 0 only. -/
def Obligations.ConfigWordsRoundTrip : Prop :=
  ∀ (s t v u : State) (b : Bool), exec .setFilterConfig s = .next t → t.status = 0 →
    v.cfg = { t.cfg with airEn := b } → exec .getFilterConfig v = .next u →
    (b = t.cfg.airEn → u.r0 = s.a0) ∧
    (∀ k, k ≠ 5 → u.r0.getLsbD k = s.a0.getLsbD k) ∧ u.r0.getLsbD 5 = b ∧
    u.r1 = (if s.a1 = 0 ∨ s.params.makeupMax.toNat < s.a1.toNat then s.params.makeupDefault8 else s.a1) ∧
    u.r2 = (if s.a2 = 0 ∨ s.params.makeupMax.toNat < s.a2.toNat then s.params.makeupDefault16 else s.a2) ∧
    u.r3 = s.a3 ∧ u.status = 0

/-- R240, R241: the fade-time commands on the four windows of R101 and on an index above 3. -/
def Obligations.FadeTimeCommands : Prop :=
  ∀ s : State,
    (3 < s.a0.toNat → exec .setFadeTime s = .next { s with status := 2 } ∧
      exec .getFadeTime s = .next { s with status := 2 }) ∧
    (∃ n : Word, exec (.secToSamples s.a1 s.sampleRate) s = .next { s with stageOut := [(n.toNat : Int)] } ∧
      (s.a0 = 0 → exec .setFadeTime s = .next { s with
        fadeSec := { s.fadeSec with playIn := s.a1 }, fadeSmp := { s.fadeSmp with playIn := n }, status := 0 }) ∧
      (s.a0 = 1 → exec .setFadeTime s = .next { s with
        fadeSec := { s.fadeSec with playOut := s.a1 }, fadeSmp := { s.fadeSmp with playOut := n },
        status := 0 }) ∧
      (s.a0 = 2 → exec .setFadeTime s = .next { s with
        fadeSec := { s.fadeSec with pauseOut := s.a1 }, fadeSmp := { s.fadeSmp with pauseOut := n },
        status := 0 }) ∧
      (s.a0 = 3 → exec .setFadeTime s = .next { s with
        fadeSec := { s.fadeSec with resumeIn := s.a1 }, fadeSmp := { s.fadeSmp with resumeIn := n },
        status := 0 })) ∧
    (s.a0 = 0 → exec .getFadeTime s =
      .next { s with r0 := s.fadeSec.playIn, r1 := s.fadeSmp.playIn, status := 0 }) ∧
    (s.a0 = 1 → exec .getFadeTime s =
      .next { s with r0 := s.fadeSec.playOut, r1 := s.fadeSmp.playOut, status := 0 }) ∧
    (s.a0 = 2 → exec .getFadeTime s =
      .next { s with r0 := s.fadeSec.pauseOut, r1 := s.fadeSmp.pauseOut, status := 0 }) ∧
    (s.a0 = 3 → exec .getFadeTime s =
      .next { s with r0 := s.fadeSec.resumeIn, r1 := s.fadeSmp.resumeIn, status := 0 })

/-- R242, R243, R244: the air-gain commands, over the stages DB_TO_Q16 and Q16_TO_DB. -/
def Obligations.AirGainCommands : Prop :=
  ∀ s : State,
    (∃ g : Word, exec (.dbToQ16 s.a0) s = .next { s with stageOut := [(g.toNat : Int)] } ∧
      exec .setAirGainDb s = .next { s with airGain := g, status := 0 }) ∧
    (∃ g : Word, g.toNat = min s.a0.toNat 131072 ∧
      exec .setAirGainQ16 s = .next { s with airGain := g, status := 0 }) ∧
    (∃ v : Int, exec (.q16ToDb s.airGain) s = .next { s with stageOut := [v] } ∧
      exec .getAirGain s = .next { s with r0 := s.airGain, r1 := BitVec.ofInt 32 v, status := 0 })

/-- R245, R246: selecting a preset and reading it back, over the table AIR_PRESET_DB of any parameters
with at most 256 presets (notes/assumptions/17.md). -/
def Obligations.AirPresetCommands : Prop :=
  ∀ s : State, s.params.airPresetDb.length ≤ 256 →
    (s.params.airPresetDb.length ≤ s.a0.toNat → exec .setAirPreset s = .next { s with status := 2 }) ∧
    (s.a0 = 0 → 0 < s.params.airPresetDb.length → exec .setAirPreset s =
      .next { s with airPresetIdx := 0, cfg := { s.cfg with airEn := false }, status := 0 }) ∧
    (s.a0 ≠ 0 → ∀ db, s.params.airPresetDb[s.a0.toNat]? = some db →
      ∃ (g : Word) (n : BitVec 8), n.toNat = s.a0.toNat ∧
        exec (.dbToQ16 db) s = .next { s with stageOut := [(g.toNat : Int)] } ∧
        exec .setAirPreset s =
          .next { s with airPresetIdx := n, airGain := g, cfg := { s.cfg with airEn := true }, status := 0 }) ∧
    (∃ c : Word, c.toNat = s.params.airPresetDb.length ∧
      exec .getAirPreset s = .next { s with r0 := s.airPresetIdx.setWidth 32, r1 := c, status := 0 })

/-! ### Fill events and the chunk processor -/

/-- R201: SILENCE_HALF zeroes the slots of its half, logs the half, and does nothing else. Half 0 is the
first `2·HB` slots and half 1 the `2·HB` slots after them (R43, R96; 90_conflicts.md C6). -/
def Obligations.SilenceHalfZeroesSlots : Prop :=
  ∀ (s : State) (h : Half), s.out.length = s.params.bufLen → s.params.bufLen % 4 = 0 →
    let hb := s.params.bufLen / 4
    ∃ o, SilencedHalf s h o ∧ halfIndex .first = 0 ∧ halfIndex .second = 1 ∧
      (h = .first → (∀ i, i < 2 * hb → o[i]? = some 0) ∧ ∀ i, 2 * hb ≤ i → o[i]? = s.out[i]?) ∧
      (h = .second → (∀ i, 2 * hb ≤ i → i < 4 * hb → o[i]? = some 0) ∧
        ∀ i, i < 2 * hb → o[i]? = s.out[i]?) ∧
      exec (.silenceHalf h) s = .next { s with
        out := o, stageOut := [],
        log := s.log ++ [.half h (List.replicate (2 * hb) 0)] }

/-- R211: END_SESSION calls the transport's stop and the amplifier's off, clears the session and
notifies once. -/
def Obligations.EndSessionClears : Prop :=
  ∀ s : State, exec .endSession s = .next { s with
    cur := 0, endOff := 0, pausePos := 0, fadeInRem := 0, fadeOutRem := 0, fadeOutTot := 0,
    playState := .idle, stopReq := false, doneFired := true, stageOut := [],
    log := s.log ++ [.transportStop, .amp false] ++ (if s.doneFired then [] else [.notify]) }

/-- R212: in `Idle`, `Error` or `PlayingFailed` an event writes a silent half and does nothing else. -/
def Obligations.EventOutsideSession : Prop :=
  ∀ (s : State) (h : Half), s.out.length = s.params.bufLen → s.params.bufLen % 4 = 0 →
    (s.playState = .idle ∨ s.playState = .error ∨ s.playState = .playingFailed) →
    ∃ o, SilencedHalf s h o ∧
      exec (eventInstr h) s = .next { s with
        out := o
        log := s.log ++ [.half h (List.replicate (2 * (s.params.bufLen / 4)) 0)] }

/-- R207 to R211 around a pause: in `Pausing` with the counter at most one half, an event writes a silent
half, saves the cursor and enters `Paused` (R209); in `Paused` with no stop pending it writes a silent
half and changes nothing else (R210), and with a stop pending (R208) it then ends the session (R211). -/
def Obligations.EventsAroundPause : Prop :=
  ∀ (s : State) (h : Half), s.out.length = s.params.bufLen → s.params.bufLen % 4 = 0 →
    ∃ o, SilencedHalf s h o ∧
      let silent := { s with
        out := o
        log := s.log ++ [.half h (List.replicate (2 * (s.params.bufLen / 4)) 0)] }
      (s.playState = .pausing → s.fadeOutRem.toNat ≤ s.params.bufLen / 4 →
        exec (eventInstr h) s = .next { silent with pausePos := s.cur, playState := .paused }) ∧
      (s.playState = .paused → s.stopReq = false → exec (eventInstr h) s = .next silent) ∧
      (s.playState = .paused → s.stopReq = true →
        exec (eventInstr h) s = .next (SessionEnded silent))

/-- R207 and R208 where the event fills (`Playing`, or `Pausing` with the counter above one half): a stop
seen while `Playing` first shortens `END`; the half is filled; the session ends when the cursor has
reached `END`. It completes for every source the memory holds. -/
def Obligations.EventFillsHalf : Prop :=
  ∀ (s : State) (h : Half), Fillable s →
    (s.playState = .playing ∨ s.playState = .pausing ∧ s.params.bufLen / 4 < s.fadeOutRem.toNat) →
    ∃ (e : Word) (u : State),
      e.toNat = (if s.playState = .playing ∧ s.stopReq = true then
          min s.endOff.toNat (min (s.cur.toNat +
            s.fadeSmp.playOut.toNat * (if s.mode = 2 then 2 else 1)) 4294967295)
        else s.endOff.toNat) ∧
      fill { s with endOff := e, stopReq := if s.playState = .playing then false else s.stopReq } h =
        .ok u ∧
      exec (eventInstr h) s = .next (if u.endOff.toNat ≤ u.cur.toNat then SessionEnded u else u)

/-- R202: FILL reads the volume once, runs the loop body once for each frame of the half, advances the
cursor by `STEP` with saturation (R206), and logs the half. Two clauses are the model's choice: that the
volume is the first of the list `volAnswers` (notes/assumptions/6.md), and what a frame does once the
HOST has changed the source in the session: its slots are open, the channel records, the generator, the
counters and the silent frames as the rules say (notes/assumptions/9.md). -/
def Obligations.FillRunsFrames : Prop :=
  ∀ (s : State) (h : Half), Fillable s →
    (∀ v rest, s.volAnswers = v :: rest → s.volumeAnswer = v) ∧
    ∃ (f : Nat → State) (g : U16) (n : Word) (t : State),
      exec (.volCurve s.volumeAnswer) s = .next { s with stageOut := [(g.toNat : Int)] } ∧
      f 0 = { s with volAnswers := s.volAnswers.tail, volDraws := s.volDraws + 1,
                     log := s.log ++ [.volRead s.volumeAnswer] } ∧
      (∀ k, k < s.params.bufLen / 4 → FrameStep h g k (f k) (f (k + 1))) ∧
      n.toNat = min (s.cur.toNat + s.params.bufLen / 4 * (if s.mode = 2 then 2 else 1)) 4294967295 ∧
      t = { f (s.params.bufLen / 4) with
        cur := n
        log := (f (s.params.bufLen / 4)).log ++
          [.half h (((f (s.params.bufLen / 4)).out.drop (2 * halfIndex h * (s.params.bufLen / 4))).take
            (2 * (s.params.bufLen / 4)))] } ∧
      fill s h = .ok t ∧ exec (.fill h) s = .next { t with stageOut := [] }

/-- What FILL leaves (R203, R204, R206, R213): only the stream fields change; the slots outside the half
keep their values; the frames past `END` are silent; the fade counters move by the number `v` of valid
frames; a mono half leaves `CH[R]` and, with a source the HOST left alone (notes/assumptions/9.md), has
equal slots; 16-bit content draws no dither. -/
def Obligations.FillFrame : Prop :=
  ∀ (s t : State) (h : Half), s.out.length = s.params.bufLen → s.params.bufLen % 4 = 0 →
    fill s h = .ok t →
    let hb := s.params.bufLen / 4
    let c := if s.mode = 2 then 2 else 1
    let v := min hb ((s.endOff.toNat - s.cur.toNat) / c)
    t = { s with
      out := t.out, chL := t.chL, chR := t.chR, lcg := t.lcg, fadeInRem := t.fadeInRem,
      fadeOutRem := t.fadeOutRem, cur := t.cur, volAnswers := s.volAnswers.tail,
      volDraws := s.volDraws + 1,
      log := s.log ++ [.volRead s.volumeAnswer,
        .half h ((t.out.drop (2 * halfIndex h * hb)).take (2 * hb))] } ∧
    t.cur.toNat = min (s.cur.toNat + hb * c) 4294967295 ∧
    t.out.length = s.out.length ∧
    (∀ i, ¬(2 * halfIndex h * hb ≤ i ∧ i < 2 * halfIndex h * hb + 2 * hb) → t.out[i]? = s.out[i]?) ∧
    (∀ k, v ≤ k → k < hb → t.out[2 * (halfIndex h * hb + k)]? = some 0 ∧
      t.out[2 * (halfIndex h * hb + k) + 1]? = some 0) ∧
    t.fadeInRem.toNat = s.fadeInRem.toNat - v ∧
    t.fadeOutRem.toNat = (if s.playState = .pausing then s.fadeOutRem.toNat - v else s.fadeOutRem.toNat) ∧
    (c = 1 → t.chR = s.chR) ∧
    (c = 1 → s.sourceChanged = false → ∀ k, k < hb →
      t.out[2 * (halfIndex h * hb + k)]? = t.out[2 * (halfIndex h * hb + k) + 1]?) ∧
    (s.depth = 16 → t.lcg = s.lcg)

/-- The event count of an uninterrupted session (R215, which the spec marks as derived): from a state as
PLAY leaves it, with the cursor at `2·STEP`, the session ends at event number
`max(1, ceil(END / STEP) − 2)`, `Playing` until then, with exactly one notification. -/
def Obligations.NaturalEndEventCount : Prop :=
  ∀ (s : State) (hs : List (BitVec 1)), Fillable s → s.playState = .playing → s.stopReq = false →
    s.doneFired = false → 0 < s.stepElems → s.cur.toNat = 2 * s.stepElems → 1 ≤ s.endOff.toNat →
    s.inbox = hs.map (fun h => .port (.event h)) →
    hs.length = max 1 ((s.endOff.toNat + s.stepElems - 1) / s.stepElems - 2) →
    (∃ t : State, Host.Core.run Sys2Proof.core hs.length s = .next t ∧ t.playState = .idle ∧
      t.doneFired = true ∧ t.inbox = [] ∧ t.log.count .notify = s.log.count .notify + 1) ∧
    ∀ k, k < hs.length → ∃ t : State, Host.Core.run Sys2Proof.core k s = .next t ∧
      t.playState = .playing ∧ t.log.count .notify = s.log.count .notify

/-- When a pause completes (R298, which the spec marks as derived): with the counter at `r` and a source
that lasts, `Paused` is reached at event number `max(1, ceil(r / HB))`, at the cursor the events before
it left. -/
def Obligations.PauseCompletionEventCount : Prop :=
  ∀ (s : State) (hs : List (BitVec 1)), Fillable s → s.playState = .pausing → 0 < s.halfFrames →
    s.inbox = hs.map (fun h => .port (.event h)) →
    hs.length = max 1 ((s.fadeOutRem.toNat + s.halfFrames - 1) / s.halfFrames) →
    s.cur.toNat + (hs.length - 1) * s.stepElems < s.endOff.toNat →
    (∃ t : State, Host.Core.run Sys2Proof.core hs.length s = .next t ∧ t.playState = .paused ∧
      t.pausePos = t.cur ∧ t.cur.toNat = s.cur.toNat + (hs.length - 1) * s.stepElems) ∧
    ∀ k, k < hs.length → ∃ t : State, Host.Core.run Sys2Proof.core k s = .next t ∧
      t.playState = .pausing

/-- R200: CHAIN issues its stages in the fixed order, each on what the one before returned, and leaves
only `CH[c]` changed. The frame's index is at most `END`, as R203 has it. -/
def Obligations.ChainRunsStages : Prop :=
  ∀ (s : State) (c : Channel) (x : S16) (p : Word), p.toNat ≤ s.endOff.toNat →
    ∃ (s1 s2 s3 : State) (y1 y2 y3 y4 y5 y6 y7 : S16) (left : Word),
      (if s.depth = 16 then
        match s.alpha16 with
        | some a => exec (.biquadStep c x a s.cfg.makeup16) s = .next { s1 with stageOut := [y1.toInt] }
        | none => s1 = s ∧ y1 = x
      else
        match s.alpha8 with
        | some a => exec (.lpf1 c x a s.cfg.makeup8) s = .next { s1 with stageOut := [y1.toInt] }
        | none => s1 = s ∧ y1 = x) ∧
      exec (.dcBlock c y1) s1 = .next { s2 with stageOut := [y2.toInt] } ∧
      (if s.cfg.airEn = true then exec (.airShelf c y2 s.airGain) s2 = .next { s3 with stageOut := [y3.toInt] }
        else s3 = s2 ∧ y3 = y2) ∧
      exec (.fadeIn y3 s.fadeInRem s.fadeInTot) s3 = .next { s3 with stageOut := [y4.toInt] } ∧
      left.toNat = (s.endOff.toNat - p.toNat) / (if s.mode = 2 then 2 else 1) ∧
      (if s.playState = .pausing then
        exec (.fadeOutPause y4 s.fadeOutRem s.fadeOutTot) s3 = .next { s3 with stageOut := [y5.toInt] }
      else exec (.fadeOutEnd y4 left s.fadeSmp.playOut) s3 = .next { s3 with stageOut := [y5.toInt] }) ∧
      (if s.cfg.gateEn = true then exec (.noiseGate y5) s3 = .next { s3 with stageOut := [y6.toInt] }
        else y6 = y5) ∧
      (if s.cfg.clipEn = true then exec (.softClip y6) s3 = .next { s3 with stageOut := [y7.toInt] }
        else y7 = y6) ∧
      exec (.chain c x p) s = .next { s3 with stageOut := [y7.toInt] } ∧
      chainSample s c x p.toNat = y7 ∧
      { afterChain s c x p.toNat with stageOut := [] } = { s3 with stageOut := [] } ∧
      (∃ ch, { s3 with stageOut := s.stageOut } = s.setChan c ch)

/-- R44: the LPF selections. A path's alpha is there exactly when its enable is set and its level is not
`Off`; `Custom` gives the custom alpha, any other level the table's entry. -/
def Obligations.LpfSelections : Prop :=
  ∀ s : State,
    (s.cfg.lpf16En = false ∨ s.cfg.lpf16Level = .off → s.alpha16 = none) ∧
    (s.cfg.lpf8En = false ∨ s.cfg.lpf8Level = .off → s.alpha8 = none) ∧
    (s.cfg.lpf16En = true → s.cfg.lpf16Level ≠ .off → s.alpha16 = some (match s.cfg.lpf16Level with
      | .verySoft => s.params.lpf16Alpha.verySoft
      | .soft => s.params.lpf16Alpha.soft
      | .medium => s.params.lpf16Alpha.medium
      | .firm => s.params.lpf16Alpha.firm
      | .aggressive => s.params.lpf16Alpha.aggressive
      | .custom => s.cfg.alpha16
      | .off => 0)) ∧
    (s.cfg.lpf8En = true → s.cfg.lpf8Level ≠ .off → s.alpha8 = some (match s.cfg.lpf8Level with
      | .verySoft => s.params.lpf8Alpha.verySoft
      | .soft => s.params.lpf8Alpha.soft
      | .medium => s.params.lpf8Alpha.medium
      | .firm => s.params.lpf8Alpha.firm
      | .aggressive => s.params.lpf8Alpha.aggressive
      | .custom => s.cfg.alpha8
      | .off => 0)) ∧
    s.alphaDc = if s.cfg.dcSoft = true then 65208 else 64225

/-! ### Fixed-point primitives -/

/-- R111, R112, R118: the exact product shifted by floor, the saturation, and the frame count. -/
def Obligations.ExactPrimitives : Prop :=
  ∀ s : State,
    (∀ a b : Int, exec (.q16Mul a b) s = .next { s with stageOut := [a * b / 65536] }) ∧
    (∀ v : Int, exec (.clamp16 v) s = .next { s with stageOut := [min (max v (-32768)) 32767] }) ∧
    (∀ sec rate : Word, exec (.secToSamples sec rate) s =
      .next { s with stageOut := [((min (sec.toNat * rate.toNat / 65536) 2147483647 : Nat) : Int)] })

/-- R113 on a decimal constant (the operand's form is the model's, notes/assumptions/13.md): the nearest
integer to `r · 65536`, ties away from zero. -/
def Obligations.Q16FromRealRounds : Prop :=
  ∀ (s : State) (m : Int) (k : Nat),
    let r : ℚ := (m : ℚ) / (10 : ℚ) ^ k * 65536
    exec (.q16FromReal m k) s =
      .next { s with stageOut := [if 0 ≤ r then ⌊r + 1 / 2⌋ else -⌊-r + 1 / 2⌋] }

/-- R115: a zero rate gives 0, and any other rate the exponential over the reals, clamped to
`[0, 0.99998]`, scaled and rounded, for every cutoff. -/
def Obligations.AlphaFromCutoffRounds : Prop :=
  ∀ (s : State) (fc fs : Word),
    (fs = 0 → exec (.alphaFromCutoff fc fs) s = .next { s with stageOut := [0] }) ∧
    (fs ≠ 0 → exec (.alphaFromCutoff fc fs) s = .next { s with stageOut :=
      [⌊min (max (Real.exp (-(2 * Real.pi * fc.toNat / fs.toNat))) 0) 0.99998 * 65536 + 1 / 2⌋] })

/-- R116: the linear gain of a signed Q16 dB word, over the reals, rounded and then clamped. -/
def Obligations.DbToQ16Rounds : Prop :=
  ∀ (s : State) (d : Word),
    exec (.dbToQ16 d) s = .next { s with stageOut :=
      [min (max ⌊65536 * (10 : ℝ) ^ ((d.toInt : ℝ) / (65536 * 20)) + 1 / 2⌋ 0) 131072] }

/-- R117: the dB value of an unsigned Q16 gain, over the reals, rounded with ties away from zero. -/
def Obligations.Q16ToDbRounds : Prop :=
  ∀ (s : State) (g : Word),
    (g = 0 → exec (.q16ToDb g) s = .next { s with stageOut := [-2147483648] }) ∧
    (g ≠ 0 →
      let v : ℝ := 65536 * 20 * Real.logb 10 ((g.toNat : ℝ) / 65536)
      exec (.q16ToDb g) s = .next { s with stageOut :=
        [min (max (if 0 ≤ v then ⌊v + 1 / 2⌋ else -⌊-v + 1 / 2⌋) (-2147483648)) 2147483647] })

/-! ### Filters -/

/-- R130: the DC blocker, with the alpha of `CFG.DC_SOFT`; only `DC_XP` and `DC_YP` of its channel
change. -/
def Obligations.DcBlockStep : Prop :=
  ∀ (s : State) (c : Channel) (x : S16), ∃ y : S16,
    y.toInt = min (max (x.toInt - (s.chan c).dcXp.toInt +
      (s.chan c).dcYp.toInt * (if s.cfg.dcSoft = true then 65208 else 64225) / 65536) (-32768)) 32767 ∧
    exec (.dcBlock c x) s =
      .next ({ s with stageOut := [y.toInt] }.setChan c { (s.chan c) with dcXp := x, dcYp := y })

/-- R131: the one-pole low-pass; its history is the value before the makeup gain, exactly. -/
def Obligations.Lpf1Step : Prop :=
  ∀ (s : State) (c : Channel) (x : S16) (alpha : U16) (g : Word), ∃ yf y : S16,
    yf.toInt = (alpha.toNat * x.toInt + (65536 - alpha.toNat) * (s.chan c).lpYp.toInt) / 65536 ∧
    y.toInt = min (max (yf.toInt * g.toNat / 65536) (-32768)) 32767 ∧
    exec (.lpf1 c x alpha g) s =
      .next ({ s with stageOut := [y.toInt] }.setChan c { (s.chan c) with lpYp := yf })

/-- R133: the five biquad coefficients and their ranges. -/
def Obligations.BiquadCoefficients : Prop :=
  ∀ (s : State) (alpha : U16),
    let a : Int := alpha.toNat
    let b0 := (65536 - a) ^ 2 / 131072
    exec (.biquadCoef alpha) s = .next { s with stageOut := [b0, 2 * b0, b0, -2 * a, a ^ 2 / 65536] } ∧
    0 ≤ b0 ∧ b0 ≤ 32768 ∧ 0 ≤ 2 * b0 ∧ 2 * b0 ≤ 65536 ∧ -131070 ≤ -2 * a ∧ -2 * a ≤ 0 ∧
    0 ≤ a ^ 2 / 65536 ∧ a ^ 2 / 65536 ≤ 65534

/-- R134: the biquad on the coefficients of BIQUAD_COEF, with an exact accumulator below 2^34; the
history is clamped and before the makeup gain. -/
def Obligations.BiquadStepExact : Prop :=
  ∀ (s : State) (c : Channel) (x : S16) (alpha : U16) (g : Word),
    ∃ (b0 b1 b2 a1 a2 acc : Int) (yh y : S16),
      exec (.biquadCoef alpha) s = .next { s with stageOut := [b0, b1, b2, a1, a2] } ∧
      acc = b0 * x.toInt + b1 * (s.chan c).bqX1.toInt + b2 * (s.chan c).bqX2.toInt -
        a1 * (s.chan c).bqY1.toInt - a2 * (s.chan c).bqY2.toInt ∧
      |acc| < 2 ^ 34 ∧
      yh.toInt = min (max (acc / 65536) (-32768)) 32767 ∧
      y.toInt = min (max (yh.toInt * g.toNat / 65536) (-32768)) 32767 ∧
      exec (.biquadStep c x alpha g) s = .next ({ s with stageOut := [y.toInt] }.setChan c
        { (s.chan c) with bqX2 := (s.chan c).bqX1, bqX1 := x, bqY2 := (s.chan c).bqY1, bqY1 := yh })

/-- R136: the warm-up is sixteen passes of BIQUAD_STEP with the outputs discarded. It leaves both input
cells at the sample, changes only the four biquad cells of its channel, and leaves the same record for
every makeup gain. -/
def Obligations.BiquadWarmupPasses : Prop :=
  ∀ (s : State) (c : Channel) (x : S16) (alpha : U16) (g : Word),
    ∃ (f : Nat → State) (y1 y2 : S16),
      f 0 = s ∧ (∀ k, k < 16 → exec (.biquadStep c x alpha g) (f k) = .next (f (k + 1))) ∧
      exec (.biquadWarmup c x alpha g) s = .next { f 16 with stageOut := [] } ∧
      (∀ g' : Word, exec (.biquadWarmup c x alpha g') s = .next ({ s with stageOut := [] }.setChan c
        { (s.chan c) with bqX1 := x, bqX2 := x, bqY1 := y1, bqY2 := y2 }) ∧
        biquadWarmup alpha g' x (s.chan c) =
          { (s.chan c) with bqX1 := x, bqX2 := x, bqY1 := y1, bqY2 := y2 })

/-- R137: the air shelf, its three shifts applied separately, for every gain up to AIR_GAIN_MAX. -/
def Obligations.AirShelfStep : Prop :=
  ∀ (s : State) (c : Channel) (x : S16) (gain : Word), gain.toNat ≤ 131072 → ∃ y : S16,
    let high := x.toInt - (s.chan c).airXp.toInt
    let boost := high * (65536 - 49152) / 65536 * gain.toNat / 65536
    y.toInt = min (max (49152 * x.toInt / 65536 +
      (65536 - 49152) * (s.chan c).airYp.toInt / 65536 + boost) (-32768)) 32767 ∧
    exec (.airShelf c x gain) s =
      .next ({ s with stageOut := [y.toInt] }.setChan c { (s.chan c) with airXp := x, airYp := y })

/-! ### Post-filter -/

/-- R160, R161, R162: the three fades, under the operand conditions of their rules. -/
def Obligations.FadeStages : Prop :=
  ∀ (s : State) (x : S16) (r tot : Word),
    let ramp (mult : Nat) : Int := min (max ((x.toInt * mult).tdiv tot.toNat) (-32768)) 32767
    (r.toNat ≤ tot.toNat → exec (.fadeIn x r tot) s = .next { s with stageOut :=
      [if r = 0 then x.toInt else ramp ((tot.toNat - r.toNat) ^ 2 / tot.toNat)] }) ∧
    (r.toNat ≤ tot.toNat → exec (.fadeOutPause x r tot) s = .next { s with stageOut :=
      [if tot = 0 then 0 else ramp (r.toNat ^ 2 / tot.toNat)] }) ∧
    (exec (.fadeOutEnd x r tot) s = .next { s with stageOut :=
      [if tot = 0 ∨ tot.toNat < r.toNat then x.toInt else ramp (r.toNat ^ 2 / tot.toNat)] })

/-- The shape of the fades on a constant positive input (R163, which the spec marks as derived): as the
remaining count falls, the fade-in does not decrease and the fade-outs do not increase; the first
fade-in frame and the last frame of a fade-out window of two or more are 0. -/
def Obligations.FadeShape : Prop :=
  ∀ (s : State) (x : S16) (r r' tot : Word), 0 < x.toInt → r'.toNat ≤ r.toNat → r.toNat ≤ tot.toNat →
    (∃ y y' : Int, exec (.fadeIn x r tot) s = .next { s with stageOut := [y] } ∧
      exec (.fadeIn x r' tot) s = .next { s with stageOut := [y'] } ∧ y ≤ y') ∧
    (∃ y y' : Int, exec (.fadeOutPause x r tot) s = .next { s with stageOut := [y] } ∧
      exec (.fadeOutPause x r' tot) s = .next { s with stageOut := [y'] } ∧ y' ≤ y) ∧
    (∃ y y' : Int, exec (.fadeOutEnd x r tot) s = .next { s with stageOut := [y] } ∧
      exec (.fadeOutEnd x r' tot) s = .next { s with stageOut := [y'] } ∧ y' ≤ y) ∧
    (r ≠ 0 → r = tot → exec (.fadeIn x r tot) s = .next { s with stageOut := [0] }) ∧
    (r = 1 → 2 ≤ tot.toNat → exec (.fadeOutPause x r tot) s = .next { s with stageOut := [0] } ∧
      exec (.fadeOutEnd x r tot) s = .next { s with stageOut := [0] })

/-- R164: the fade tick, and that it is the tick FILL makes. -/
def Obligations.FadeTickCounters : Prop :=
  ∀ s : State, ∃ i o : Word,
    i.toNat = s.fadeInRem.toNat - 1 ∧
    o.toNat = (if s.playState = .pausing then s.fadeOutRem.toNat - 1 else s.fadeOutRem.toNat) ∧
    s.fadeTick = { s with fadeInRem := i, fadeOutRem := o } ∧
    exec .fadeTick s = .next { s with fadeInRem := i, fadeOutRem := o, stageOut := [] }

/-- R165: the soft noise gate. -/
def Obligations.NoiseGateAttenuates : Prop :=
  ∀ (s : State) (x : S16), exec (.noiseGate x) s = .next { s with stageOut :=
    [if |x.toInt| < 512 then x.toInt * 6554 / 65536 else x.toInt] }

/-- R166: the cubic soft clipper, in its fixed-point steps. -/
def Obligations.SoftClipCurve : Prop :=
  ∀ (s : State) (x : S16),
    let e := |x.toInt| - 28000
    let u := e * 65536 / 4767
    let u2 := u * u / 65536
    let u3 := u2 * u / 65536
    let m := if 4767 ≤ e then 32767 else 28000 + (3 * u2 - 2 * u3) * 4767 / 65536
    exec (.softClip x) s = .next { s with stageOut :=
      [if |x.toInt| ≤ 28000 then x.toInt else if 0 < x.toInt then m else -m] }

/-- The shape of the soft clipper (R166's corner cases, which the spec derives by evaluating the rule, and
R167): it maps into [−32767, 32767], is odd, never decreases, and neighbouring inputs differ by at most 2. -/
def Obligations.SoftClipShape : Prop :=
  ∀ (s : State) (x x' : S16) (y y' : Int),
    exec (.softClip x) s = .next { s with stageOut := [y] } →
    exec (.softClip x') s = .next { s with stageOut := [y'] } →
    (-32767 ≤ y ∧ y ≤ 32767) ∧
    (x'.toInt = -x.toInt → y' = -y) ∧
    (x.toInt ≤ x'.toInt → y ≤ y') ∧
    (x'.toInt = x.toInt + 1 → y' - y ≤ 2)

/-- The ranges the spec derives for the stages (R131, R167, R186): the one-pole history lies between the
input and the old history, and no fade, gate or volume raises a magnitude. Every post-filter stage takes
and returns an s16 (R167), on every operand: where R137, R160 and R161 state no result the value is free
and the rest of the effect stands (notes/assumptions/15.md, 30.md). -/
def Obligations.StagesNeverAmplify : Prop :=
  ∀ (s t : State) (x : S16),
    (∀ c alpha g, exec (.lpf1 c x alpha g) s = .next t →
      min x.toInt (s.chan c).lpYp.toInt ≤ (t.chan c).lpYp.toInt ∧
      (t.chan c).lpYp.toInt ≤ max x.toInt (s.chan c).lpYp.toInt) ∧
    (∀ (i : Instr) (r tot : Word) (g : U16) (y : Int),
      (i = .fadeIn x r tot ∧ r.toNat ≤ tot.toNat ∨ i = .fadeOutPause x r tot ∧ r.toNat ≤ tot.toNat ∨
        i = .fadeOutEnd x r tot ∨ i = .noiseGate x ∨ i = .volApply x g) →
      exec i s = .next { s with stageOut := [y] } → |y| ≤ |x.toInt|) ∧
    (∀ (i : Instr) (r tot : Word),
      (i = .fadeIn x r tot ∨ i = .fadeOutPause x r tot ∨ i = .fadeOutEnd x r tot ∨ i = .noiseGate x ∨
        i = .softClip x) →
      ∃ y : S16, exec i s = .next { s with stageOut := [y.toInt] }) ∧
    ∀ (c : Channel) (gain : Word), ∃ y : S16, exec (.airShelf c x gain) s =
      .next ({ s with stageOut := [y.toInt] }.setChan c { (s.chan c) with airXp := x, airYp := y })

/-! ### Dither, source reads, volume -/

/-- R180, R181: one draw of the generator, and the triangular dither of two successive draws, which lies
in [−512, 511]. -/
def Obligations.DitherDraws : Prop :=
  ∀ s : State, ∃ l1 l2 : Word,
    l1.toNat = (s.lcg.toNat * 1103515245 + 12345) % 2 ^ 32 ∧
    l2.toNat = (l1.toNat * 1103515245 + 12345) % 2 ^ 32 ∧
    let d1 := l1.toNat / 65536 % 32768
    let d2 := l2.toNat / 65536 % 32768
    exec .lcgDraw s = .next { s with lcg := l1, stageOut := [(d1 : Int)] } ∧
    exec .tpdfDither s = .next { s with lcg := l2, stageOut := [((d1 : Int) - d2) / 64] } ∧
    -512 ≤ ((d1 : Int) - d2) / 64 ∧ ((d1 : Int) - d2) / 64 ≤ 511

/-- R182: an 8-bit read converts its byte with one dither value, clamped, after exactly two draws; outside
the admitted region, or where the memory holds no byte, it raises SOURCE_RANGE (R69). That a stage issue
does so at every depth, not at depth 8 alone, is the model's choice (notes/assumptions/22.md). -/
def Obligations.U8ReadConverts : Prop :=
  ∀ (s : State) (p : Word),
    let a := s.src.toNat + p.toNat
    (∀ b : Byte, a < s.src.toNat + s.srcLen.toNat * (s.depth.toNat / 8) → memRead s.mem a = some b →
      ∃ (d : Int) (l : Word), exec .tpdfDither s = .next { s with lcg := l, stageOut := [d] } ∧
        exec (.u8ToS16 p) s = .next { s with lcg := l, stageOut :=
          [min (max (((b.toNat : Int) - 128) * 256 + d) (-32768)) 32767] }) ∧
    (s.src.toNat + s.srcLen.toNat * (s.depth.toNat / 8) ≤ a ∨ memRead s.mem a = none →
      exec (.u8ToS16 p) s = .fault (.sourceRange a))

/-- R183: a 16-bit read is little-endian and signed, and draws no dither; a byte outside the admitted
region, or not in the memory, raises SOURCE_RANGE (R69). That a stage issue does so at every depth, not
at depth 16 alone, is the model's choice (notes/assumptions/22.md). -/
def Obligations.S16ReadLittleEndian : Prop :=
  ∀ (s : State) (p : Word),
    let a := s.src.toNat + 2 * p.toNat
    let stop := s.src.toNat + s.srcLen.toNat * (s.depth.toNat / 8)
    (∀ lo hi : Byte, a + 1 < stop → memRead s.mem a = some lo → memRead s.mem (a + 1) = some hi →
      exec (.s16Read p) s = .next { s with stageOut := [(hi ++ lo : BitVec 16).toInt] }) ∧
    (stop ≤ a ∨ memRead s.mem a = none → exec (.s16Read p) s = .fault (.sourceRange a)) ∧
    (a < stop → memRead s.mem a ≠ none → stop ≤ a + 1 ∨ memRead s.mem (a + 1) = none →
      exec (.s16Read p) s = .fault (.sourceRange (a + 1)))

/-- R184: the element read is U8_TO_S16 at depth 8 and S16_READ at depth 16. -/
def Obligations.ReadSelectsByDepth : Prop :=
  ∀ (s t : State) (p : Word) (x : S16),
    (s.depth = 8 → readElement s p.toNat = .ok (x, t) →
      exec (.u8ToS16 p) s = .next { t with stageOut := [x.toInt] }) ∧
    (s.depth = 16 → readElement s p.toNat = .ok (x, t) →
      exec (.s16Read p) s = .next { t with stageOut := [x.toInt] } ∧ t = s) ∧
    (∀ f, s.depth = 8 → readElement s p.toNat = .error f → exec (.u8ToS16 p) s = .fault f) ∧
    (∀ f, s.depth = 16 → readElement s p.toNat = .error f → exec (.s16Read p) s = .fault f)

/-- R185, R186: the volume curve, the identity without gamma and the rounded real power with it; and the
scaling of a sample, which truncates toward zero and never raises a magnitude. -/
def Obligations.VolumeStages : Prop :=
  ∀ s : State,
    (∀ v : U16, s.params.gammaEn = false →
      exec (.volCurve v) s = .next { s with stageOut := [(v.toNat : Int)] }) ∧
    (∀ v : U16, s.params.gammaEn = true → 0 < s.params.gammaNum → 0 < s.params.gammaDen →
      let gamma : ℝ := (s.params.gammaNum : ℝ) / s.params.gammaDen
      exec (.volCurve v) s = .next { s with stageOut :=
        [⌊65535 * ((v.toNat : ℝ) / 65535) ^ (1 / gamma) + 1 / 2⌋] }) ∧
    (∀ (x : S16) (g : U16),
      exec (.volApply x g) s = .next { s with stageOut := [(x.toInt * g.toNat).tdiv 65535] } ∧
      (volApply x g).toInt = (x.toInt * g.toNat).tdiv 65535 ∧
      |(x.toInt * g.toNat).tdiv 65535| ≤ |x.toInt|)
end

