-- ==== Sys2Proof/Laws/Apart.lean ====
section
/-! SUPPORT. The comparison of `decayReaches` is never close: for u32 operands its two sides differ by at
least 2^64. The kernel checks it by the continued fraction of each of the 65535 thresholds
(`apart`), in functions written with the recursor, which it evaluates fastest. -/

namespace Sys2Proof.Machine

/-- Euclid's algorithm on `(x, y)`: at the first convergent whose denominator reaches 2^32, the remainder
is at least 2^64. -/
def apart : Nat → Nat → Nat → Nat → Nat → Bool :=
  Nat.rec (fun _ _ _ _ => false)
    (fun _ ih x y u v =>
      (fun k => (fun v' => cond (Nat.ble 4294967296 v') (Nat.ble 18446744073709551616 y)
         (ih y (Nat.mod x y) v v')) (Nat.add u (Nat.mul k v))) (Nat.div x y))

/-- Every multiple of `x` by less than 2^32 stays 2^64 away from the multiples of `y`: `s` and `t` are the
numbers of `x` and `y` taken, `u` and `v` their weights in the first number of the descent. -/
theorem apart_sound : ∀ (fuel x y u v : Nat), apart fuel x y u v = true → ∀ s t : Int,
    0 < u * s + v * t → u * s + v * t < 4294967296 → 18446744073709551616 ≤ |s * x - t * y|
  | 0, x, y, u, v, h, s, t, _, _ => by cases h
  | fuel+1, x, y, u, v, h, s, t, h0, h1 => by
    have hx : (x : Int) = y * (x / y : Nat) + (x % y : Nat) := by exact_mod_cast (Nat.div_add_mod x y).symm
    change cond (Nat.ble 4294967296 (u + x / y * v)) (Nat.ble 18446744073709551616 y)
      (apart fuel y (x % y) v (u + x / y * v)) = true at h
    generalize hk : x / y = k at *
    have hden : (u : Int) * s + v * t = v * (t - k * s) + ((u + k * v : Nat) : Int) * s := by
      push_cast; ring
    have hval : |s * x - t * y| = |(t - k * s) * y - s * (x % y : Nat)| := by
      rw [abs_sub_comm, hx]; congr 1; ring
    rw [hden] at h0 h1
    rw [hval]
    generalize t - k * s = a at *
    generalize u + k * v = w at *
    cases hw : Nat.ble 4294967296 w
    · rw [hw] at h
      exact apart_sound fuel y (x % y) v w h a s h0 h1
    · rw [hw] at h
      have hy : 18446744073709551616 ≤ y := Nat.le_of_ble_eq_true h
      have hr : x % y < y := Nat.mod_lt _ (by omega)
      have hw' : 4294967296 ≤ w := Nat.le_of_ble_eq_true hw
      generalize x % y = r at *
      have hwi : (4294967296 : Int) ≤ w := by exact_mod_cast hw'
      have hyi : (18446744073709551616 : Int) ≤ y := by exact_mod_cast hy
      have hri : (0 : Int) ≤ r := by positivity
      have hvi : (0 : Int) ≤ v := by positivity
      rcases lt_trichotomy s 0 with hs | hs | hs
      · have ha : 0 < a := by
          by_contra hn
          nlinarith [mul_nonneg hvi (by omega : 0 ≤ -a)]
        rw [abs_of_nonneg] <;> nlinarith [mul_nonneg hri (by omega : 0 ≤ -s)]
      · subst hs
        have ha : 0 < a := by
          by_contra hn
          nlinarith [mul_nonneg hvi (by omega : 0 ≤ -a)]
        rw [abs_of_nonneg] <;> nlinarith
      · have ha : a < 0 := by
          by_contra hn
          nlinarith [mul_nonneg hvi (by omega : 0 ≤ a)]
        rw [abs_of_nonpos] <;> nlinarith [mul_nonneg hri (by omega : 0 ≤ s)]

/-- `artanhTerms` with the recursor. -/
def termsRec (dd : Nat) : Nat → Nat → Nat → Nat :=
  Nat.rec (fun _ _ => 0)
    (fun _ ih i t => cond (Nat.beq t 0) 0
      (Nat.add (Nat.div t i) (ih (Nat.add i 2) (Nat.div t dd))))

/-- The two agree. -/
theorem termsRec_eq (dd : Nat) : ∀ fuel i t, termsRec dd fuel i t = artanhTerms dd fuel i t
  | 0, _, _ => rfl
  | fuel + 1, i, t => by
    change cond (Nat.beq t 0) 0 (t / i + termsRec dd fuel (i + 2) (t / dd)) = _
    rw [termsRec_eq dd fuel]
    cases t <;> rfl

/-- `lnStep` with the recursor. -/
def lnStepRec (d : Nat) : Nat :=
  termsRec (Nat.mul d d) 42 1 (Nat.div 680564733841876926926749214863536422912 d)

/-- The two agree. -/
theorem lnStepRec_eq (d : Nat) : lnStepRec d = lnStep d := termsRec_eq _ _ _ _

/-- The check at the threshold whose `lnFixed` is `L`. -/
def thresholdApart (L : Nat) : Bool := apart 60 (17 * ln2Fixed - L) (2 * piFixed) 1 0

/-- Every odd number whose binary form starts with that of `m` and has up to `depth` bits more. -/
def subtreeApart : Nat → Nat → Nat → Bool :=
  Nat.rec (fun _ _ => true)
    (fun _ ih m L =>
      (fun even =>
        (fun odd => cond (thresholdApart odd)
          (cond (ih (Nat.mul 2 m) even) (ih (Nat.add (Nat.mul 2 m) 1) odd) false) false)
          (Nat.add even (lnStepRec (Nat.add (Nat.mul 4 m) 1))))
        (Nat.add L ln2Fixed))

/-- More fuel than the bits of the number changes nothing. -/
theorem lnFixed_fuel : ∀ (f g m : Nat), m < 2 ^ f → f ≤ g → lnFixed g m = lnFixed f m
  | 0, g, m, h, _ => by
    have : m = 0 := by simpa using h
    subst this
    cases g <;> rfl
  | f + 1, g, m, h, hg => by
    obtain ⟨g, rfl⟩ : ∃ g', g = g' + 1 := ⟨g - 1, by omega⟩
    simp only [lnFixed]
    rw [lnFixed_fuel f g (m / 2) (by rw [pow_succ] at h; omega) (by omega)]

/-- The logarithm of an even number. -/
theorem lnFixed_even {m f : Nat} (hm : 0 < m) : lnFixed (f + 1) (2 * m) = lnFixed f m + ln2Fixed := by
  have h1 : ¬(2 * m ≤ 1) := by omega
  have h2 : 2 * m / 2 = m := by omega
  have h3 : ¬(2 * m % 2 = 1) := by omega
  simp only [lnFixed, h1, h2, h3, if_false, Nat.add_zero]

/-- The logarithm of an odd number. -/
theorem lnFixed_odd {m f : Nat} (hm : 0 < m) :
    lnFixed (f + 1) (2 * m + 1) = lnFixed f m + ln2Fixed + lnStep (4 * m + 1) := by
  have h1 : ¬(2 * m + 1 ≤ 1) := by omega
  have h2 : (2 * m + 1) / 2 = m := by omega
  have h3 : (2 * m + 1) % 2 = 1 := by omega
  have h4 : 2 * (2 * m + 1) - 1 = 4 * m + 1 := by omega
  simp only [lnFixed, h1, h2, h3, h4, if_false, if_true]

/-- What the check of a subtree says. -/
theorem subtreeApart_sound : ∀ (depth m f : Nat), 0 < m → subtreeApart depth m (lnFixed f m) = true →
    ∀ n j, n % 2 = 1 → 1 ≤ j → j ≤ depth → n / 2 ^ j = m → thresholdApart (lnFixed (f + j) n) = true
  | 0, m, f, _, _, n, j, _, hj, hd, _ => by omega
  | depth + 1, m, f, hm, h, n, j, hn, hj, hd, hnm => by
    change cond (thresholdApart (lnFixed f m + ln2Fixed + lnStepRec (4 * m + 1)))
      (cond (subtreeApart depth (2 * m) (lnFixed f m + ln2Fixed))
        (subtreeApart depth (2 * m + 1) (lnFixed f m + ln2Fixed + lnStepRec (4 * m + 1))) false) false = true at h
    rw [lnStepRec_eq, ← lnFixed_odd hm, ← lnFixed_even hm] at h
    simp only [Bool.cond_false_right, Bool.and_eq_true] at h
    obtain ⟨h1, h2, h3⟩ := h
    obtain ⟨j, rfl⟩ : ∃ j', j = j' + 1 := ⟨j - 1, by omega⟩
    rw [Nat.pow_succ, ← Nat.div_div_eq_div_mul] at hnm
    rcases Nat.eq_zero_or_pos j with rfl | hj0
    · have : n = 2 * m + 1 := by simp at hnm; omega
      subst this; exact h1
    · have hh : n / 2 ^ j = 2 * m ∨ n / 2 ^ j = 2 * m + 1 := by omega
      rw [show f + (j + 1) = f + 1 + j by omega]
      rcases hh with hh | hh
      · exact subtreeApart_sound depth _ (f + 1) (by omega) h2 n j hn hj0 (by omega) hh
      · exact subtreeApart_sound depth _ (f + 1) (by omega) h3 n j hn hj0 (by omega) hh

/-- The logarithms of the eight four-bit numbers. -/
theorem lnFixed_roots :
    lnFixed 4 8 = 707597289676539882413832428292463453143 ∧
    lnFixed 4 9 = 747676779832827335206988369320941648173 ∧
    lnFixed 4 10 = 783529105480883066805338482703447369827 ∧
    lnFixed 4 11 = 815961479056358957755126269716797453341 ∧
    lnFixed 4 12 = 845569916367440255879382470188779792849 ∧
    lnFixed 4 13 = 872807038389351994662195834082374467770 ∧
    lnFixed 4 14 = 898024674561531473179259942170763646632 ∧
    lnFixed 4 15 = 921501732171783440270888524599763709525 := by
  decide +kernel

/-- The thresholds at 3 to 15. -/
theorem subtreeApart_low : subtreeApart 3 1 0 = true := by decide +kernel

/-- The threshold at 1. -/
theorem thresholdApart_one : thresholdApart 0 = true := by decide +kernel

/-- The thresholds at the numbers whose binary form starts with that of 8. -/
theorem subtreeApart_8 : subtreeApart 13 8 707597289676539882413832428292463453143 = true := by
  decide +kernel

/-- The thresholds at the numbers whose binary form starts with that of 9. -/
theorem subtreeApart_9 : subtreeApart 13 9 747676779832827335206988369320941648173 = true := by
  decide +kernel

/-- The thresholds at the numbers whose binary form starts with that of 10. -/
theorem subtreeApart_10 : subtreeApart 13 10 783529105480883066805338482703447369827 = true := by
  decide +kernel

/-- The thresholds at the numbers whose binary form starts with that of 11. -/
theorem subtreeApart_11 : subtreeApart 13 11 815961479056358957755126269716797453341 = true := by
  decide +kernel

/-- The thresholds at the numbers whose binary form starts with that of 12. -/
theorem subtreeApart_12 : subtreeApart 13 12 845569916367440255879382470188779792849 = true := by
  decide +kernel

/-- The thresholds at the numbers whose binary form starts with that of 13. -/
theorem subtreeApart_13 : subtreeApart 13 13 872807038389351994662195834082374467770 = true := by
  decide +kernel

/-- The thresholds at the numbers whose binary form starts with that of 14. -/
theorem subtreeApart_14 : subtreeApart 13 14 898024674561531473179259942170763646632 = true := by
  decide +kernel

/-- The thresholds at the numbers whose binary form starts with that of 15. -/
theorem subtreeApart_15 : subtreeApart 13 15 921501732171783440270888524599763709525 = true := by
  decide +kernel

/-- Every threshold passes. -/
theorem thresholdApart_all (n : Nat) (hn : n % 2 = 1) (hb : n < 131072) :
    thresholdApart (lnFixed 17 n) = true := by
  have low : ∀ j, 1 ≤ j → j ≤ 3 → n / 2 ^ j = 1 → thresholdApart (lnFixed 17 n) = true := by
    intro j h1 h2 h
    have hl : n < 2 ^ (1 + j) := by
      rw [pow_add, pow_one]; exact (Nat.div_lt_iff_lt_mul (by positivity)).mp (by omega)
    rw [lnFixed_fuel (1 + j) 17 n hl (by omega)]
    exact subtreeApart_sound 3 1 1 (by decide) subtreeApart_low n j hn h1 h2 h
  have high : ∀ j, 1 ≤ j → j ≤ 13 → 8 ≤ n / 2 ^ j → n / 2 ^ j < 16 →
      thresholdApart (lnFixed 17 n) = true := by
    intro j h1 h2 h8 h16
    have hl : n < 2 ^ (4 + j) := by
      rw [pow_add]; exact (Nat.div_lt_iff_lt_mul (by positivity)).mp (by omega)
    rw [lnFixed_fuel (4 + j) 17 n hl (by omega)]
    obtain ⟨r8, r9, r10, r11, r12, r13, r14, r15⟩ := lnFixed_roots
    have root : ∀ m L, 8 ≤ m → lnFixed 4 m = L → subtreeApart 13 m L = true → n / 2 ^ j = m →
        thresholdApart (lnFixed (4 + j) n) = true := fun m L hm hL h e =>
      subtreeApart_sound 13 m 4 (by omega) (by rw [hL]; exact h) n j hn h1 h2 e
    have hc : n / 2 ^ j = 8 ∨ n / 2 ^ j = 9 ∨ n / 2 ^ j = 10 ∨ n / 2 ^ j = 11 ∨ n / 2 ^ j = 12 ∨
        n / 2 ^ j = 13 ∨ n / 2 ^ j = 14 ∨ n / 2 ^ j = 15 := by omega
    rcases hc with e | e | e | e | e | e | e | e
    · exact root 8 _ (by decide) r8 subtreeApart_8 e
    · exact root 9 _ (by decide) r9 subtreeApart_9 e
    · exact root 10 _ (by decide) r10 subtreeApart_10 e
    · exact root 11 _ (by decide) r11 subtreeApart_11 e
    · exact root 12 _ (by decide) r12 subtreeApart_12 e
    · exact root 13 _ (by decide) r13 subtreeApart_13 e
    · exact root 14 _ (by decide) r14 subtreeApart_14 e
    · exact root 15 _ (by decide) r15 subtreeApart_15 e
  rcases Nat.lt_or_ge n 2 with h | h
  · obtain rfl : n = 1 := by omega
    rw [lnFixed_fuel 1 17 1 (by decide) (by decide)]
    exact thresholdApart_one
  · have a := Nat.pow_log_le_self 2 (x := n) (by omega)
    have b := Nat.lt_pow_succ_log_self (b := 2) (by decide) n
    have c : Nat.log 2 n < 17 := Nat.log_lt_of_lt_pow (by omega) (by norm_num; omega)
    have d : 1 ≤ Nat.log 2 n := Nat.log_pos (by decide) h
    rcases Nat.lt_or_ge (Nat.log 2 n) 4 with hl | hl
    · refine low (Nat.log 2 n) d (by omega) ?_
      exact Nat.div_eq_of_lt_le (by omega) (by rw [Nat.succ_eq_add_one, pow_succ] at b; omega)
    · refine high (Nat.log 2 n - 3) (by omega) (by omega) ?_ ?_
      · rw [Nat.le_div_iff_mul_le (by positivity), show 8 = 2 ^ 3 by rfl, ← pow_add]
        rwa [show 3 + (Nat.log 2 n - 3) = Nat.log 2 n by omega]
      · rw [Nat.div_lt_iff_lt_mul (by positivity), show 16 = 2 ^ 4 by rfl, ← pow_add]
        rwa [show 4 + (Nat.log 2 n - 3) = Nat.log 2 n + 1 by omega]

/-- The two sides of the comparison, for all u32 operands, differ by at least 2^64. -/
theorem lnRatio_apart (m : Nat) (hm : m % 2 = 1) (hb : m < 131072) (p q : Int) (h0 : 0 < q)
    (h1 : q < 4294967296) :
    18446744073709551616 ≤ |q * (lnRatio m : Int) - p * (2 * piFixed : Nat)| :=
  apart_sound 60 _ _ 1 0 (thresholdApart_all m hm hb) q p (by simpa using h0) (by simpa using h1)

end Sys2Proof.Machine
end

