-- ==== Sys2Proof/Laws/Memory.lean ====
section
/-! SUPPORT. The laws of source memory: a read after a write, and the canonical form. -/

namespace Sys2Proof.Machine

/-- A read after a write to the same address gives the byte written. -/
@[simp] theorem memRead_memWrite_same (m : Memory) (x : Nat) (v : Byte) :
    memRead (memWrite m x v) x = some v := by
  induction m with
  | nil => simp [memWrite, memRead]
  | cons e rest ih =>
    obtain ⟨a, b⟩ := e
    simp only [memWrite]
    split
    · simp [memRead]
    · split
      · simp [memRead]
      · rename_i h1 h2
        have : a ≠ x := by omega
        simp [memRead, this, ih]

/-- A write leaves every other address alone. -/
theorem memRead_memWrite_ne (m : Memory) (x y : Nat) (v : Byte) (h : y ≠ x) :
    memRead (memWrite m x v) y = memRead m y := by
  induction m with
  | nil => simp [memWrite, memRead, Ne.symm h]
  | cons e rest ih =>
    obtain ⟨a, b⟩ := e
    simp only [memWrite]
    split
    · simp [memRead, Ne.symm h]
    · split
      · rename_i h2
        subst h2
        simp [memRead, Ne.symm h]
      · simp [memRead, ih]

/-- A write keeps the addresses rising from `lo`. -/
theorem memSorted_memWrite (m : Memory) (lo x : Nat) (v : Byte) (hm : memSorted lo m = true)
    (hlo : lo ≤ x) (hx : x < 4294967296) : memSorted lo (memWrite m x v) = true := by
  induction m generalizing lo with
  | nil => simp [memWrite, memSorted, hlo, hx]
  | cons e rest ih =>
    obtain ⟨a, b⟩ := e
    simp only [memSorted, Bool.and_eq_true, decide_eq_true_eq] at hm
    obtain ⟨⟨h1, h2⟩, h3⟩ := hm
    simp only [memWrite]
    split
    · rename_i hlt
      simp [memSorted, hlo, hx, h2, h3, hlt]
    · split
      · rename_i heq
        subst heq
        simp [memSorted, hlo, hx, h3]
      · rename_i hge hne
        have := ih (a + 1) h3 (by omega)
        simp [memSorted, h1, h2, this]

/-- The HOST's store keeps the canonical form. -/
theorem memWrite_wf (m : Memory) (a : Word) (v : Byte) (hm : Memory.wf m = true) :
    Memory.wf (memWrite m a.toNat v) = true :=
  memSorted_memWrite m 0 a.toNat v hm (Nat.zero_le _) a.isLt

/-- What the HOST's store does to the bytes: its target holds the byte, every other address and the
canonical form are as before, and the flag rises exactly when a byte of the source changes in a
session. -/
theorem hostStore_spec (s : State) (a : Word) (b : Byte) :
    memRead (hostStore s a b).mem a.toNat = some b ∧
    (∀ x, x ≠ a.toNat → memRead (hostStore s a b).mem x = memRead s.mem x) ∧
    (Memory.wf s.mem = true → Memory.wf (hostStore s a b).mem = true) ∧
    ((hostStore s a b).sourceChanged = true ↔ s.sourceChanged = true ∨
      (s.storeAllowed a.toNat = false ∧ memRead s.mem a.toNat ≠ some b)) :=
  ⟨memRead_memWrite_same _ _ _, fun x hx => memRead_memWrite_ne _ _ _ _ hx, memWrite_wf _ _ _, by
    simp [hostStore, State.storeChangesSource]⟩

/-- What a source read can answer: a byte of the memory inside the admitted region. -/
theorem sourceByte_ok {s : State} {a : Nat} {b : Byte} (h : sourceByte s a = .ok b) :
    s.src.toNat ≤ a ∧ a < s.src.toNat + s.regionBytes ∧ memRead s.mem a = some b := by
  simp only [sourceByte] at h
  split at h
  · rename_i hr
    split at h
    · rename_i b' hb
      cases h
      exact ⟨hr.1, hr.2, hb⟩
    · cases h
  · cases h

/-- A source read inside the region of a byte the memory holds completes. -/
theorem sourceByte_eq_ok {s : State} {a : Nat} {b : Byte} (h1 : s.src.toNat ≤ a)
    (h2 : a < s.src.toNat + s.regionBytes) (h3 : memRead s.mem a = some b) :
    sourceByte s a = .ok b := by
  simp [sourceByte, h1, h2, h3]

end Sys2Proof.Machine
end

