-- ==== Sys2Proof/Laws/Chunk.lean ====
section
/-! SUPPORT. What reading an element, filling a frame and filling a half can do, and when they complete. -/

namespace Sys2Proof.Machine

/-- A state without the fields a frame of FILL may write. -/
def State.still (s : State) : State :=
  { s with out := [], chL := ChannelState.zero, chR := ChannelState.zero, lcg := 0, fadeInRem := 0,
           fadeOutRem := 0 }

/-- Equal still parts: the state is the other one but for the fields a frame may write. -/
theorem eq_of_still {s t : State} (h : t.still = s.still) :
    t = { s with out := t.out, chL := t.chL, chR := t.chR, lcg := t.lcg, fadeInRem := t.fadeInRem,
                 fadeOutRem := t.fadeOutRem } := by
  cases s; cases t
  simp only [State.still, State.mk.injEq] at h ⊢
  simp_all

/-- A field outside the five is the same in states with equal still parts. -/
theorem still_field {α : Type} (f : State → α) (hf : ∀ u : State, f u.still = f u) {s t : State}
    (h : t.still = s.still) : f t = f s := by
  rw [← hf t, h, hf]

/-- A read of an element leaves everything but the generator. -/
theorem readElement_ok {s s1 : State} {p : Nat} {x : S16} (h : readElement s p = .ok (x, s1)) :
    s1 = { s with lcg := s1.lcg } ∧ (s.depth = 16 → s1 = s) := by
  simp only [readElement] at h
  split at h
  · split at h
    · cases h
    · cases h; exact ⟨rfl, fun _ => rfl⟩
  · rename_i hd
    simp only [u8ToS16] at h
    split at h
    · cases h
    · cases h; exact ⟨rfl, fun h16 => absurd h16 hd⟩

/-- So it leaves the still part. -/
theorem readElement_still {s s1 : State} {p : Nat} {x : S16} (h : readElement s p = .ok (x, s1)) :
    s1.still = s.still := by
  rw [(readElement_ok h).1]; rfl

/-- A read completes on an element of the admitted region. -/
theorem readElement_completes {s : State} {p : Nat} (hd : s.depth = 8 ∨ s.depth = 16)
    (hr : SourceReady s) (hp : p < s.srcLen.toNat) : ∃ x s1, readElement s p = .ok (x, s1) := by
  have byteOk : ∀ a : Nat, s.src.toNat ≤ a → a < s.src.toNat + s.regionBytes →
      ∃ b, sourceByte s a = .ok b := fun a h1 h2 => by
    obtain ⟨b, hb⟩ := hr a h1 h2
    exact ⟨b, sourceByte_eq_ok h1 h2 hb⟩
  rcases hd with hd | hd
  · have hn : s.regionBytes = s.srcLen.toNat := by simp [State.regionBytes, hd]
    obtain ⟨b, hb⟩ := byteOk (s.src.toNat + p) (by omega) (by omega)
    have h16 : ¬(s.depth = 16) := by rw [hd]; decide
    exact ⟨_, _, by simp only [readElement, h16, if_false, u8ToS16, hb]; rfl⟩
  · have hn : s.regionBytes = s.srcLen.toNat * 2 := by simp [State.regionBytes, hd]
    obtain ⟨b, hb⟩ := byteOk (s.src.toNat + 2 * p) (by omega) (by omega)
    obtain ⟨c, hc⟩ := byteOk (s.src.toNat + 2 * p + 1) (by omega) (by omega)
    exact ⟨_, _, by simp only [readElement, hd, if_true, s16Read, hb, hc]; rfl⟩

/-- While the HOST keeps its duty a slot takes the chain's sample. -/
theorem slotSample_unchanged {s : State} (h : s.sourceChanged = false) (i : Nat) (y : S16) :
    s.slotSample i y = y := by simp [State.slotSample, h]

/-- Writing a frame's slots leaves the still part. -/
theorem putFrame_still (s : State) (k : Nat) (l r : S16) : (s.putFrame k l r).still = s.still := by
  cases s; simp only [State.putFrame, State.still]

/-- The chain writes one channel record only. -/
theorem afterChain_still (s : State) (c : Channel) (x : S16) (p : Nat) :
    (afterChain s c x p).still = s.still := by cases c <;> rfl

/-- The chain leaves the output buffer, the generator and the fade counters. -/
theorem afterChain_rest (s : State) (c : Channel) (x : S16) (p : Nat) :
    (afterChain s c x p).out = s.out ∧ (afterChain s c x p).lcg = s.lcg ∧
    (afterChain s c x p).fadeInRem = s.fadeInRem ∧ (afterChain s c x p).fadeOutRem = s.fadeOutRem ∧
    (afterChain s c x p).playState = s.playState := by
  cases c <;> exact ⟨rfl, rfl, rfl, rfl, rfl⟩

/-- The left chain leaves the right record. -/
theorem afterChain_left_chR (s : State) (x : S16) (p : Nat) :
    (afterChain s .left x p).chR = s.chR := rfl

/-- The slots of a written frame. -/
theorem putFrame_getElem? (out : List S16) (k : Nat) (l r : S16) (i : Nat) :
    (putFrame out k l r)[i]? =
      if i = 2 * k then out[i]?.map (fun _ => l)
      else if i = 2 * k + 1 then out[i]?.map (fun _ => r) else out[i]? := by
  simp only [putFrame, List.getElem?_set, List.length_set]
  by_cases h1 : 2 * k + 1 = i
  · subst h1
    by_cases hl : 2 * k + 1 < out.length
    · simp [hl]
    · simp [hl]
  · by_cases h2 : 2 * k = i
    · subst h2
      by_cases hl : 2 * k < out.length
      · simp [hl]
      · simp [hl]
    · simp [h1, h2, Ne.symm h1, Ne.symm h2]

/-- Writing a frame keeps the number of slots. -/
@[simp] theorem length_putFrame (out : List S16) (k : Nat) (l r : S16) :
    (putFrame out k l r).length = out.length := by simp [putFrame]

/-- Writing silence keeps the number of slots. -/
@[simp] theorem length_silenceFrames (n k : Nat) (out : List S16) :
    (silenceFrames n k out).length = out.length := by
  induction n generalizing k out with
  | zero => rfl
  | succ n ih => simp [silenceFrames, ih]

/-- The slots after silence was written: 0 in its range, the rest as before. -/
theorem silenceFrames_getElem? (n k : Nat) (out : List S16) (i : Nat) (h : 2 * (k + n) ≤ out.length) :
    (silenceFrames n k out)[i]? = if 2 * k ≤ i ∧ i < 2 * (k + n) then some 0 else out[i]? := by
  induction n generalizing k out with
  | zero =>
    have : ¬(2 * k ≤ i ∧ i < 2 * (k + 0)) := by omega
    rw [if_neg this]; rfl
  | succ n ih =>
    rw [silenceFrames, ih (k + 1) _ (by simp; omega), putFrame_getElem?]
    by_cases h1 : i = 2 * k
    · have hl : i < out.length := by omega
      rw [if_neg (by omega), if_pos h1, if_pos (by omega)]
      simp [hl]
    · by_cases h2 : i = 2 * k + 1
      · have hl : i < out.length := by omega
        rw [if_neg (by omega), if_neg h1, if_pos h2, if_pos (by omega)]
        simp [hl]
      · rw [if_neg h1, if_neg h2]
        by_cases h3 : 2 * (k + 1) ≤ i ∧ i < 2 * (k + 1 + n)
        · rw [if_pos h3, if_pos (by omega)]
        · rw [if_neg h3, if_neg (by omega)]

/-- A tick of the fade counters leaves the still part. -/
theorem fadeTick_still (s : State) : s.fadeTick.still = s.still := rfl

/-- The value of a counter after a tick. -/
theorem toNat_pred (x : Word) : (if x = 0 then x else x - 1).toNat = x.toNat - 1 := by
  split
  · rename_i h; subst h; rfl
  · rename_i h
    have h0 : x.toNat ≠ 0 := fun h0 => h (BitVec.eq_of_toNat_eq (by simpa using h0))
    have := x.isLt
    rw [BitVec.toNat_sub, show (1 : Word).toNat = 1 from rfl]
    omega

/-- The fade-in counter after a tick (R164). -/
theorem toNat_fadeTick_fadeInRem (s : State) : s.fadeTick.fadeInRem.toNat = s.fadeInRem.toNat - 1 :=
  toNat_pred s.fadeInRem

/-- The fade-out counter after a tick (R164). -/
theorem toNat_fadeTick_fadeOutRem (s : State) :
    s.fadeTick.fadeOutRem.toNat =
      if s.playState = .pausing then s.fadeOutRem.toNat - 1 else s.fadeOutRem.toNat := by
  simp only [State.fadeTick]
  by_cases hp : s.playState = .pausing
  · rw [if_pos hp, ← toNat_pred]
    by_cases h0 : s.fadeOutRem = 0
    · simp [h0]
    · simp [hp]
  · simp [hp]

/-- What one frame of FILL can do. -/
structure FrameDone (h : Half) (f : Nat) (s t : State) : Prop where
  still : t.still = s.still
  length : t.out.length = s.out.length
  slots : ∀ i, i ≠ 2 * (halfIndex h * s.halfFrames + f) → i ≠ 2 * (halfIndex h * s.halfFrames + f) + 1 →
    t.out[i]? = s.out[i]?
  silent : s.endOff.toNat < s.cur.toNat + f * s.elems + s.elems →
    t = s.putFrame (halfIndex h * s.halfFrames + f) 0 0
  mono : s.elems = 1 → t.chR = s.chR ∧ (s.sourceChanged = false →
    ∃ y, t.out = putFrame s.out (halfIndex h * s.halfFrames + f) y y)
  lcg : s.depth = 16 → t.lcg = s.lcg
  fadeIn : s.cur.toNat + f * s.elems + s.elems ≤ s.endOff.toNat →
    t.fadeInRem.toNat = s.fadeInRem.toNat - 1
  fadeOut : s.cur.toNat + f * s.elems + s.elems ≤ s.endOff.toNat →
    t.fadeOutRem.toNat = if s.playState = .pausing then s.fadeOutRem.toNat - 1 else s.fadeOutRem.toNat

/-- Every frame FILL completes does that. -/
theorem fillFrame_ok {h : Half} {g : U16} {f : Nat} {s t : State} (ht : fillFrame h g f s = .ok t) :
    FrameDone h f s t := by
  simp only [fillFrame] at ht
  split at ht
  · rename_i hend
    cases ht
    exact {
      still := putFrame_still _ _ _ _
      length := by simp [State.putFrame]
      slots := fun i h1 h2 => by
        simp only [State.putFrame, putFrame_getElem?, if_neg h1, if_neg h2]
      silent := fun _ => rfl
      mono := fun _ => ⟨rfl, fun _ => ⟨0, rfl⟩⟩
      lcg := fun _ => rfl
      fadeIn := fun h' => by omega
      fadeOut := fun h' => by omega }
  · rename_i hend
    split at ht
    · simp only [fillMono] at ht
      split at ht
      · cases ht
      · rename_i x s1 hx
        cases ht
        obtain ⟨r1, r2⟩ := readElement_ok hx
        have hout : s1.out = s.out := by rw [r1]
        have hin : s1.fadeInRem = s.fadeInRem := by rw [r1]
        have hfo : s1.fadeOutRem = s.fadeOutRem := by rw [r1]
        have hps : s1.playState = s.playState := by rw [r1]
        have hchR : s1.chR = s.chR := by rw [r1]
        exact {
          still := by rw [fadeTick_still, putFrame_still, afterChain_still, readElement_still hx]
          length := by
            simp only [State.fadeTick, State.putFrame, length_putFrame, (afterChain_rest s1 _ _ _).1, hout]
          slots := fun i h1 h2 => by
            simp only [State.fadeTick, State.putFrame, putFrame_getElem?, if_neg h1, if_neg h2,
              (afterChain_rest s1 _ _ _).1, hout]
          silent := fun h' => absurd h' hend
          mono := fun _ => ⟨by
              simp only [State.fadeTick, State.putFrame, afterChain_left_chR, hchR],
            fun hc => ⟨_, by
              simp only [State.fadeTick, State.putFrame, (afterChain_rest s1 _ _ _).1, hout,
                slotSample_unchanged hc]; rfl⟩⟩
          lcg := fun h16 => by
            simp only [State.fadeTick, State.putFrame, (afterChain_rest s1 _ _ _).2.1]
            rw [r2 h16]
          fadeIn := fun _ => by
            rw [toNat_fadeTick_fadeInRem]
            simp only [State.putFrame, (afterChain_rest s1 _ _ _).2.2.1, hin]
          fadeOut := fun _ => by
            rw [toNat_fadeTick_fadeOutRem]
            simp only [State.putFrame, (afterChain_rest s1 _ _ _).2.2.2, hfo, hps] }
    · rename_i hmono
      simp only [fillStereo] at ht
      split at ht
      · cases ht
      · rename_i xl s1 hxl
        split at ht
        · cases ht
        · rename_i xr s2 hxr
          cases ht
          obtain ⟨r1, r2⟩ := readElement_ok hxl
          obtain ⟨q1, q2⟩ := readElement_ok hxr
          have hout : s2.out = s.out := by rw [q1, r1]
          have hin : s2.fadeInRem = s.fadeInRem := by rw [q1, r1]
          have hfo : s2.fadeOutRem = s.fadeOutRem := by rw [q1, r1]
          have hps : s2.playState = s.playState := by rw [q1, r1]
          exact {
            still := by
              rw [fadeTick_still, putFrame_still, afterChain_still, afterChain_still,
                readElement_still hxr, readElement_still hxl]
            length := by
              simp only [State.fadeTick, State.putFrame, length_putFrame, (afterChain_rest _ _ _ _).1, hout]
            slots := fun i h1 h2 => by
              simp only [State.fadeTick, State.putFrame, putFrame_getElem?, if_neg h1, if_neg h2,
                (afterChain_rest _ _ _ _).1, hout]
            silent := fun h' => absurd h' hend
            mono := fun h1 => absurd h1 hmono
            lcg := fun h16 => by
              simp only [State.fadeTick, State.putFrame, (afterChain_rest _ _ _ _).2.1]
              have e1 : s1 = s := r2 h16
              rw [q2 (by rw [e1]; exact h16), e1]
            fadeIn := fun _ => by
              rw [toNat_fadeTick_fadeInRem]
              simp only [State.putFrame, (afterChain_rest _ _ _ _).2.2.1, hin]
            fadeOut := fun _ => by
              rw [toNat_fadeTick_fadeOutRem]
              simp only [State.putFrame, (afterChain_rest _ _ _ _).2.2.2, hfo, hps] }

/-- What FILL needs depends on the still part only. -/
theorem Fillable.of_still {s t : State} (hf : Fillable s) (h : t.still = s.still) : Fillable t := by
  have h1 : t.depth = s.depth := still_field State.depth (fun _ => rfl) h
  have h2 : t.endOff = s.endOff := still_field State.endOff (fun _ => rfl) h
  have h3 : t.srcLen = s.srcLen := still_field State.srcLen (fun _ => rfl) h
  have h4 : t.src = s.src := still_field State.src (fun _ => rfl) h
  have h5 : t.mem = s.mem := still_field State.mem (fun _ => rfl) h
  refine ⟨by rw [h1]; exact hf.depth, by rw [h2, h3]; exact hf.endWithin, fun a ha hb => ?_⟩
  rw [h5]
  exact hf.ready a (by rwa [← h4]) (by simpa [State.regionBytes, h1, h3, h4] using hb)

/-- The elements of a frame. -/
theorem elems_cases (s : State) : s.elems = 1 ∨ s.elems = 2 := by
  simp only [State.elems]; split <;> simp

/-- A frame completes where FILL can read. -/
theorem fillFrame_completes {s : State} (hf : Fillable s) (h : Half) (g : U16) (f : Nat) :
    ∃ t, fillFrame h g f s = .ok t := by
  simp only [fillFrame]
  split
  · exact ⟨_, rfl⟩
  · rename_i hend
    have hlen := hf.endWithin
    rcases elems_cases s with he | he
    · obtain ⟨x, s1, hx⟩ := readElement_completes (p := s.cur.toNat + f * s.elems) hf.depth hf.ready (by omega)
      simp only [he, if_true, fillMono] at hx ⊢
      simp only [hx]
      exact ⟨_, rfl⟩
    · obtain ⟨xl, s1, hxl⟩ := readElement_completes (p := s.cur.toNat + f * s.elems) hf.depth hf.ready (by omega)
      have hs1 := readElement_still hxl
      have hlen1 : s1.srcLen = s.srcLen := still_field State.srcLen (fun _ => rfl) hs1
      have hf1 := hf.of_still hs1
      obtain ⟨xr, s2, hxr⟩ := readElement_completes (s := s1) (p := s.cur.toNat + f * s.elems + 1) hf1.depth
        hf1.ready (by rw [hlen1]; omega)
      rw [if_neg (by omega)]
      simp only [fillStereo, hxl, hxr]
      exact ⟨_, rfl⟩

/-- The valid frames among the frames `f .. f + n − 1` at cursor `cur` (R203): each is valid while its
elements end at `END` at the latest. -/
def validFrames (endOff cur c f : Nat) : Nat → Nat
  | 0 => 0
  | n + 1 => (if cur + f * c + c ≤ endOff then 1 else 0) + validFrames endOff cur c (f + 1) n

/-- With every frame inside the source, every frame is valid. -/
theorem validFrames_all (endOff cur c : Nat) :
    ∀ n f, cur + (f + n) * c ≤ endOff → validFrames endOff cur c f n = n
  | 0, _, _ => rfl
  | n + 1, f, h => by
    have e1 : (f + (n + 1)) * c = f * c + c + n * c := by ring
    have e2 : (f + 1 + n) * c = f * c + c + n * c := by ring
    have := Nat.zero_le (n * c)
    rw [validFrames, validFrames_all endOff cur c n (f + 1) (by rw [e2]; omega), if_pos (by omega)]
    omega

/-- What the frames `f .. f + n − 1` of a half can do. -/
structure FramesDone (h : Half) (n f : Nat) (s t : State) : Prop where
  still : t.still = s.still
  length : t.out.length = s.out.length
  slots : ∀ i, ¬(2 * (halfIndex h * s.halfFrames + f) ≤ i ∧ i < 2 * (halfIndex h * s.halfFrames + f + n)) →
    t.out[i]? = s.out[i]?
  silent : ∀ k, f ≤ k → k < f + n → s.endOff.toNat < s.cur.toNat + k * s.elems + s.elems →
    2 * (halfIndex h * s.halfFrames + f + n) ≤ s.out.length →
    t.out[2 * (halfIndex h * s.halfFrames + k)]? = some 0 ∧
    t.out[2 * (halfIndex h * s.halfFrames + k) + 1]? = some 0
  monoR : s.elems = 1 → t.chR = s.chR
  mono : s.elems = 1 → s.sourceChanged = false → ∀ k, f ≤ k → k < f + n →
    2 * (halfIndex h * s.halfFrames + f + n) ≤ s.out.length →
    t.out[2 * (halfIndex h * s.halfFrames + k)]? = t.out[2 * (halfIndex h * s.halfFrames + k) + 1]?
  lcg : s.depth = 16 → t.lcg = s.lcg
  fadeIn : t.fadeInRem.toNat =
    s.fadeInRem.toNat - validFrames s.endOff.toNat s.cur.toNat s.elems f n
  fadeOut : t.fadeOutRem.toNat =
    if s.playState = .pausing then
      s.fadeOutRem.toNat - validFrames s.endOff.toNat s.cur.toNat s.elems f n
    else s.fadeOutRem.toNat

/-- The frames of a half do that. -/
theorem fillFrames_ok {h : Half} {g : U16} :
    ∀ {n f : Nat} {s t : State}, fillFrames h g n f s = .ok t → FramesDone h n f s t
  | 0, f, s, t, ht => by
    simp only [fillFrames] at ht
    cases ht
    exact ⟨rfl, rfl, fun _ _ => rfl, fun k h1 h2 => by omega, fun _ => rfl, fun _ _ k h1 h2 => by omega,
      fun _ => rfl, rfl, by simp [validFrames]⟩
  | n + 1, f, s, t, ht => by
    simp only [fillFrames] at ht
    split at ht
    · cases ht
    · rename_i s1 h1
      have a := fillFrame_ok h1
      have b := fillFrames_ok ht
      have eHB : s1.halfFrames = s.halfFrames := still_field State.halfFrames (fun _ => rfl) a.still
      have eC : s1.elems = s.elems := still_field State.elems (fun _ => rfl) a.still
      have eEnd : s1.endOff = s.endOff := still_field State.endOff (fun _ => rfl) a.still
      have eCur : s1.cur = s.cur := still_field State.cur (fun _ => rfl) a.still
      have eD : s1.depth = s.depth := still_field State.depth (fun _ => rfl) a.still
      have eS : s1.sourceChanged = s.sourceChanged :=
        still_field State.sourceChanged (fun _ => rfl) a.still
      have eP : s1.playState = s.playState := still_field State.playState (fun _ => rfl) a.still
      have hn : n + 1 = 1 + n := Nat.add_comm _ _
      exact {
        still := b.still.trans a.still
        length := b.length.trans a.length
        slots := fun i hi => by
          rw [b.slots i (by rw [eHB]; omega)]
          exact a.slots i (by omega) (by omega)
        silent := fun k hk1 hk2 hk3 hl => by
          by_cases hkf : k = f
          · subst hkf
            have e := a.silent hk3
            rw [b.slots _ (by rw [eHB]; omega), b.slots _ (by rw [eHB]; omega), e]
            simp only [State.putFrame, putFrame_getElem?]
            have l1 : 2 * (halfIndex h * s.halfFrames + k) < s.out.length := by omega
            have l2 : 2 * (halfIndex h * s.halfFrames + k) + 1 < s.out.length := by omega
            simp [l1, l2]
          · have := b.silent k (by omega) (by omega) (by rw [eEnd, eCur, eC]; exact hk3)
              (by rw [eHB, a.length]; omega)
            rwa [eHB] at this
        monoR := fun h1' => (b.monoR (by rw [eC]; exact h1')).trans (a.mono h1').1
        mono := fun h1' hc k hk1 hk2 hl => by
          by_cases hkf : k = f
          · subst hkf
            obtain ⟨y, hy⟩ := (a.mono h1').2 hc
            rw [b.slots _ (by rw [eHB]; omega), b.slots _ (by rw [eHB]; omega), hy]
            simp only [putFrame_getElem?]
            have l1 : 2 * (halfIndex h * s.halfFrames + k) < s.out.length := by omega
            have l2 : 2 * (halfIndex h * s.halfFrames + k) + 1 < s.out.length := by omega
            simp [l1, l2]
          · have := b.mono (by rw [eC]; exact h1') (by rw [eS]; exact hc) k (by omega) (by omega) (by rw [eHB, a.length]; omega)
            rwa [eHB] at this
        lcg := fun h16 => (b.lcg (by rw [eD]; exact h16)).trans (a.lcg h16)
        fadeIn := by
          rw [b.fadeIn, eEnd, eCur, eC, validFrames]
          by_cases hv : s.cur.toNat + f * s.elems + s.elems ≤ s.endOff.toNat
          · rw [a.fadeIn hv, if_pos hv]; omega
          · rw [if_neg hv, a.silent (by omega)]
            simp [State.putFrame]
        fadeOut := by
          rw [b.fadeOut, eEnd, eCur, eC, eP, validFrames]
          by_cases hv : s.cur.toNat + f * s.elems + s.elems ≤ s.endOff.toNat
          · rw [a.fadeOut hv, if_pos hv]
            split <;> omega
          · rw [if_neg hv, a.silent (by omega)]
            simp [State.putFrame] }

/-- The frames of a half complete where FILL can read. -/
theorem fillFrames_completes (h : Half) (g : U16) :
    ∀ (n f : Nat) {s : State}, Fillable s → ∃ t, fillFrames h g n f s = .ok t
  | 0, _, s, _ => ⟨s, rfl⟩
  | n + 1, f, s, hf => by
    obtain ⟨s1, h1⟩ := fillFrame_completes hf h g f
    obtain ⟨t, ht⟩ := fillFrames_completes h g n (f + 1) (hf.of_still (fillFrame_ok h1).still)
    exact ⟨t, by simp only [fillFrames, h1, ht]⟩

/-- FILL is the frames of its half, the cursor's advance and the log entry. -/
theorem fill_ok {s t : State} {h : Half} (ht : fill s h = .ok t) :
    ∃ u, FramesDone h s.halfFrames 0 s.afterVolumeRead u ∧
      t = { u with cur := sat32 (s.cur.toNat + s.stepElems), log := u.log ++ [.half h (u.halfSlots h)] } := by
  simp only [fill] at ht
  split at ht
  · cases ht
  · rename_i u hu
    have hd := fillFrames_ok hu
    have e1 : u.cur = s.cur := (still_field State.cur (fun _ => rfl) hd.still).trans rfl
    have e2 : u.stepElems = s.stepElems :=
      (still_field State.stepElems (fun _ => rfl) hd.still).trans rfl
    cases ht
    refine ⟨u, hd, ?_⟩
    simp only [State.emitHalf, State.emit, State.advance, State.halfSlots, State.halfFrames, e1, e2]

/-- FILL completes where it can read its source. -/
theorem fill_completes {s : State} (hf : Fillable s) (h : Half) : ∃ t, fill s h = .ok t := by
  have hv : Fillable s.afterVolumeRead := ⟨hf.depth, hf.endWithin, hf.ready⟩
  obtain ⟨u, hu⟩ := fillFrames_completes h (volCurve s.params s.volumeAnswer) s.halfFrames 0 hv
  exact ⟨_, by simp only [fill, hu]; rfl⟩

end Sys2Proof.Machine
end

