-- ==== Sys2Proof/Laws/Logarithm.lean ====
section
/-! SUPPORT. The fixed-point logarithms and π of `decayReaches` against the reals: how far each is off. -/

namespace Sys2Proof.Machine

open Finset

/-- The terms, each the floor of the exact one. -/
theorem artanhTerms_eq (d N : Nat) : ∀ n k, artanhTerms (d * d) n (2 * k + 1) (N / d ^ (2 * k + 1)) =
    ∑ i ∈ range n, N / (d ^ (2 * (k + i) + 1) * (2 * (k + i) + 1))
  | 0, _ => by simp [artanhTerms]
  | n + 1, k => by
    have e : N / d ^ (2 * k + 1) / (d * d) = N / d ^ (2 * (k + 1) + 1) := by
      rw [Nat.div_div_eq_div_mul]; congr 1; ring
    have ih := artanhTerms_eq d N n (k + 1)
    rw [sum_range_succ', artanhTerms, e, show 2 * k + 1 + 2 = 2 * (k + 1) + 1 by ring, ih]
    split
    · rename_i h0
      have hz : ∀ j, k ≤ j → N / (d ^ (2 * j + 1) * (2 * j + 1)) = 0 := fun j hj => by
        rw [show 2 * j + 1 = 2 * k + 1 + 2 * (j - k) by omega, pow_add, mul_assoc,
          ← Nat.div_div_eq_div_mul, h0, Nat.zero_div]
      rw [hz _ (by omega), sum_eq_zero (fun i _ => hz _ (by omega))]
    · rw [Nat.div_div_eq_div_mul, Nat.add_comm]
      congr 1
      exact sum_congr rfl fun i _ => by rw [show k + 1 + i = k + (i + 1) by ring]

/-- `ln((d + 1) / (d − 1))` as twice the half-logarithm of the series. -/
theorem log_half_scale (d : Nat) (hd : 3 ≤ d) :
    Real.log (((d : ℝ) + 1) / (d - 1)) = 2 * (1 / 2 * Real.log ((1 + (d : ℝ)⁻¹) / (1 - (d : ℝ)⁻¹))) := by
  have h3 : (3 : ℝ) ≤ d := by exact_mod_cast hd
  have : (1 + (d : ℝ)⁻¹) / (1 - (d : ℝ)⁻¹) = ((d : ℝ) + 1) / (d - 1) := by
    have : (d : ℝ) ≠ 0 := by positivity
    have : (d : ℝ) - 1 ≠ 0 := by linarith
    field_simp
  rw [this]; ring

/-- Floors of `n` terms, summed, are within `n` of the sum. -/
theorem artanh_floor_sum (d N n : Nat) (hd : 0 < d) :
    ((∑ i ∈ range n, N / (d ^ (2 * i + 1) * (2 * i + 1)) : Nat) : ℝ) ≤
      N * ∑ i ∈ range n, (d : ℝ)⁻¹ ^ (2 * i + 1) / (2 * i + 1) ∧
    N * ∑ i ∈ range n, (d : ℝ)⁻¹ ^ (2 * i + 1) / (2 * i + 1) ≤
      ((∑ i ∈ range n, N / (d ^ (2 * i + 1) * (2 * i + 1)) : Nat) : ℝ) + n := by
  have tm : ∀ i : Nat, (N : ℝ) * ((d : ℝ)⁻¹ ^ (2 * i + 1) / (2 * i + 1)) =
      (N : ℝ) / ((d ^ (2 * i + 1) * (2 * i + 1) : Nat) : ℝ) := fun i => by
    push_cast; rw [inv_pow]; field_simp
  rw [mul_sum, Nat.cast_sum]
  constructor
  · exact sum_le_sum fun i _ => by rw [tm]; exact Nat.cast_div_le
  · have e : (n : ℝ) = ∑ i ∈ range n, (1 : ℝ) := by simp
    rw [e, ← sum_add_distrib]
    refine sum_le_sum fun i _ => ?_
    have hp : 0 < d ^ (2 * i + 1) * (2 * i + 1) := by positivity
    rw [tm]
    generalize d ^ (2 * i + 1) * (2 * i + 1) = q at *
    rw [div_le_iff₀ (by exact_mod_cast hp)]
    have h := (Nat.lt_div_mul_add (a := N) hp).le
    have : (N : ℝ) ≤ ((N / q * q + q : Nat) : ℝ) := by exact_mod_cast h
    rw [Nat.cast_add, Nat.cast_mul] at this
    linarith

/-- The sum `lnStep` computes. -/
theorem lnStep_sum (d : Nat) : lnStep d = ∑ i ∈ range 42, 2 ^ 129 / (d ^ (2 * i + 1) * (2 * i + 1)) := by
  have h := artanhTerms_eq d (2 ^ 129) 42 0
  simp only [Nat.mul_zero, Nat.zero_add, pow_one] at h
  rw [lnStep, h]

/-- What the series leaves out after 42 terms. -/
theorem artanh_tail_le (x : ℝ) (h0 : 0 ≤ x) (h3 : x ≤ 3⁻¹) :
    (2 : ℝ) ^ 129 * (x ^ (2 * 42 + 1) / (1 - x ^ 2)) ≤ 1 := by
  have h1 : x ^ (2 * 42 + 1) ≤ 3⁻¹ ^ (2 * 42 + 1) := pow_le_pow_left₀ h0 h3 _
  have h2 : (1 : ℝ) / 2 ≤ 1 - x ^ 2 := by nlinarith
  calc (2 : ℝ) ^ 129 * (x ^ (2 * 42 + 1) / (1 - x ^ 2))
      ≤ 2 ^ 129 * (3⁻¹ ^ (2 * 42 + 1) / (1 / 2)) := by
        refine mul_le_mul_of_nonneg_left ?_ (by positivity)
        exact div_le_div₀ (by positivity) h1 (by norm_num) h2
    _ ≤ 1 := by norm_num

/-- `lnStep` is at most 43 too small. -/
theorem lnStep_bounds (d : Nat) (hd : 3 ≤ d) :
    (lnStep d : ℝ) ≤ 2 ^ 128 * Real.log (((d : ℝ) + 1) / (d - 1)) ∧
    2 ^ 128 * Real.log (((d : ℝ) + 1) / (d - 1)) ≤ lnStep d + 43 := by
  have h3 : (3 : ℝ) ≤ d := by exact_mod_cast hd
  have hx0 : (0 : ℝ) ≤ (d : ℝ)⁻¹ := by positivity
  have hx3 : (d : ℝ)⁻¹ ≤ 3⁻¹ := inv_anti₀ (by norm_num) h3
  have hx1 : (d : ℝ)⁻¹ < 1 := lt_of_le_of_lt hx3 (by norm_num)
  have lo := Real.sum_range_le_log_div hx0 hx1 42
  have hi := Real.log_div_le_sum_range_add hx0 hx1 42
  have tail := artanh_tail_le _ hx0 hx3
  obtain ⟨s1, s2⟩ := artanh_floor_sum d (2 ^ 129) 42 (by omega)
  rw [log_half_scale d hd]
  rw [← lnStep_sum] at s1 s2
  generalize (d : ℝ)⁻¹ ^ (2 * 42 + 1) / (1 - (d : ℝ)⁻¹ ^ 2) = tl at *
  generalize ∑ i ∈ range 42, (d : ℝ)⁻¹ ^ (2 * i + 1) / (2 * (i : ℝ) + 1) = sm at *
  generalize 1 / 2 * Real.log ((1 + (d : ℝ)⁻¹) / (1 - (d : ℝ)⁻¹)) = lg at *
  generalize lnStep d = st at *
  push_cast at s1 s2
  constructor <;> linarith

/-- `ln 2 = ln((3 + 1) / (3 − 1))`. -/
theorem ln2Fixed_eq : ln2Fixed = lnStep 3 := by decide +kernel

/-- `ln2Fixed` is at most 43 too small. -/
theorem ln2Fixed_bounds : (ln2Fixed : ℝ) ≤ 2 ^ 128 * Real.log 2 ∧ 2 ^ 128 * Real.log 2 ≤ ln2Fixed + 43 := by
  have h := lnStep_bounds 3 le_rfl
  rw [← ln2Fixed_eq] at h
  norm_num at h ⊢
  exact h

/-- `lnFixed` is at most `86 · fuel` too small. -/
theorem lnFixed_bounds : ∀ (f m : Nat), 1 ≤ m → m < 2 ^ f →
    (lnFixed f m : ℝ) ≤ 2 ^ 128 * Real.log m ∧ 2 ^ 128 * Real.log m ≤ lnFixed f m + 86 * f
  | 0, m, h1, h2 => by simp at h2; omega
  | f + 1, m, h1, h2 => by
    rcases Nat.eq_or_lt_of_le h1 with rfl | h1
    · simp [lnFixed]; positivity
    · obtain ⟨lo, hi⟩ := lnFixed_bounds f (m / 2) (by omega) (by rw [pow_succ] at h2; omega)
      obtain ⟨l2, u2⟩ := ln2Fixed_bounds
      have hm : (1 : ℝ) ≤ (m / 2 : Nat) := by exact_mod_cast (by omega : 1 ≤ m / 2)
      have hlog : Real.log ((2 * (m / 2) : Nat) : ℝ) = Real.log 2 + Real.log (m / 2 : Nat) := by
        push_cast; exact Real.log_mul (by norm_num) (by positivity)
      simp only [lnFixed, show ¬(m ≤ 1) by omega, if_false]
      rcases Nat.mod_two_eq_zero_or_one m with he | ho
      · have e : 2 * (m / 2) = m := by omega
        rw [e] at hlog
        rw [hlog]
        simp only [he, show ¬((0 : Nat) = 1) by decide, if_false]
        push_cast
        constructor <;> linarith
      · obtain ⟨l3, u3⟩ := lnStep_bounds (2 * m - 1) (by omega)
        have e : 2 * (m / 2) = m - 1 := by omega
        have em : ((2 * m - 1 : Nat) : ℝ) = 2 * m - 1 := by
          rw [Nat.cast_sub (by omega)]; push_cast; ring
        have e1 : ((m - 1 : Nat) : ℝ) = m - 1 := by rw [Nat.cast_sub (by omega)]; push_cast; ring
        have hm2 : (2 : ℝ) ≤ m := by exact_mod_cast h1
        have hq : (((2 * m - 1 : Nat) : ℝ) + 1) / ((2 * m - 1 : Nat) - 1) = m / (m - 1) := by
          rw [em]
          have : (m : ℝ) - 1 ≠ 0 := by linarith
          have : 2 * (m : ℝ) - 1 - 1 ≠ 0 := by intro h; apply this; linarith
          rw [div_eq_div_iff (by assumption) (by assumption)]; ring
        rw [hq, Real.log_div (by linarith) (by linarith)] at l3 u3
        rw [e, e1] at hlog
        simp only [ho, if_true]
        push_cast
        constructor <;> linarith

/-- Partial sums of the arctangent series on either side of it. -/
theorem arctan_bounds (x : ℝ) (h0 : 0 ≤ x) (h1 : x < 1) (k : Nat) :
    (∑ i ∈ range (2 * k), (-1) ^ i * (x ^ (2 * i + 1) / ((2 * i + 1 : Nat) : ℝ))) ≤ Real.arctan x ∧
    Real.arctan x ≤ ∑ i ∈ range (2 * k + 1), (-1) ^ i * (x ^ (2 * i + 1) / ((2 * i + 1 : Nat) : ℝ)) := by
  have hs := (Real.hasSum_arctan (x := x) (by rw [Real.norm_eq_abs, abs_of_nonneg h0]; exact h1)).tendsto_sum_nat
  simp only [mul_div_assoc] at hs
  have ha : Antitone fun i : Nat => x ^ (2 * i + 1) / ((2 * i + 1 : Nat) : ℝ) := by
    refine antitone_nat_of_succ_le fun n => ?_
    refine div_le_div₀ (by positivity) (pow_le_pow_of_le_one h0 h1.le (by omega)) (by positivity) ?_
    exact_mod_cast (by omega)
  exact ⟨ha.alternating_series_le_tendsto hs k, ha.tendsto_le_alternating_series hs k⟩

/-- Machin's formula, scaled. -/
theorem machin_scaled :
    (16 * 2 ^ 128 * Real.arctan 5⁻¹ - 2 ^ 128 * 4 * Real.arctan 239⁻¹ : ℝ) = 2 ^ 128 * Real.pi := by
  have := Real.four_mul_arctan_inv_5_sub_arctan_inv_239
  linarith

/-- `piFixed` is the floor. -/
theorem piFixed_bounds : (piFixed : ℝ) ≤ 2 ^ 128 * Real.pi ∧ 2 ^ 128 * Real.pi ≤ piFixed + 1 := by
  obtain ⟨l5, u5⟩ := arctan_bounds 5⁻¹ (by norm_num) (by norm_num) 15
  obtain ⟨l9, u9⟩ := arctan_bounds 239⁻¹ (by norm_num) (by norm_num) 5
  rw [← machin_scaled]
  norm_num [sum_range_succ] at l5 u5 l9 u9
  norm_num [piFixed]
  constructor <;> linarith

end Sys2Proof.Machine
end

