-- ==== Sys2Proof/Laws/RealFns.lean ====
section
/-! SUPPORT. The comparison of products of powers is exact, whatever its bounds decide, and the search
over it finds the greatest number that passes. -/

namespace Sys2Proof.Machine

/-- The number a bound stands for. -/
def scaledValue (x : Scaled) : Nat := x.m * 2 ^ x.e

/-- The product of two bounds stands for the product. -/
theorem scaledMul_value (x y : Scaled) :
    scaledValue (scaledMul x y) = scaledValue x * scaledValue y := by
  simp only [scaledValue, scaledMul, pow_add]; ring

/-- Cutting down does not raise the value. -/
theorem truncDown_le (bits : Nat) (x : Scaled) : scaledValue (truncDown bits x) ≤ scaledValue x := by
  simp only [scaledValue, truncDown, Nat.shiftRight_eq_div_pow, pow_add]
  generalize x.m.log2 + 1 - bits = k
  calc x.m / 2 ^ k * (2 ^ x.e * 2 ^ k) = x.m / 2 ^ k * 2 ^ k * 2 ^ x.e := by ring
    _ ≤ x.m * 2 ^ x.e := Nat.mul_le_mul_right _ (Nat.div_mul_le_self _ _)

/-- Cutting up does not lower the value. -/
theorem le_truncUp (bits : Nat) (x : Scaled) : scaledValue x ≤ scaledValue (truncUp bits x) := by
  simp only [truncUp]
  split
  · exact le_rfl
  · simp only [scaledValue, Nat.shiftRight_eq_div_pow, pow_add]
    generalize x.m.log2 + 1 - bits = k
    have h : x.m ≤ (x.m / 2 ^ k + 1) * 2 ^ k :=
      le_of_lt (Nat.lt_mul_of_div_lt (Nat.lt_succ_self _) (by positivity))
    calc x.m * 2 ^ x.e ≤ (x.m / 2 ^ k + 1) * 2 ^ k * 2 ^ x.e := Nat.mul_le_mul_right _ h
      _ = (x.m / 2 ^ k + 1) * (2 ^ x.e * 2 ^ k) := by ring

/-- Splitting an exponent in half. -/
theorem pow_halves (b k : Nat) : b ^ k = b ^ (k / 2) * b ^ (k / 2) * b ^ (k % 2) := by
  rw [← pow_add, ← pow_add]; congr 1; omega

/-- A power cut down is a lower bound. -/
theorem powScaled_le {cut : Scaled → Scaled} (hc : ∀ x, scaledValue (cut x) ≤ scaledValue x) (b : Nat) :
    ∀ fuel k, k < 2 ^ fuel → scaledValue (powScaled cut b fuel k) ≤ b ^ k
  | 0, k, hk => by
    obtain rfl : k = 0 := by simpa using hk
    simp [powScaled, scaledValue]
  | fuel + 1, k, hk => by
    have ih := powScaled_le hc b fuel (k / 2) (by rw [pow_succ] at hk; omega)
    simp only [powScaled]
    split
    · rename_i h0; subst h0; simp [scaledValue]
    · have hs : scaledValue (cut (scaledMul (powScaled cut b fuel (k / 2)) (powScaled cut b fuel (k / 2))))
          ≤ b ^ (k / 2) * b ^ (k / 2) := by
        refine le_trans (hc _) ?_
        rw [scaledMul_value]
        exact Nat.mul_le_mul ih ih
      split
      · rename_i h2
        rw [pow_halves b k, h2, pow_zero, mul_one]
        exact hs
      · rename_i h2
        have h1 : k % 2 = 1 := by omega
        rw [pow_halves b k, h1, pow_one]
        refine le_trans (hc _) ?_
        rw [scaledMul_value]
        exact Nat.mul_le_mul hs (by simp [scaledValue])

/-- A power cut up is an upper bound. -/
theorem le_powScaled {cut : Scaled → Scaled} (hc : ∀ x, scaledValue x ≤ scaledValue (cut x)) (b : Nat) :
    ∀ fuel k, k < 2 ^ fuel → b ^ k ≤ scaledValue (powScaled cut b fuel k)
  | 0, k, hk => by
    obtain rfl : k = 0 := by simpa using hk
    simp [powScaled, scaledValue]
  | fuel + 1, k, hk => by
    have ih := le_powScaled hc b fuel (k / 2) (by rw [pow_succ] at hk; omega)
    simp only [powScaled]
    split
    · rename_i h0; subst h0; simp [scaledValue]
    · have hs : b ^ (k / 2) * b ^ (k / 2) ≤
          scaledValue (cut (scaledMul (powScaled cut b fuel (k / 2)) (powScaled cut b fuel (k / 2)))) := by
        refine le_trans ?_ (hc _)
        rw [scaledMul_value]
        exact Nat.mul_le_mul ih ih
      split
      · rename_i h2
        rw [pow_halves b k, h2, pow_zero, mul_one]
        exact hs
      · rename_i h2
        have h1 : k % 2 = 1 := by omega
        rw [pow_halves b k, h1, pow_one]
        refine le_trans ?_ (hc _)
        rw [scaledMul_value]
        exact Nat.mul_le_mul hs (by simp [scaledValue])

/-- The fuel of a power suffices. -/
theorem lt_two_pow_log2 (k : Nat) : k < 2 ^ (k.log2 + 1) := Nat.lt_log2_self

/-- A product cut down is a lower bound. -/
theorem productScaled_le {cut : Scaled → Scaled} (hc : ∀ x, scaledValue (cut x) ≤ scaledValue x) :
    ∀ l, scaledValue (productScaled cut l) ≤ powerProduct l
  | [] => by simp [productScaled, powerProduct, scaledValue]
  | (b, k) :: rest => by
    simp only [productScaled, powerProduct]
    refine le_trans (hc _) ?_
    rw [scaledMul_value]
    exact Nat.mul_le_mul (powScaled_le hc b _ k (lt_two_pow_log2 k)) (productScaled_le hc rest)

/-- A product cut up is an upper bound. -/
theorem le_productScaled {cut : Scaled → Scaled} (hc : ∀ x, scaledValue x ≤ scaledValue (cut x)) :
    ∀ l, powerProduct l ≤ scaledValue (productScaled cut l)
  | [] => by simp [productScaled, powerProduct, scaledValue]
  | (b, k) :: rest => by
    simp only [productScaled, powerProduct]
    refine le_trans ?_ (hc _)
    rw [scaledMul_value]
    exact Nat.mul_le_mul (le_powScaled hc b _ k (lt_two_pow_log2 k)) (le_productScaled hc rest)

/-- `scaledLe` compares the values. -/
theorem scaledLe_iff (x y : Scaled) : scaledLe x y = true ↔ scaledValue x ≤ scaledValue y := by
  simp only [scaledLe, scaledValue]
  split
  · rename_i h
    obtain ⟨d, hd⟩ := Nat.exists_eq_add_of_le h
    rw [hd, Nat.add_sub_cancel_left, decide_eq_true_eq, Nat.shiftRight_eq_div_pow,
      Nat.le_div_iff_mul_le (by positivity), pow_add, ← mul_assoc, mul_right_comm]
    exact (Nat.mul_le_mul_right_iff (by positivity)).symm
  · rename_i h
    obtain ⟨d, hd⟩ := Nat.exists_eq_add_of_lt (not_le.mp h)
    have hd' : y.e = x.e + (d + 1) := by omega
    have e1 : y.m * 2 ^ (x.e + (d + 1)) = y.m * 2 ^ (d + 1) * 2 ^ x.e := by rw [pow_add]; ring
    rw [hd', e1, Nat.mul_le_mul_right_iff (by positivity), Nat.add_sub_cancel_left, Bool.or_eq_true,
      decide_eq_true_eq, decide_eq_true_eq, Nat.shiftRight_eq_div_pow,
      Nat.div_lt_iff_lt_mul (by positivity)]
    omega

/-- A comparison the bounds decide is right. -/
theorem compareAt_sound {bits : Nat} {l r : List (Nat × Nat)} {b : Bool}
    (h : compareAt bits l r = some b) : b = true ↔ powerProduct l ≤ powerProduct r := by
  simp only [compareAt] at h
  split at h
  · rename_i h1
    cases h
    rw [scaledLe_iff] at h1
    simp only [true_iff]
    exact le_trans (le_productScaled (le_truncUp bits) l)
      (le_trans h1 (productScaled_le (truncDown_le bits) r))
  · split at h
    · cases h
    · rename_i h2
      cases h
      rw [scaledLe_iff, not_le] at h2
      simp only [Bool.false_eq_true, false_iff, not_le]
      exact lt_of_le_of_lt (le_productScaled (le_truncUp bits) r)
        (lt_of_lt_of_le h2 (productScaled_le (truncDown_le bits) l))

/-- The comparison is exact, for every argument. -/
theorem productLe_iff (l r : List (Nat × Nat)) :
    productLe l r = true ↔ powerProduct l ≤ powerProduct r := by
  simp only [productLe]
  split
  · rename_i b h; exact compareAt_sound h
  · split
    · rename_i b h; exact compareAt_sound h
    · rw [decide_eq_true_eq]

/-- The search stays within its range, and the number it answers passes unless it is the start. -/
theorem greatestUpTo_spec (p : Nat → Bool) :
    ∀ bits acc, acc ≤ greatestUpTo p bits acc ∧ greatestUpTo p bits acc < acc + 2 ^ bits ∧
      (greatestUpTo p bits acc = acc ∨ p (greatestUpTo p bits acc) = true)
  | 0, acc => by simp [greatestUpTo]
  | bits + 1, acc => by
    simp only [greatestUpTo]
    have e : 2 ^ (bits + 1) = 2 ^ bits + 2 ^ bits := by rw [pow_succ]; ring
    split
    · rename_i h
      obtain ⟨h1, h2, h3⟩ := greatestUpTo_spec p bits (acc + 2 ^ bits)
      refine ⟨by omega, by omega, Or.inr ?_⟩
      rcases h3 with h3 | h3
      · rw [h3]; exact h
      · exact h3
    · obtain ⟨h1, h2, h3⟩ := greatestUpTo_spec p bits acc
      exact ⟨h1, by omega, h3⟩

/-- For a property that, in the range above `acc`, once false stays false, no number of the range that
passes is above the answer. -/
theorem greatestUpTo_max (p : Nat → Bool) :
    ∀ bits acc, (∀ m n, acc < m → m ≤ n → n < acc + 2 ^ bits → p n = true → p m = true) →
      ∀ n, acc ≤ n → n < acc + 2 ^ bits → p n = true → n ≤ greatestUpTo p bits acc
  | 0, acc, _, n, h1, h2, _ => by simp only [greatestUpTo]; simp at h2; omega
  | bits + 1, acc, hp, n, h1, h2, h => by
    have e : 2 ^ (bits + 1) = 2 ^ bits + 2 ^ bits := by rw [pow_succ]; ring
    have pos : 0 < 2 ^ bits := by positivity
    simp only [greatestUpTo]
    split
    · by_cases hn : acc + 2 ^ bits ≤ n
      · exact greatestUpTo_max p bits (acc + 2 ^ bits)
          (fun m n a b c => hp m n (by omega) b (by omega)) n hn (by omega) h
      · have := (greatestUpTo_spec p bits (acc + 2 ^ bits)).1
        omega
    · rename_i hf
      have hn : n < acc + 2 ^ bits := by
        by_contra hge
        exact hf (hp _ n (by omega) (not_lt.mp hge) h2 h)
      exact greatestUpTo_max p bits acc (fun m n a b c => hp m n a b (by omega)) n h1 hn h

end Sys2Proof.Machine
end

