-- ==== Sys2Proof/Laws/Decay.lean ====
section
/-! SUPPORT. `decayReaches` compares exactly: it says what R14's exact exponential says, and
`roundDecay` finds the number up to which it holds. -/

namespace Sys2Proof.Machine

/-- `lnRatio` is within 2^13 of the scaled logarithm. -/
theorem lnRatio_bounds (m : Nat) (hm : m % 2 = 1) (hb : m < 131072) :
    |2 ^ 128 * Real.log (131072 / m) - lnRatio m| ≤ 8192 := by
  have hpos := lnRatio_apart m hm hb 0 1 (by norm_num) (by norm_num)
  have hsub : lnFixed 17 m ≤ 17 * ln2Fixed := by
    by_contra hn
    have : lnRatio m = 0 := by unfold lnRatio; omega
    rw [this] at hpos
    norm_num at hpos
  obtain ⟨l2, u2⟩ := ln2Fixed_bounds
  obtain ⟨lm, um⟩ := lnFixed_bounds 17 m (by omega) (by norm_num; omega)
  have e : ((lnRatio m : Nat) : ℝ) = 17 * ln2Fixed - lnFixed 17 m := by
    rw [lnRatio, Nat.cast_sub hsub]; push_cast; ring
  have h17 : Real.log 131072 = 17 * Real.log 2 := by
    rw [show (131072 : ℝ) = 2 ^ 17 by norm_num, Real.log_pow]; norm_num
  have hm0 : (m : ℝ) ≠ 0 := by
    have : m ≠ 0 := by omega
    exact_mod_cast this
  rw [Real.log_div (by norm_num) hm0, h17, e, abs_le]
  push_cast at um
  constructor <;> linarith

/-- The comparison is that of the exact products. -/
theorem decayReaches_log (fc fs n : Nat) (hn : 1 ≤ n) (hn' : n ≤ 65535) (hfc : fc < 4294967296)
    (hfs : 0 < fs) (hfs' : fs < 4294967296) :
    decayReaches fc fs n = true ↔
      fc * (2 * Real.pi) ≤ fs * Real.log (131072 / ((2 * n - 1 : Nat) : ℝ)) := by
  have hm : (2 * n - 1) % 2 = 1 := by omega
  have hb : 2 * n - 1 < 131072 := by omega
  simp only [decayReaches, decide_eq_true_eq]
  generalize 2 * n - 1 = m at *
  have ap := lnRatio_apart m hm hb fc fs (by exact_mod_cast hfs) (by exact_mod_cast hfs')
  have ab := lnRatio_bounds m hm hb
  obtain ⟨lp, up⟩ := piFixed_bounds
  have hc : (fc : ℝ) ≤ 4294967296 := by exact_mod_cast hfc.le
  have hc0 : (0 : ℝ) ≤ fc := by positivity
  have hs : (fs : ℝ) ≤ 4294967296 := by exact_mod_cast hfs'.le
  have hs0 : (0 : ℝ) < fs := by exact_mod_cast hfs
  have apR : (18446744073709551616 : ℝ) ≤ |(fs : ℝ) * lnRatio m - fc * (2 * piFixed)| := by
    have h := (Int.cast_le (R := ℝ)).mpr ap
    rw [Int.cast_abs] at h
    push_cast at h
    exact h
  have hZ : fc * (2 * piFixed) ≤ fs * lnRatio m ↔ (fc : ℝ) * (2 * piFixed) ≤ fs * lnRatio m := by
    exact_mod_cast Iff.rfl
  rw [hZ]
  generalize (lnRatio m : ℝ) = A at *
  generalize Real.log (131072 / (m : ℝ)) = G at *
  generalize (piFixed : ℝ) = P at *
  have h1 : |(fs : ℝ) * (2 ^ 128 * G - A)| ≤ 4294967296 * 8192 := by
    rw [abs_mul, abs_of_pos hs0]; gcongr
  have h2 : |(fc : ℝ) * (2 * (2 ^ 128 * Real.pi - P))| ≤ 4294967296 * 2 := by
    rw [abs_mul, abs_of_nonneg hc0]
    have : |2 * (2 ^ 128 * Real.pi - P)| ≤ 2 := by rw [abs_le]; constructor <;> linarith
    gcongr
  rw [abs_le] at h1 h2
  have hG : (fs : ℝ) * (2 ^ 128 * G) - fc * (2 * (2 ^ 128 * Real.pi)) =
      2 ^ 128 * (fs * G - fc * (2 * Real.pi)) := by ring
  rcases le_abs.mp apR with hp | hp
  · constructor
    · intro _; nlinarith
    · intro _; linarith
  · constructor
    · intro h; linarith
    · intro h; nlinarith

/-- The comparison says whether the exact value of R115, scaled by 65536, reaches the half below `n`. -/
theorem decayReaches_iff (fc fs n : Nat) (hn : 1 ≤ n) (hn' : n ≤ 65535) (hfc : fc < 4294967296)
    (hfs : 0 < fs) (hfs' : fs < 4294967296) :
    decayReaches fc fs n = true ↔ (n : ℝ) - 1 / 2 ≤ 65536 * Real.exp (-(2 * Real.pi * fc / fs)) := by
  rw [decayReaches_log fc fs n hn hn' hfc hfs hfs']
  have hs0 : (0 : ℝ) < fs := by exact_mod_cast hfs
  have hm : ((2 * n - 1 : Nat) : ℝ) = 2 * n - 1 := by rw [Nat.cast_sub (by omega)]; push_cast; ring
  have hn1 : (1 : ℝ) ≤ n := by exact_mod_cast hn
  have hpos : (0 : ℝ) < 2 * n - 1 := by linarith
  rw [hm, mul_comm (fs : ℝ), ← div_le_iff₀ hs0, Real.le_log_iff_exp_le (by positivity), le_div_iff₀ hpos,
    Real.exp_neg, show 2 * Real.pi * fc / fs = fc * (2 * Real.pi) / fs by ring]
  have he := Real.exp_pos (fc * (2 * Real.pi) / fs)
  rw [← div_eq_mul_inv, le_div_iff₀ he]
  constructor <;> intro h <;> linarith

/-- `roundDecay` is at most 65535, and a number up to there is at most `roundDecay` exactly when the
exact value reaches the half below it. -/
theorem roundDecay_spec (fc fs : Nat) (hfc : fc < 4294967296) (hfs : 0 < fs) (hfs' : fs < 4294967296) :
    roundDecay fc fs ≤ 65535 ∧ ∀ n, 1 ≤ n → n ≤ 65535 →
      (n ≤ roundDecay fc fs ↔ (n : ℝ) - 1 / 2 ≤ 65536 * Real.exp (-(2 * Real.pi * fc / fs))) := by
  have key := fun n h1 h2 => decayReaches_iff fc fs n h1 h2 hfc hfs hfs'
  obtain ⟨_, s2, s3⟩ := greatestUpTo_spec (decayReaches fc fs) 16 0
  change roundDecay fc fs < 0 + 2 ^ 16 at s2
  change roundDecay fc fs = 0 ∨ decayReaches fc fs (roundDecay fc fs) = true at s3
  norm_num at s2
  refine ⟨by omega, fun n h1 h2 => ?_⟩
  have anti : ∀ m k, 0 < m → m ≤ k → k < 0 + 2 ^ 16 → decayReaches fc fs k = true →
      decayReaches fc fs m = true := fun m k a b c h => by
    norm_num at c
    rw [key m a (by omega)]
    refine le_trans ?_ ((key k (by omega) (by omega)).mp h)
    have : (m : ℝ) ≤ k := by exact_mod_cast b
    linarith
  constructor
  · intro h
    rcases s3 with s3 | s3
    · omega
    · exact (key n h1 h2).mp (anti n _ h1 h (by norm_num; omega) s3)
  · intro h
    exact greatestUpTo_max _ 16 0 anti n (Nat.zero_le _) (by norm_num; omega) ((key n h1 h2).mpr h)

end Sys2Proof.Machine
end

