-- ==== Sys2Proof/Laws/Events.lean ====
section
/-! SUPPORT. What silence, the end of a session and the frames of FILL are, in closed form. -/

namespace Sys2Proof.Machine

/-- The slots SILENCE_HALF writes. -/
theorem silence_silenced (s : State) (h : Half) (hl : s.out.length = s.params.bufLen)
    (h4 : s.params.bufLen % 4 = 0) :
    SilencedHalf s h (silenceFrames s.halfFrames (halfIndex h * s.halfFrames) s.out) := by
  have hb : halfIndex h ≤ 1 := by cases h <;> decide
  have hhb : 4 * s.halfFrames = s.out.length := by simp only [State.halfFrames]; omega
  have hle : 2 * (halfIndex h * s.halfFrames + s.halfFrames) ≤ s.out.length := by
    cases h <;> simp [halfIndex] <;> omega
  have e : 2 * halfIndex h * s.halfFrames = 2 * (halfIndex h * s.halfFrames) := by ring
  refine ⟨by simp, ?_, ?_⟩ <;> intro i hi <;> rw [silenceFrames_getElem? _ _ _ _ hle]
  · intro hi2; rw [if_pos (by omega)]
  · rw [if_neg (by omega)]

/-- SILENCE_HALF in closed form, on a buffer of `BUF_LEN` slots. -/
theorem silence_eq (s : State) (h : Half) (hl : s.out.length = s.params.bufLen)
    (h4 : s.params.bufLen % 4 = 0) :
    s.silenceHalf h = { s with
      out := silenceFrames s.halfFrames (halfIndex h * s.halfFrames) s.out
      log := s.log ++ [.half h (List.replicate (2 * (s.params.bufLen / 4)) 0)] } := by
  have hs := silence_silenced s h hl h4
  have hb : halfIndex h ≤ 1 := by cases h <;> decide
  have hhb : 4 * s.halfFrames = s.out.length := by simp only [State.halfFrames]; omega
  have hle : 2 * halfIndex h * s.halfFrames + 2*s.halfFrames ≤ s.out.length := by
    cases h <;> simp [halfIndex] <;> omega
  generalize ho : silenceFrames s.halfFrames (halfIndex h * s.halfFrames) s.out = o at *
  simp only [State.silenceHalf, State.emitHalf, State.emit, ho]
  congr 3
  simp only [State.halfSlots, State.halfFrames]
  congr 1
  apply List.ext_getElem?
  intro i
  rw [List.getElem?_take, List.getElem?_drop, List.getElem?_replicate]
  simp only [State.halfFrames] at *
  split
  · rename_i hi
    exact hs.inside _ (by simp only [State.halfFrames]; omega) (by simp only [State.halfFrames]; omega)
  · rfl

/-- END_SESSION in closed form. -/
theorem endSession_eq (s : State) : s.endSession = SessionEnded s := by
  simp only [State.endSession, State.notifyOnce, State.clearSession, State.emit, SessionEnded]
  by_cases h : s.doneFired = true <;> simp [h]

/-- A completed frame is one pass of R202's loop. -/
theorem frameStep_of_fillFrame {h : Half} {g : U16} {f : Nat} {s t : State}
    (ht : fillFrame h g f s = .ok t) : FrameStep h g f s t := by
  simp only [fillFrame] at ht
  unfold FrameStep
  show if s.endOff.toNat < s.cur.toNat + f * s.elems + s.elems then _ else if s.elems = 1 then _ else _
  split at ht
  · rename_i hend
    rw [if_pos hend]; cases ht; rfl
  · rename_i hend
    rw [if_neg hend]
    split at ht
    · rename_i h1
      rw [if_pos h1]
      simp only [fillMono] at ht
      split at ht
      · cases ht
      · rename_i x s1 hx; cases ht
        exact ⟨x, _, _, s1, hx, fun hc => ⟨slotSample_unchanged hc _ _, slotSample_unchanged hc _ _⟩, rfl⟩
    · rename_i h1
      rw [if_neg h1]
      simp only [fillStereo] at ht
      split at ht
      · cases ht
      · rename_i x s1 hx
        split at ht
        · cases ht
        · rename_i xr s2 hxr
          cases ht
          exact ⟨x, xr, _, _, s1, s2, hx, hxr,
            fun hc => ⟨slotSample_unchanged hc _ _, slotSample_unchanged hc _ _⟩, rfl⟩

/-- The frames of a half are passes of R202's loop, one after another. -/
theorem frames_seq {h : Half} {g : U16} : ∀ {n f : Nat} {s t : State},
    fillFrames h g n f s = .ok t → ∃ F : Nat → State, F f = s ∧ F (f + n) = t ∧
      ∀ k, f ≤ k → k < f + n → FrameStep h g k (F k) (F (k+1))
  | 0, f, s, t, ht => by cases ht; exact ⟨fun _ => s, rfl, rfl, fun k h1 h2 => by omega⟩
  | n + 1, f, s, t, ht => by
    simp only [fillFrames] at ht
    split at ht
    · cases ht
    · rename_i s1 h1
      obtain ⟨F, a, b, c⟩ := frames_seq ht
      refine ⟨fun k => if k = f then s else F k, by simp, ?_, ?_⟩
      · have : f + (n + 1) ≠ f := by omega
        simp only [this, if_false]; rw [← b]; congr 1; omega
      · intro k hk1 hk2
        by_cases hk : k = f
        · subst hk; simp [a]; exact frameStep_of_fillFrame h1
        · have : k + 1 ≠ f := by omega
          simp only [hk, this, if_false]; exact c k (by omega) (by omega)

/-- FILL in closed form: only the stream fields, the cursor, the volume draw and the log differ, no slot
is added, and no fade counter rises. -/
theorem fill_form {s t : State} {h : Half} (ht : fill s h = .ok t) :
    t = { s with
      out := t.out, chL := t.chL, chR := t.chR, lcg := t.lcg, fadeInRem := t.fadeInRem,
      fadeOutRem := t.fadeOutRem, cur := sat32 (s.cur.toNat + s.stepElems), volAnswers := s.volAnswers.tail,
      volDraws := s.volDraws + 1, log := t.log } ∧ t.out.length = s.out.length ∧
      t.fadeInRem.toNat ≤ s.fadeInRem.toNat ∧ t.fadeOutRem.toNat ≤ s.fadeOutRem.toNat := by
  obtain ⟨u, hd, rfl⟩ := fill_ok ht
  refine ⟨?_, hd.length, ?_, ?_⟩
  · have hu := eq_of_still hd.still
    simp only
    generalize u.out = o at *
    generalize u.chL = o1 at *
    generalize u.chR = o2 at *
    generalize u.lcg = o3 at *
    generalize u.fadeInRem = o4 at *
    generalize u.fadeOutRem = o5 at *
    generalize u.log ++ _ = l at *
    rw [hu]; rfl
  · have := hd.fadeIn; simp only at this ⊢; rw [this]; exact Nat.sub_le _ _
  · have := hd.fadeOut; simp only at this ⊢; rw [this]; split
    · exact Nat.sub_le _ _
    · exact le_rfl

/-- What a fill event can do (R207). -/
theorem event_form {s t : State} {h : Half} (ht : fillEvent s h = .ok t) :
  (noSession s.playState = true ∧ t = s.silenceHalf h) ∨
  (s.playState = .paused ∧ s.stopReq = false ∧ t = s.silenceHalf h) ∨
  (s.playState = .paused ∧ s.stopReq = true ∧ t = SessionEnded (s.silenceHalf h)) ∨
  (s.playState = .pausing ∧ s.fadeOutRem.toNat ≤ s.halfFrames ∧ t = s.completePause h) ∨
  (s.playState = .pausing ∧ s.halfFrames < s.fadeOutRem.toNat ∧ ∃ u, fill s h = .ok u ∧ t = if u.endOff.toNat ≤ u.cur.toNat then SessionEnded u else u) ∨
  (s.playState = .playing ∧ ∃ u, fill (if s.stopReq then s.shortenEnd else s) h = .ok u ∧ t = if u.endOff.toNat ≤ u.cur.toNat then SessionEnded u else u) := by
  have key : ∀ s' : State, fillThenEnd s' h = .ok t → ∃ u, fill s' h = .ok u ∧ t = if u.endOff.toNat ≤ u.cur.toNat then SessionEnded u else u := by
    intro s' h'
    simp only [fillThenEnd] at h'
    split at h'
    · cases h'
    · rename_i u hu; cases h'; exact ⟨u, hu, by rw [endSession_eq]⟩
  simp only [fillEvent] at ht
  split at ht <;> rename_i hp
  · cases ht; simp [hp, noSession]
  · cases ht; simp [hp, noSession]
  · cases ht; simp [hp, noSession]
  · cases ht
    cases hs : s.stopReq <;> simp [hp, noSession, endSession_eq]
  · split at ht <;> rename_i hr
    · cases ht; simp [hp, noSession, hr]
    · right; right; right; right; left; exact ⟨hp, by omega, key _ ht⟩
  · right; right; right; right; right; exact ⟨hp, key _ ht⟩

/-- EV_FILL0 answers what the event on half 0 leaves. -/
theorem evFill0_next {s t : State} (h : exec .evFill0 s = .next t) : fillEvent s .first = .ok t := by
  simp only [exec, execEvFill0] at h
  cases h' : fillEvent s .first <;> rw [h'] at h <;> cases h; rfl

/-- EV_FILL1 answers what the event on half 1 leaves. -/
theorem evFill1_next {s t : State} (h : exec .evFill1 s = .next t) : fillEvent s .second = .ok t := by
  simp only [exec, execEvFill1] at h
  cases h' : fillEvent s .second <;> rw [h'] at h <;> cases h; rfl

end Sys2Proof.Machine
end

