-- ==== Sys2Proof/Machine/HostCalls.lean ====
section
/-! DEFINITION. The HOST's side of the command port: the assembler form (30_encoding.md R103) and the
pseudo-instructions (R104), scripts of commands and polls that run beside the block. No step of the
block depends on this file. -/

namespace Sys2Proof.Machine

/-- The operand registers in the order R103 writes them. -/
def operandOrder : List OperandReg := [.a0, .a1, .a2, .a3, .a4]

/-- R103: writes of A0, A1, ... in that order, then a write of `CMD`. -/
def assemble (opcode : Word) (args : List Word) : List Input :=
  (args.zip operandOrder).map (fun vr => Input.operand vr.2 vr.1) ++ [.port (.command opcode)]

/-- A fill event written `EVENT h` (R103). -/
def assembleEvent : Half → Input
  | .first => .port (.event 0)
  | .second => .port (.event 1)

/-- The fields `SET_CFG_FIELD` names (R35). -/
inductive CfgField where
  | lpf16En
  | lpf8En
  | dcSoft
  | gateEn
  | clipEn
  | airEn
  | lpf8Level
  | lpf16Level
  | makeup8
  | makeup16
  | alpha8
  | alpha16
deriving DecidableEq, Repr

/-- Replaces bits `[lo+n-1 : lo]` of a word by the low `n` bits of `v`. DESIGN CHOICE
(notes/assumptions/29.md): R104 does not say what SET_CFG_FIELD does with a value wider than its field,
and the model keeps the value's low bits. -/
def replaceBits (w : Word) (lo n : Nat) (v : Word) : Word :=
  (w &&& ~~~(BitVec.ofNat 32 ((2 ^ n - 1) * 2 ^ lo))) ||| BitVec.ofNat 32 (v.toNat % 2 ^ n * 2 ^ lo)

/-- The second half of `SET_CFG_FIELD` (R104): one field replaced in the words `R0` to `R3` that its
GET_FILTER_CONFIG returned, then a SET_FILTER_CONFIG with the four words. A value wider than its field loses its high bits
(notes/assumptions/29.md). -/
def setCfgField (f : CfgField) (v r0 r1 r2 r3 : Word) : List Input :=
  assemble 0x07 <|
    match f with
    | .lpf16En => [replaceBits r0 0 1 v, r1, r2, r3]
    | .lpf8En => [replaceBits r0 1 1 v, r1, r2, r3]
    | .dcSoft => [replaceBits r0 2 1 v, r1, r2, r3]
    | .gateEn => [replaceBits r0 3 1 v, r1, r2, r3]
    | .clipEn => [replaceBits r0 4 1 v, r1, r2, r3]
    | .airEn => [replaceBits r0 5 1 v, r1, r2, r3]
    | .lpf8Level => [replaceBits r0 8 3 v, r1, r2, r3]
    | .lpf16Level => [replaceBits r0 12 3 v, r1, r2, r3]
    | .makeup8 => [r0, v, r2, r3]
    | .makeup16 => [r0, r1, v, r3]
    | .alpha8 => [r0, r1, r2, replaceBits r3 0 16 v]
    | .alpha16 => [r0, r1, r2, replaceBits r3 16 16 v]

/-- The pseudo-instructions of R104. -/
inductive HostScript where
  | waitForEnd
  | pauseBlocking
  | stopAndWait
  | setCfgField (f : CfgField) (v : Word)
deriving DecidableEq, Repr

/-- Where a script stands: about to begin, or with the answer of its last command in the result
registers. -/
inductive HostPhase where
  /-- No command issued yet. -/
  | begin (h : HostScript)
  /-- `WAIT_FOR_END` has read the state with GET_STATE. -/
  | awaitEnd
  /-- `PAUSE_BLOCKING` has read the state with PAUSE or GET_STATE. -/
  | awaitPause
  /-- `STOP_AND_WAIT` has issued STOP. -/
  | stopIssued
  /-- `SET_CFG_FIELD` has issued GET_FILTER_CONFIG. -/
  | cfgRead (f : CfgField) (v : Word)
  /-- `SET_CFG_FIELD` has issued SET_FILTER_CONFIG. -/
  | cfgWritten
deriving DecidableEq, Repr

/-- What a script does next: issues a command and goes on, or finishes, with a state code where R104
names a result. -/
inductive HostReaction where
  | issue (command : List Input) (p : HostPhase)
  | finish (result : Option Word)
deriving DecidableEq, Repr

/-- One read of the state: GET_STATE. -/
def pollState : List Input := assemble 0x05 []

/-- What a script does next, from the results its last command left (R104). `WAIT_FOR_END` folds
`PlayingFailed` into `Error`; it reads the state for ever while Paused with no stop pending (R302). -/
def scriptReact (s : State) : HostPhase → HostReaction
  | .begin .waitForEnd => .issue pollState .awaitEnd
  | .begin .pauseBlocking => .issue (assemble 0x02 []) .awaitPause
  | .begin .stopAndWait => .issue (assemble 0x04 []) .stopIssued
  | .begin (.setCfgField f v) => .issue (assemble 0x08 []) (.cfgRead f v)
  | .awaitEnd =>
    if s.r0 = stateCode .idle then .finish (some (stateCode .idle))
    else if s.r0 = stateCode .error ∨ s.r0 = stateCode .playingFailed then
      .finish (some (stateCode .error))
    else .issue pollState .awaitEnd
  | .awaitPause =>
    if s.r0 = stateCode .pausing then .issue pollState .awaitPause else .finish (some s.r0)
  | .stopIssued => .issue pollState .awaitEnd
  | .cfgRead f v => .issue (setCfgField f v s.r0 s.r1 s.r2 s.r3) .cfgWritten
  | .cfgWritten => .finish none

/-- A script beside its block: still running, or finished with its result. -/
inductive HostRun where
  | running (p : HostPhase) (s : State)
  | finished (result : Option Word) (s : State)
deriving DecidableEq, Repr

/-- The block takes every input it has been given, these last. -/
def feed (s : State) (inputs : List Input) : Host.Outcome State Fault Refusal :=
  Host.Core.run Sys2Proof.core (s.inbox ++ inputs).length { s with inbox := s.inbox ++ inputs }

/-- A script run beside its block. `turns` gives, for each command the script issues, the fill events the
TRANSPORT delivers before it (an event writes no port register, so one that comes after a command may as
well come before the next). With no turn left the script has finished or runs on: a poll finishes only
if the TRANSPORT keeps delivering events (R104; notes/assumptions/29.md). -/
def runScript : List (List Half) → HostPhase → State → Host.Outcome HostRun Fault Refusal
  | [], p, s =>
    match scriptReact s p with
    | .finish r => .next (.finished r s)
    | .issue _ _ => .next (.running p s)
  | events :: turns, p, s =>
    match scriptReact s p with
    | .finish r => .next (.finished r s)
    | .issue command p' =>
      match feed s (events.map assembleEvent ++ command) with
      | .next t => runScript turns p' t
      | .fault f => .fault f
      | .refused r => .refused r

end Sys2Proof.Machine
end

