-- ==== Sys2Proof/Laws/HostCalls.lean ====
section
/-! SUPPORT. What a pseudo-instruction of the HOST can do: when it finishes and with what, and how a turn
goes on. -/

namespace Sys2Proof.Machine

/-- When a script finishes, and with what result (R104). -/
theorem scriptReact_finish {s : State} {p : HostPhase} {r : Option Word}
    (h : scriptReact s p = .finish r) :
    (p = .awaitEnd ∧ (s.r0 = 0 ∧ r = some 0 ∨ (s.r0 = 4 ∨ s.r0 = 5) ∧ r = some 4)) ∨
    (p = .awaitPause ∧ s.r0 ≠ 2 ∧ r = some s.r0) ∨ (p = .cfgWritten ∧ r = none) := by
  cases p with
  | begin i => cases i <;> cases h
  | awaitEnd =>
    simp only [scriptReact] at h
    split at h
    · rename_i h0; cases h; exact .inl ⟨rfl, .inl ⟨h0, rfl⟩⟩
    · split at h
      · rename_i h4; cases h; exact .inl ⟨rfl, .inr ⟨h4, rfl⟩⟩
      · cases h
  | awaitPause =>
    simp only [scriptReact] at h
    split at h
    · cases h
    · rename_i h2; cases h; exact .inr (.inl ⟨rfl, h2, rfl⟩)
  | stopIssued => cases h
  | cfgRead f v => cases h
  | cfgWritten => cases h; exact .inr (.inr ⟨rfl, rfl⟩)

/-- A poll that has not finished issues GET_STATE again and stays where it is (R104, R302). -/
theorem scriptReact_poll (s : State) :
    (s.r0 ≠ 0 → s.r0 ≠ 4 → s.r0 ≠ 5 →
      scriptReact s .awaitEnd = .issue [.port (.command 0x05)] .awaitEnd) ∧
    (s.r0 = 2 → scriptReact s .awaitPause = .issue [.port (.command 0x05)] .awaitPause) := by
  refine ⟨fun h0 h4 h5 => ?_, fun h2 => if_pos h2⟩
  exact (if_neg h0).trans (if_neg (not_or.mpr ⟨h4, h5⟩))

/-- A turn of a script that goes on: the events, then its command, then the rest of the turns. -/
theorem runScript_issue {s t : State} {p p' : HostPhase} {command : List Input} {events : List Half}
    (turns : List (List Half)) (h : scriptReact s p = .issue command p')
    (ht : feed s (events.map assembleEvent ++ command) = .next t) :
    runScript (events :: turns) p s = runScript turns p' t := by
  simp only [runScript, h, ht]

/-- A script that has finished stays finished, whatever turns are left. -/
theorem runScript_finish {s : State} {p : HostPhase} {r : Option Word} (turns : List (List Half))
    (h : scriptReact s p = .finish r) : runScript turns p s = .next (.finished r s) := by
  cases turns <;> simp only [runScript, h]

end Sys2Proof.Machine
end

