-- ==== Sys2Proof/Laws/PerInstr.lean ====
section
/-! SUPPORT. The per-instruction family `TableRow`: each instruction encodes to the port and the code its
row of spec/opcode_table.json gives (R93, R96, R97), and the row read back by the host's numbering is an
instruction of the same row. -/

namespace Sys2Proof.Laws

/-- The port and the code of a port word: 32 for a command, 1 for an event, 8 for a stage. -/
def portCode : PortWord → Nat × Nat
  | .command w => (32, w.toNat)
  | .event h => (1, h.toNat)
  | .stage id _ => (8, id.toNat)

/-- The width and the match value of each row of spec/opcode_table.json. -/
def tableRow : Instr → Nat × Nat
  | .play => (32, 0x01)
  | .pause => (32, 0x02)
  | .resume => (32, 0x03)
  | .stop => (32, 0x04)
  | .getState => (32, 0x05)
  | .getSampleRate => (32, 0x06)
  | .setFilterConfig => (32, 0x07)
  | .getFilterConfig => (32, 0x08)
  | .setFadeTime => (32, 0x09)
  | .getFadeTime => (32, 0x0A)
  | .setAirGainDb => (32, 0x0B)
  | .setAirGainQ16 => (32, 0x0C)
  | .getAirGain => (32, 0x0D)
  | .setAirPreset => (32, 0x0E)
  | .getAirPreset => (32, 0x0F)
  | .evFill0 => (1, 0x00)
  | .evFill1 => (1, 0x01)
  | .q16Mul _ _ => (8, 0x20)
  | .clamp16 _ => (8, 0x21)
  | .q16FromReal _ _ => (8, 0x22)
  | .alphaFromCutoff _ _ => (8, 0x23)
  | .dbToQ16 _ => (8, 0x24)
  | .q16ToDb _ => (8, 0x25)
  | .secToSamples _ _ => (8, 0x26)
  | .dcBlock _ _ => (8, 0x30)
  | .lpf1 _ _ _ _ => (8, 0x31)
  | .biquadCoef _ => (8, 0x32)
  | .biquadStep _ _ _ _ => (8, 0x33)
  | .biquadWarmup _ _ _ _ => (8, 0x34)
  | .airShelf _ _ _ => (8, 0x35)
  | .fadeIn _ _ _ => (8, 0x40)
  | .fadeOutPause _ _ _ => (8, 0x41)
  | .fadeOutEnd _ _ _ => (8, 0x42)
  | .noiseGate _ => (8, 0x43)
  | .softClip _ => (8, 0x44)
  | .lcgDraw => (8, 0x50)
  | .tpdfDither => (8, 0x51)
  | .u8ToS16 _ => (8, 0x52)
  | .s16Read _ => (8, 0x53)
  | .volCurve _ => (8, 0x54)
  | .volApply _ _ => (8, 0x55)
  | .chain _ _ _ => (8, 0x60)
  | .fill _ => (8, 0x61)
  | .fadeTick => (8, 0x62)
  | .endSession => (8, 0x63)
  | .silenceHalf _ => (8, 0x64)

/-- The instruction encodes to the port and the code of its row, and the decoder reads its row, with all
wires at zero, as an instruction of that row. -/
def TableRow.Statement (i : Instr) : Prop :=
  portCode (encode i) = tableRow i ∧
    (decodeTableWord (((tableRow i).1 + 7) / 8 * 8) (tableRow i).2).map tableRow = some (tableRow i)

theorem TableRow.play : TableRow.Statement .play :=
  ⟨rfl, by simp only [tableRow]; rfl⟩
theorem TableRow.pause : TableRow.Statement .pause :=
  ⟨rfl, by simp only [tableRow]; rfl⟩
theorem TableRow.resume : TableRow.Statement .resume :=
  ⟨rfl, by simp only [tableRow]; rfl⟩
theorem TableRow.stop : TableRow.Statement .stop :=
  ⟨rfl, by simp only [tableRow]; rfl⟩
theorem TableRow.getState : TableRow.Statement .getState :=
  ⟨rfl, by simp only [tableRow]; rfl⟩
theorem TableRow.getSampleRate : TableRow.Statement .getSampleRate :=
  ⟨rfl, by simp only [tableRow]; rfl⟩
theorem TableRow.setFilterConfig : TableRow.Statement .setFilterConfig :=
  ⟨rfl, by simp only [tableRow]; rfl⟩
theorem TableRow.getFilterConfig : TableRow.Statement .getFilterConfig :=
  ⟨rfl, by simp only [tableRow]; rfl⟩
theorem TableRow.setFadeTime : TableRow.Statement .setFadeTime :=
  ⟨rfl, by simp only [tableRow]; rfl⟩
theorem TableRow.getFadeTime : TableRow.Statement .getFadeTime :=
  ⟨rfl, by simp only [tableRow]; rfl⟩
theorem TableRow.setAirGainDb : TableRow.Statement .setAirGainDb :=
  ⟨rfl, by simp only [tableRow]; rfl⟩
theorem TableRow.setAirGainQ16 : TableRow.Statement .setAirGainQ16 :=
  ⟨rfl, by simp only [tableRow]; rfl⟩
theorem TableRow.getAirGain : TableRow.Statement .getAirGain :=
  ⟨rfl, by simp only [tableRow]; rfl⟩
theorem TableRow.setAirPreset : TableRow.Statement .setAirPreset :=
  ⟨rfl, by simp only [tableRow]; rfl⟩
theorem TableRow.getAirPreset : TableRow.Statement .getAirPreset :=
  ⟨rfl, by simp only [tableRow]; rfl⟩
theorem TableRow.evFill0 : TableRow.Statement .evFill0 :=
  ⟨rfl, by simp only [tableRow]; rfl⟩
theorem TableRow.evFill1 : TableRow.Statement .evFill1 :=
  ⟨rfl, by simp only [tableRow]; rfl⟩
theorem TableRow.q16Mul (a b : Int) : TableRow.Statement (.q16Mul a b) :=
  ⟨rfl, by simp only [tableRow]; rfl⟩
theorem TableRow.clamp16 (v : Int) : TableRow.Statement (.clamp16 v) :=
  ⟨rfl, by simp only [tableRow]; rfl⟩
theorem TableRow.q16FromReal (mantissa : Int) (places : Nat) : TableRow.Statement (.q16FromReal mantissa places) :=
  ⟨rfl, by simp only [tableRow]; rfl⟩
theorem TableRow.alphaFromCutoff (fc fs : Word) : TableRow.Statement (.alphaFromCutoff fc fs) :=
  ⟨rfl, by simp only [tableRow]; rfl⟩
theorem TableRow.dbToQ16 (d : Word) : TableRow.Statement (.dbToQ16 d) :=
  ⟨rfl, by simp only [tableRow]; rfl⟩
theorem TableRow.q16ToDb (g : Word) : TableRow.Statement (.q16ToDb g) :=
  ⟨rfl, by simp only [tableRow]; rfl⟩
theorem TableRow.secToSamples (sec rate : Word) : TableRow.Statement (.secToSamples sec rate) :=
  ⟨rfl, by simp only [tableRow]; rfl⟩
theorem TableRow.dcBlock (c : Channel) (x : S16) : TableRow.Statement (.dcBlock c x) :=
  ⟨rfl, by simp only [tableRow]; rfl⟩
theorem TableRow.lpf1 (c : Channel) (x : S16) (alpha : U16) (g : Word) : TableRow.Statement (.lpf1 c x alpha g) :=
  ⟨rfl, by simp only [tableRow]; rfl⟩
theorem TableRow.biquadCoef (alpha : U16) : TableRow.Statement (.biquadCoef alpha) :=
  ⟨rfl, by simp only [tableRow]; rfl⟩
theorem TableRow.biquadStep (c : Channel) (x : S16) (alpha : U16) (g : Word) : TableRow.Statement (.biquadStep c x alpha g) :=
  ⟨rfl, by simp only [tableRow]; rfl⟩
theorem TableRow.biquadWarmup (c : Channel) (x : S16) (alpha : U16) (g : Word) : TableRow.Statement (.biquadWarmup c x alpha g) :=
  ⟨rfl, by simp only [tableRow]; rfl⟩
theorem TableRow.airShelf (c : Channel) (x : S16) (gain : Word) : TableRow.Statement (.airShelf c x gain) :=
  ⟨rfl, by simp only [tableRow]; rfl⟩
theorem TableRow.fadeIn (x : S16) (rem tot : Word) : TableRow.Statement (.fadeIn x rem tot) :=
  ⟨rfl, by simp only [tableRow]; rfl⟩
theorem TableRow.fadeOutPause (x : S16) (r tot : Word) : TableRow.Statement (.fadeOutPause x r tot) :=
  ⟨rfl, by simp only [tableRow]; rfl⟩
theorem TableRow.fadeOutEnd (x : S16) (rem tot : Word) : TableRow.Statement (.fadeOutEnd x rem tot) :=
  ⟨rfl, by simp only [tableRow]; rfl⟩
theorem TableRow.noiseGate (x : S16) : TableRow.Statement (.noiseGate x) :=
  ⟨rfl, by simp only [tableRow]; rfl⟩
theorem TableRow.softClip (x : S16) : TableRow.Statement (.softClip x) :=
  ⟨rfl, by simp only [tableRow]; rfl⟩
theorem TableRow.lcgDraw : TableRow.Statement .lcgDraw :=
  ⟨rfl, by simp only [tableRow]; rfl⟩
theorem TableRow.tpdfDither : TableRow.Statement .tpdfDither :=
  ⟨rfl, by simp only [tableRow]; rfl⟩
theorem TableRow.u8ToS16 (p : Word) : TableRow.Statement (.u8ToS16 p) :=
  ⟨rfl, by simp only [tableRow]; rfl⟩
theorem TableRow.s16Read (p : Word) : TableRow.Statement (.s16Read p) :=
  ⟨rfl, by simp only [tableRow]; rfl⟩
theorem TableRow.volCurve (v : U16) : TableRow.Statement (.volCurve v) :=
  ⟨rfl, by simp only [tableRow]; rfl⟩
theorem TableRow.volApply (x : S16) (g : U16) : TableRow.Statement (.volApply x g) :=
  ⟨rfl, by simp only [tableRow]; rfl⟩
theorem TableRow.chain (c : Channel) (x : S16) (p : Word) : TableRow.Statement (.chain c x p) :=
  ⟨rfl, by simp only [tableRow]; rfl⟩
theorem TableRow.fill (h : Half) : TableRow.Statement (.fill h) :=
  ⟨rfl, by simp only [tableRow]; rfl⟩
theorem TableRow.fadeTick : TableRow.Statement .fadeTick :=
  ⟨rfl, by simp only [tableRow]; rfl⟩
theorem TableRow.endSession : TableRow.Statement .endSession :=
  ⟨rfl, by simp only [tableRow]; rfl⟩
theorem TableRow.silenceHalf (h : Half) : TableRow.Statement (.silenceHalf h) :=
  ⟨rfl, by simp only [tableRow]; rfl⟩

end Sys2Proof.Laws
end

