-- ==== Sys2Proof/Laws/Play.lean ====
section
/-! SUPPORT. What PLAY's warm-up, its last part and PLAY itself can do, and what a step can do. -/

namespace Sys2Proof.Machine

/-- The warm-up changes the channel records and the generator at most. -/
theorem warmup_form {s t : State} (ht : warmup s = .ok t) :
    t = { s with chL := t.chL, chR := t.chR, lcg := t.lcg } := by
  simp only [warmup] at ht
  split at ht
  · split at ht
    · cases ht; rfl
    · split at ht
      · cases ht
      · rename_i xl s1 hx
        split at ht
        · cases ht
        · rename_i xr s2 hxr
          have h1 := (readElement_ok hx).1
          have h2 : s2 = { s1 with lcg := s2.lcg } := by
            split at hxr
            · exact (readElement_ok hxr).1
            · cases hxr; rfl
          cases ht
          simp only
          rw [h2, h1]
  · cases ht; rfl

/-- The end of PLAY in closed form. -/
theorem startTransport_form (s : State) : s.startTransport =
   if s.startAnswer = true then
          { s with playState := .playing, r0 := 1, status := 0,
                    startAnswers := s.startAnswers.tail, startDraws := s.startDraws + 1,
                    log := s.log ++ [.amp true, .transportStart s.params.bufLen true] }
        else
          { s with playState := .playingFailed, r0 := 5, status := 4,
                    startAnswers := s.startAnswers.tail, startDraws := s.startDraws + 1,
                    log := s.log ++ [.amp true, .transportStart s.params.bufLen false, .amp false] } := by
  have e : (s.emit (.amp true)).startAnswer = s.startAnswer := rfl
  simp only [State.startTransport, e]
  by_cases h : s.startAnswer = true
  · rw [if_pos h, if_pos h]
    simp only [State.reportState, State.afterStart, e, h]
    simp [State.emit, stateCode, statusOk]
  · rw [if_neg h, if_neg h]
    simp only [State.reportState, State.afterStart, e, h]
    simp [State.emit, stateCode, statusStartFailed]

/-- What PLAY can do when it answers a next state. -/
theorem play_form {s t : State} (h : exec .play s = .next t) :
   (¬ playValid s = true ∧ t = s.reportState .error statusValidation) ∨
   (playValid s = true ∧ ¬(s.a3 = 16 ∧ s.a0.toNat % 2 = 1) ∧ playRegionEnd s ≤ 4294967296 ∧
     ∃ s1 s2 s3, warmup s.openSession.takeRate.startFades = .ok s1 ∧ fill s1 .first = .ok s2 ∧ fill s2 .second = .ok s3 ∧ t = s3.startTransport) := by
  simp only [exec, execPlay] at h
  split at h
  · rename_i hv
    right
    split at h
    · cases h
    · rename_i hm
      split at h
      · cases h
      · rename_i hr
        refine ⟨hv, hm, by omega, ?_⟩
        simp only [playBody] at h
        cases hw : warmup s.openSession.takeRate.startFades with
        | error f => simp only [hw, outcomeOf] at h; cases h
        | ok s1 =>
          cases hf : fill s1 .first with
          | error f => simp only [hw, hf, outcomeOf] at h; cases h
          | ok s2 =>
            cases hf3 : fill s2 .second with
            | error f => simp only [hw, hf, hf3, outcomeOf] at h; cases h
            | ok s3 =>
              simp only [hw, hf, hf3, outcomeOf] at h
              exact ⟨s1, s2, s3, rfl, hf, hf3, (Host.Outcome.next.inj h).symm⟩
  · rename_i hv
    cases h; exact Or.inl ⟨hv, rfl⟩

/-- What a step can do when it answers a next state. -/
theorem step_form {s t : State} (h : step s = .next t) :
   (s.inbox = [] ∧ t = s) ∨
   (∃ r v rest, s.inbox = .operand r v :: rest ∧ t = ({ s with inbox := rest } : State).writeOperand r v) ∨
   (∃ a b rest, s.inbox = .store a b :: rest ∧ t = hostStore { s with inbox := rest } a b) ∨
   (∃ w rest, s.inbox = .port w :: rest ∧ t = (({ s with inbox := rest } : State).accept w).illegalCommand) ∨
   (∃ w rest i, s.inbox = .port w :: rest ∧ decode w = .ok i ∧ exec i (({ s with inbox := rest } : State).accept w) = .next t) := by
  rcases hin : s.inbox with _ | ⟨_ | _ | _, rest⟩
  · simp only [step, fetch, hin] at h
    exact Or.inl ⟨rfl, (Host.Outcome.next.inj h).symm⟩
  · rename_i r v
    simp only [step, fetch, hin] at h
    exact Or.inr (Or.inl ⟨r, v, rest, rfl, (Host.Outcome.next.inj h).symm⟩)
  · rename_i a b
    simp only [step, fetch, hin] at h
    exact Or.inr (Or.inr (Or.inl ⟨a, b, rest, rfl, (Host.Outcome.next.inj h).symm⟩))
  · rename_i w
    simp only [step, fetch, hin, fetchWord] at h
    cases hd : decode w with
    | ok i => simp only [hd] at h; exact Or.inr (Or.inr (Or.inr (Or.inr ⟨w, rest, i, rfl, hd, h⟩)))
    | error e =>
      simp only [hd] at h
      cases e <;> simp only [rejectWord] at h
      · exact Or.inr (Or.inr (Or.inr (Or.inl ⟨w, rest, rfl, (Host.Outcome.next.inj h).symm⟩)))
      · cases h
      · cases h

end Sys2Proof.Machine
end

