-- ==== Sys2Proof/Laws/Samples.lean ====
section
/-! SUPPORT. Samples as integers: what `toS16` and the clamp give. -/

namespace Sys2Proof.Machine

/-- `toS16` holds an integer of the s16 range. -/
theorem toInt_toS16 {v : Int} (h1 : -32768 ≤ v) (h2 : v ≤ 32767) : (toS16 v).toInt = v := by
  simp only [toS16, BitVec.toInt_ofInt]
  rw [Int.bmod_eq_of_le] <;> omega

/-- The clamp lies in the s16 range. -/
theorem clampInt_range (v : Int) : -32768 ≤ clampInt v ∧ clampInt v ≤ 32767 := by
  simp only [clampInt]; omega

/-- The clamp changes nothing inside the range. -/
theorem clampInt_of_range {v : Int} (h1 : -32768 ≤ v) (h2 : v ≤ 32767) : clampInt v = v := by
  simp only [clampInt]; omega

/-- The value of a clamped sample. -/
@[simp] theorem toInt_clampS16 (v : Int) : (clampS16 v).toInt = clampInt v := by
  have h := clampInt_range v
  exact toInt_toS16 h.1 h.2

/-- The range of a sample. -/
theorem s16_range (x : S16) : -32768 ≤ x.toInt ∧ x.toInt ≤ 32767 := by
  have h1 := BitVec.le_toInt x
  have h2 := BitVec.toInt_lt (x := x)
  simp at h1 h2
  omega

/-- The one-pole value lies between the input and the history (R131's derived claim). -/
theorem lpf1Raw_between (alpha : U16) (x yp : S16) :
    min x.toInt yp.toInt ≤ lpf1Raw alpha x yp ∧ lpf1Raw alpha x yp ≤ max x.toInt yp.toInt := by
  have ha : (0 : Int) ≤ alpha.toNat := by omega
  have hb : (alpha.toNat : Int) ≤ 65536 := by have := alpha.isLt; omega
  simp only [lpf1Raw, shr16]
  generalize (alpha.toNat : Int) = a at *
  generalize x.toInt = u
  generalize yp.toInt = v
  rcases le_total u v with h | h
  · rw [min_eq_left h, max_eq_right h]
    constructor
    · rw [Int.le_ediv_iff_mul_le (by norm_num)]; nlinarith
    · apply Int.ediv_le_of_le_mul (by norm_num); nlinarith
  · rw [min_eq_right h, max_eq_left h]
    constructor
    · rw [Int.le_ediv_iff_mul_le (by norm_num)]; nlinarith
    · apply Int.ediv_le_of_le_mul (by norm_num); nlinarith

/-- So `LP_YP` holds it exactly. -/
theorem toInt_lpf1Raw (alpha : U16) (x yp : S16) :
    (toS16 (lpf1Raw alpha x yp)).toInt = lpf1Raw alpha x yp := by
  have h := lpf1Raw_between alpha x yp
  have hx := s16_range x
  have hy := s16_range yp
  apply toInt_toS16 <;> omega

end Sys2Proof.Machine
end

