-- ==== Sys2Proof/Laws/State.lean ====
section
/-! SUPPORT. One lemma per field for each named update of the state, so that no proof unfolds a record
update. -/

namespace Sys2Proof.Machine

variable (s : State)

/-! ### report -/

@[simp] theorem report_cmd (c : Word) : (s.report c).cmd = s.cmd := rfl
@[simp] theorem report_a0 (c : Word) : (s.report c).a0 = s.a0 := rfl
@[simp] theorem report_a1 (c : Word) : (s.report c).a1 = s.a1 := rfl
@[simp] theorem report_a2 (c : Word) : (s.report c).a2 = s.a2 := rfl
@[simp] theorem report_a3 (c : Word) : (s.report c).a3 = s.a3 := rfl
@[simp] theorem report_a4 (c : Word) : (s.report c).a4 = s.a4 := rfl
@[simp] theorem report_r0 (c : Word) : (s.report c).r0 = s.r0 := rfl
@[simp] theorem report_r1 (c : Word) : (s.report c).r1 = s.r1 := rfl
@[simp] theorem report_r2 (c : Word) : (s.report c).r2 = s.r2 := rfl
@[simp] theorem report_r3 (c : Word) : (s.report c).r3 = s.r3 := rfl
@[simp] theorem report_status (c : Word) : (s.report c).status = c := rfl
@[simp] theorem report_playState (c : Word) : (s.report c).playState = s.playState := rfl
@[simp] theorem report_stopReq (c : Word) : (s.report c).stopReq = s.stopReq := rfl
@[simp] theorem report_doneFired (c : Word) : (s.report c).doneFired = s.doneFired := rfl
@[simp] theorem report_src (c : Word) : (s.report c).src = s.src := rfl
@[simp] theorem report_depth (c : Word) : (s.report c).depth = s.depth := rfl
@[simp] theorem report_mode (c : Word) : (s.report c).mode = s.mode := rfl
@[simp] theorem report_cur (c : Word) : (s.report c).cur = s.cur := rfl
@[simp] theorem report_endOff (c : Word) : (s.report c).endOff = s.endOff := rfl
@[simp] theorem report_pausePos (c : Word) : (s.report c).pausePos = s.pausePos := rfl
@[simp] theorem report_sampleRate (c : Word) : (s.report c).sampleRate = s.sampleRate := rfl
@[simp] theorem report_srcLen (c : Word) : (s.report c).srcLen = s.srcLen := rfl
@[simp] theorem report_fadeSec (c : Word) : (s.report c).fadeSec = s.fadeSec := rfl
@[simp] theorem report_fadeSmp (c : Word) : (s.report c).fadeSmp = s.fadeSmp := rfl
@[simp] theorem report_fadeInRem (c : Word) : (s.report c).fadeInRem = s.fadeInRem := rfl
@[simp] theorem report_fadeInTot (c : Word) : (s.report c).fadeInTot = s.fadeInTot := rfl
@[simp] theorem report_fadeOutRem (c : Word) : (s.report c).fadeOutRem = s.fadeOutRem := rfl
@[simp] theorem report_fadeOutTot (c : Word) : (s.report c).fadeOutTot = s.fadeOutTot := rfl
@[simp] theorem report_cfg (c : Word) : (s.report c).cfg = s.cfg := rfl
@[simp] theorem report_airGain (c : Word) : (s.report c).airGain = s.airGain := rfl
@[simp] theorem report_airPresetIdx (c : Word) : (s.report c).airPresetIdx = s.airPresetIdx := rfl
@[simp] theorem report_lcg (c : Word) : (s.report c).lcg = s.lcg := rfl
@[simp] theorem report_chL (c : Word) : (s.report c).chL = s.chL := rfl
@[simp] theorem report_chR (c : Word) : (s.report c).chR = s.chR := rfl
@[simp] theorem report_out (c : Word) : (s.report c).out = s.out := rfl
@[simp] theorem report_mem (c : Word) : (s.report c).mem = s.mem := rfl
@[simp] theorem report_params (c : Word) : (s.report c).params = s.params := rfl
@[simp] theorem report_inbox (c : Word) : (s.report c).inbox = s.inbox := rfl
@[simp] theorem report_volAnswers (c : Word) : (s.report c).volAnswers = s.volAnswers := rfl
@[simp] theorem report_volDraws (c : Word) : (s.report c).volDraws = s.volDraws := rfl
@[simp] theorem report_startAnswers (c : Word) : (s.report c).startAnswers = s.startAnswers := rfl
@[simp] theorem report_startDraws (c : Word) : (s.report c).startDraws = s.startDraws := rfl
@[simp] theorem report_log (c : Word) : (s.report c).log = s.log := rfl
@[simp] theorem report_stageOut (c : Word) : (s.report c).stageOut = s.stageOut := rfl
@[simp] theorem report_sourceChanged (c : Word) : (s.report c).sourceChanged = s.sourceChanged := rfl

/-! ### reportState -/

@[simp] theorem reportState_cmd (p : PlayState) (c : Word) : (s.reportState p c).cmd = s.cmd := rfl
@[simp] theorem reportState_a0 (p : PlayState) (c : Word) : (s.reportState p c).a0 = s.a0 := rfl
@[simp] theorem reportState_a1 (p : PlayState) (c : Word) : (s.reportState p c).a1 = s.a1 := rfl
@[simp] theorem reportState_a2 (p : PlayState) (c : Word) : (s.reportState p c).a2 = s.a2 := rfl
@[simp] theorem reportState_a3 (p : PlayState) (c : Word) : (s.reportState p c).a3 = s.a3 := rfl
@[simp] theorem reportState_a4 (p : PlayState) (c : Word) : (s.reportState p c).a4 = s.a4 := rfl
@[simp] theorem reportState_r0 (p : PlayState) (c : Word) : (s.reportState p c).r0 = stateCode p := rfl
@[simp] theorem reportState_r1 (p : PlayState) (c : Word) : (s.reportState p c).r1 = s.r1 := rfl
@[simp] theorem reportState_r2 (p : PlayState) (c : Word) : (s.reportState p c).r2 = s.r2 := rfl
@[simp] theorem reportState_r3 (p : PlayState) (c : Word) : (s.reportState p c).r3 = s.r3 := rfl
@[simp] theorem reportState_status (p : PlayState) (c : Word) : (s.reportState p c).status = c := rfl
@[simp] theorem reportState_playState (p : PlayState) (c : Word) : (s.reportState p c).playState = s.playState := rfl
@[simp] theorem reportState_stopReq (p : PlayState) (c : Word) : (s.reportState p c).stopReq = s.stopReq := rfl
@[simp] theorem reportState_doneFired (p : PlayState) (c : Word) : (s.reportState p c).doneFired = s.doneFired := rfl
@[simp] theorem reportState_src (p : PlayState) (c : Word) : (s.reportState p c).src = s.src := rfl
@[simp] theorem reportState_depth (p : PlayState) (c : Word) : (s.reportState p c).depth = s.depth := rfl
@[simp] theorem reportState_mode (p : PlayState) (c : Word) : (s.reportState p c).mode = s.mode := rfl
@[simp] theorem reportState_cur (p : PlayState) (c : Word) : (s.reportState p c).cur = s.cur := rfl
@[simp] theorem reportState_endOff (p : PlayState) (c : Word) : (s.reportState p c).endOff = s.endOff := rfl
@[simp] theorem reportState_pausePos (p : PlayState) (c : Word) : (s.reportState p c).pausePos = s.pausePos := rfl
@[simp] theorem reportState_sampleRate (p : PlayState) (c : Word) : (s.reportState p c).sampleRate = s.sampleRate := rfl
@[simp] theorem reportState_srcLen (p : PlayState) (c : Word) : (s.reportState p c).srcLen = s.srcLen := rfl
@[simp] theorem reportState_fadeSec (p : PlayState) (c : Word) : (s.reportState p c).fadeSec = s.fadeSec := rfl
@[simp] theorem reportState_fadeSmp (p : PlayState) (c : Word) : (s.reportState p c).fadeSmp = s.fadeSmp := rfl
@[simp] theorem reportState_fadeInRem (p : PlayState) (c : Word) : (s.reportState p c).fadeInRem = s.fadeInRem := rfl
@[simp] theorem reportState_fadeInTot (p : PlayState) (c : Word) : (s.reportState p c).fadeInTot = s.fadeInTot := rfl
@[simp] theorem reportState_fadeOutRem (p : PlayState) (c : Word) : (s.reportState p c).fadeOutRem = s.fadeOutRem := rfl
@[simp] theorem reportState_fadeOutTot (p : PlayState) (c : Word) : (s.reportState p c).fadeOutTot = s.fadeOutTot := rfl
@[simp] theorem reportState_cfg (p : PlayState) (c : Word) : (s.reportState p c).cfg = s.cfg := rfl
@[simp] theorem reportState_airGain (p : PlayState) (c : Word) : (s.reportState p c).airGain = s.airGain := rfl
@[simp] theorem reportState_airPresetIdx (p : PlayState) (c : Word) : (s.reportState p c).airPresetIdx = s.airPresetIdx := rfl
@[simp] theorem reportState_lcg (p : PlayState) (c : Word) : (s.reportState p c).lcg = s.lcg := rfl
@[simp] theorem reportState_chL (p : PlayState) (c : Word) : (s.reportState p c).chL = s.chL := rfl
@[simp] theorem reportState_chR (p : PlayState) (c : Word) : (s.reportState p c).chR = s.chR := rfl
@[simp] theorem reportState_out (p : PlayState) (c : Word) : (s.reportState p c).out = s.out := rfl
@[simp] theorem reportState_mem (p : PlayState) (c : Word) : (s.reportState p c).mem = s.mem := rfl
@[simp] theorem reportState_params (p : PlayState) (c : Word) : (s.reportState p c).params = s.params := rfl
@[simp] theorem reportState_inbox (p : PlayState) (c : Word) : (s.reportState p c).inbox = s.inbox := rfl
@[simp] theorem reportState_volAnswers (p : PlayState) (c : Word) : (s.reportState p c).volAnswers = s.volAnswers := rfl
@[simp] theorem reportState_volDraws (p : PlayState) (c : Word) : (s.reportState p c).volDraws = s.volDraws := rfl
@[simp] theorem reportState_startAnswers (p : PlayState) (c : Word) : (s.reportState p c).startAnswers = s.startAnswers := rfl
@[simp] theorem reportState_startDraws (p : PlayState) (c : Word) : (s.reportState p c).startDraws = s.startDraws := rfl
@[simp] theorem reportState_log (p : PlayState) (c : Word) : (s.reportState p c).log = s.log := rfl
@[simp] theorem reportState_stageOut (p : PlayState) (c : Word) : (s.reportState p c).stageOut = s.stageOut := rfl
@[simp] theorem reportState_sourceChanged (p : PlayState) (c : Word) : (s.reportState p c).sourceChanged = s.sourceChanged := rfl

/-! ### drive -/

@[simp] theorem drive_cmd (o : List Int) : (s.drive o).cmd = s.cmd := rfl
@[simp] theorem drive_a0 (o : List Int) : (s.drive o).a0 = s.a0 := rfl
@[simp] theorem drive_a1 (o : List Int) : (s.drive o).a1 = s.a1 := rfl
@[simp] theorem drive_a2 (o : List Int) : (s.drive o).a2 = s.a2 := rfl
@[simp] theorem drive_a3 (o : List Int) : (s.drive o).a3 = s.a3 := rfl
@[simp] theorem drive_a4 (o : List Int) : (s.drive o).a4 = s.a4 := rfl
@[simp] theorem drive_r0 (o : List Int) : (s.drive o).r0 = s.r0 := rfl
@[simp] theorem drive_r1 (o : List Int) : (s.drive o).r1 = s.r1 := rfl
@[simp] theorem drive_r2 (o : List Int) : (s.drive o).r2 = s.r2 := rfl
@[simp] theorem drive_r3 (o : List Int) : (s.drive o).r3 = s.r3 := rfl
@[simp] theorem drive_status (o : List Int) : (s.drive o).status = s.status := rfl
@[simp] theorem drive_playState (o : List Int) : (s.drive o).playState = s.playState := rfl
@[simp] theorem drive_stopReq (o : List Int) : (s.drive o).stopReq = s.stopReq := rfl
@[simp] theorem drive_doneFired (o : List Int) : (s.drive o).doneFired = s.doneFired := rfl
@[simp] theorem drive_src (o : List Int) : (s.drive o).src = s.src := rfl
@[simp] theorem drive_depth (o : List Int) : (s.drive o).depth = s.depth := rfl
@[simp] theorem drive_mode (o : List Int) : (s.drive o).mode = s.mode := rfl
@[simp] theorem drive_cur (o : List Int) : (s.drive o).cur = s.cur := rfl
@[simp] theorem drive_endOff (o : List Int) : (s.drive o).endOff = s.endOff := rfl
@[simp] theorem drive_pausePos (o : List Int) : (s.drive o).pausePos = s.pausePos := rfl
@[simp] theorem drive_sampleRate (o : List Int) : (s.drive o).sampleRate = s.sampleRate := rfl
@[simp] theorem drive_srcLen (o : List Int) : (s.drive o).srcLen = s.srcLen := rfl
@[simp] theorem drive_fadeSec (o : List Int) : (s.drive o).fadeSec = s.fadeSec := rfl
@[simp] theorem drive_fadeSmp (o : List Int) : (s.drive o).fadeSmp = s.fadeSmp := rfl
@[simp] theorem drive_fadeInRem (o : List Int) : (s.drive o).fadeInRem = s.fadeInRem := rfl
@[simp] theorem drive_fadeInTot (o : List Int) : (s.drive o).fadeInTot = s.fadeInTot := rfl
@[simp] theorem drive_fadeOutRem (o : List Int) : (s.drive o).fadeOutRem = s.fadeOutRem := rfl
@[simp] theorem drive_fadeOutTot (o : List Int) : (s.drive o).fadeOutTot = s.fadeOutTot := rfl
@[simp] theorem drive_cfg (o : List Int) : (s.drive o).cfg = s.cfg := rfl
@[simp] theorem drive_airGain (o : List Int) : (s.drive o).airGain = s.airGain := rfl
@[simp] theorem drive_airPresetIdx (o : List Int) : (s.drive o).airPresetIdx = s.airPresetIdx := rfl
@[simp] theorem drive_lcg (o : List Int) : (s.drive o).lcg = s.lcg := rfl
@[simp] theorem drive_chL (o : List Int) : (s.drive o).chL = s.chL := rfl
@[simp] theorem drive_chR (o : List Int) : (s.drive o).chR = s.chR := rfl
@[simp] theorem drive_out (o : List Int) : (s.drive o).out = s.out := rfl
@[simp] theorem drive_mem (o : List Int) : (s.drive o).mem = s.mem := rfl
@[simp] theorem drive_params (o : List Int) : (s.drive o).params = s.params := rfl
@[simp] theorem drive_inbox (o : List Int) : (s.drive o).inbox = s.inbox := rfl
@[simp] theorem drive_volAnswers (o : List Int) : (s.drive o).volAnswers = s.volAnswers := rfl
@[simp] theorem drive_volDraws (o : List Int) : (s.drive o).volDraws = s.volDraws := rfl
@[simp] theorem drive_startAnswers (o : List Int) : (s.drive o).startAnswers = s.startAnswers := rfl
@[simp] theorem drive_startDraws (o : List Int) : (s.drive o).startDraws = s.startDraws := rfl
@[simp] theorem drive_log (o : List Int) : (s.drive o).log = s.log := rfl
@[simp] theorem drive_stageOut (o : List Int) : (s.drive o).stageOut = o := rfl
@[simp] theorem drive_sourceChanged (o : List Int) : (s.drive o).sourceChanged = s.sourceChanged := rfl

/-! ### emit -/

@[simp] theorem emit_cmd (e : LogEntry) : (s.emit e).cmd = s.cmd := rfl
@[simp] theorem emit_a0 (e : LogEntry) : (s.emit e).a0 = s.a0 := rfl
@[simp] theorem emit_a1 (e : LogEntry) : (s.emit e).a1 = s.a1 := rfl
@[simp] theorem emit_a2 (e : LogEntry) : (s.emit e).a2 = s.a2 := rfl
@[simp] theorem emit_a3 (e : LogEntry) : (s.emit e).a3 = s.a3 := rfl
@[simp] theorem emit_a4 (e : LogEntry) : (s.emit e).a4 = s.a4 := rfl
@[simp] theorem emit_r0 (e : LogEntry) : (s.emit e).r0 = s.r0 := rfl
@[simp] theorem emit_r1 (e : LogEntry) : (s.emit e).r1 = s.r1 := rfl
@[simp] theorem emit_r2 (e : LogEntry) : (s.emit e).r2 = s.r2 := rfl
@[simp] theorem emit_r3 (e : LogEntry) : (s.emit e).r3 = s.r3 := rfl
@[simp] theorem emit_status (e : LogEntry) : (s.emit e).status = s.status := rfl
@[simp] theorem emit_playState (e : LogEntry) : (s.emit e).playState = s.playState := rfl
@[simp] theorem emit_stopReq (e : LogEntry) : (s.emit e).stopReq = s.stopReq := rfl
@[simp] theorem emit_doneFired (e : LogEntry) : (s.emit e).doneFired = s.doneFired := rfl
@[simp] theorem emit_src (e : LogEntry) : (s.emit e).src = s.src := rfl
@[simp] theorem emit_depth (e : LogEntry) : (s.emit e).depth = s.depth := rfl
@[simp] theorem emit_mode (e : LogEntry) : (s.emit e).mode = s.mode := rfl
@[simp] theorem emit_cur (e : LogEntry) : (s.emit e).cur = s.cur := rfl
@[simp] theorem emit_endOff (e : LogEntry) : (s.emit e).endOff = s.endOff := rfl
@[simp] theorem emit_pausePos (e : LogEntry) : (s.emit e).pausePos = s.pausePos := rfl
@[simp] theorem emit_sampleRate (e : LogEntry) : (s.emit e).sampleRate = s.sampleRate := rfl
@[simp] theorem emit_srcLen (e : LogEntry) : (s.emit e).srcLen = s.srcLen := rfl
@[simp] theorem emit_fadeSec (e : LogEntry) : (s.emit e).fadeSec = s.fadeSec := rfl
@[simp] theorem emit_fadeSmp (e : LogEntry) : (s.emit e).fadeSmp = s.fadeSmp := rfl
@[simp] theorem emit_fadeInRem (e : LogEntry) : (s.emit e).fadeInRem = s.fadeInRem := rfl
@[simp] theorem emit_fadeInTot (e : LogEntry) : (s.emit e).fadeInTot = s.fadeInTot := rfl
@[simp] theorem emit_fadeOutRem (e : LogEntry) : (s.emit e).fadeOutRem = s.fadeOutRem := rfl
@[simp] theorem emit_fadeOutTot (e : LogEntry) : (s.emit e).fadeOutTot = s.fadeOutTot := rfl
@[simp] theorem emit_cfg (e : LogEntry) : (s.emit e).cfg = s.cfg := rfl
@[simp] theorem emit_airGain (e : LogEntry) : (s.emit e).airGain = s.airGain := rfl
@[simp] theorem emit_airPresetIdx (e : LogEntry) : (s.emit e).airPresetIdx = s.airPresetIdx := rfl
@[simp] theorem emit_lcg (e : LogEntry) : (s.emit e).lcg = s.lcg := rfl
@[simp] theorem emit_chL (e : LogEntry) : (s.emit e).chL = s.chL := rfl
@[simp] theorem emit_chR (e : LogEntry) : (s.emit e).chR = s.chR := rfl
@[simp] theorem emit_out (e : LogEntry) : (s.emit e).out = s.out := rfl
@[simp] theorem emit_mem (e : LogEntry) : (s.emit e).mem = s.mem := rfl
@[simp] theorem emit_params (e : LogEntry) : (s.emit e).params = s.params := rfl
@[simp] theorem emit_inbox (e : LogEntry) : (s.emit e).inbox = s.inbox := rfl
@[simp] theorem emit_volAnswers (e : LogEntry) : (s.emit e).volAnswers = s.volAnswers := rfl
@[simp] theorem emit_volDraws (e : LogEntry) : (s.emit e).volDraws = s.volDraws := rfl
@[simp] theorem emit_startAnswers (e : LogEntry) : (s.emit e).startAnswers = s.startAnswers := rfl
@[simp] theorem emit_startDraws (e : LogEntry) : (s.emit e).startDraws = s.startDraws := rfl
@[simp] theorem emit_log (e : LogEntry) : (s.emit e).log = s.log ++ [e] := rfl
@[simp] theorem emit_stageOut (e : LogEntry) : (s.emit e).stageOut = s.stageOut := rfl
@[simp] theorem emit_sourceChanged (e : LogEntry) : (s.emit e).sourceChanged = s.sourceChanged := rfl

/-! ### emitHalf -/

@[simp] theorem emitHalf_cmd (h : Half) : (s.emitHalf h).cmd = s.cmd := rfl
@[simp] theorem emitHalf_a0 (h : Half) : (s.emitHalf h).a0 = s.a0 := rfl
@[simp] theorem emitHalf_a1 (h : Half) : (s.emitHalf h).a1 = s.a1 := rfl
@[simp] theorem emitHalf_a2 (h : Half) : (s.emitHalf h).a2 = s.a2 := rfl
@[simp] theorem emitHalf_a3 (h : Half) : (s.emitHalf h).a3 = s.a3 := rfl
@[simp] theorem emitHalf_a4 (h : Half) : (s.emitHalf h).a4 = s.a4 := rfl
@[simp] theorem emitHalf_r0 (h : Half) : (s.emitHalf h).r0 = s.r0 := rfl
@[simp] theorem emitHalf_r1 (h : Half) : (s.emitHalf h).r1 = s.r1 := rfl
@[simp] theorem emitHalf_r2 (h : Half) : (s.emitHalf h).r2 = s.r2 := rfl
@[simp] theorem emitHalf_r3 (h : Half) : (s.emitHalf h).r3 = s.r3 := rfl
@[simp] theorem emitHalf_status (h : Half) : (s.emitHalf h).status = s.status := rfl
@[simp] theorem emitHalf_playState (h : Half) : (s.emitHalf h).playState = s.playState := rfl
@[simp] theorem emitHalf_stopReq (h : Half) : (s.emitHalf h).stopReq = s.stopReq := rfl
@[simp] theorem emitHalf_doneFired (h : Half) : (s.emitHalf h).doneFired = s.doneFired := rfl
@[simp] theorem emitHalf_src (h : Half) : (s.emitHalf h).src = s.src := rfl
@[simp] theorem emitHalf_depth (h : Half) : (s.emitHalf h).depth = s.depth := rfl
@[simp] theorem emitHalf_mode (h : Half) : (s.emitHalf h).mode = s.mode := rfl
@[simp] theorem emitHalf_cur (h : Half) : (s.emitHalf h).cur = s.cur := rfl
@[simp] theorem emitHalf_endOff (h : Half) : (s.emitHalf h).endOff = s.endOff := rfl
@[simp] theorem emitHalf_pausePos (h : Half) : (s.emitHalf h).pausePos = s.pausePos := rfl
@[simp] theorem emitHalf_sampleRate (h : Half) : (s.emitHalf h).sampleRate = s.sampleRate := rfl
@[simp] theorem emitHalf_srcLen (h : Half) : (s.emitHalf h).srcLen = s.srcLen := rfl
@[simp] theorem emitHalf_fadeSec (h : Half) : (s.emitHalf h).fadeSec = s.fadeSec := rfl
@[simp] theorem emitHalf_fadeSmp (h : Half) : (s.emitHalf h).fadeSmp = s.fadeSmp := rfl
@[simp] theorem emitHalf_fadeInRem (h : Half) : (s.emitHalf h).fadeInRem = s.fadeInRem := rfl
@[simp] theorem emitHalf_fadeInTot (h : Half) : (s.emitHalf h).fadeInTot = s.fadeInTot := rfl
@[simp] theorem emitHalf_fadeOutRem (h : Half) : (s.emitHalf h).fadeOutRem = s.fadeOutRem := rfl
@[simp] theorem emitHalf_fadeOutTot (h : Half) : (s.emitHalf h).fadeOutTot = s.fadeOutTot := rfl
@[simp] theorem emitHalf_cfg (h : Half) : (s.emitHalf h).cfg = s.cfg := rfl
@[simp] theorem emitHalf_airGain (h : Half) : (s.emitHalf h).airGain = s.airGain := rfl
@[simp] theorem emitHalf_airPresetIdx (h : Half) : (s.emitHalf h).airPresetIdx = s.airPresetIdx := rfl
@[simp] theorem emitHalf_lcg (h : Half) : (s.emitHalf h).lcg = s.lcg := rfl
@[simp] theorem emitHalf_chL (h : Half) : (s.emitHalf h).chL = s.chL := rfl
@[simp] theorem emitHalf_chR (h : Half) : (s.emitHalf h).chR = s.chR := rfl
@[simp] theorem emitHalf_out (h : Half) : (s.emitHalf h).out = s.out := rfl
@[simp] theorem emitHalf_mem (h : Half) : (s.emitHalf h).mem = s.mem := rfl
@[simp] theorem emitHalf_params (h : Half) : (s.emitHalf h).params = s.params := rfl
@[simp] theorem emitHalf_inbox (h : Half) : (s.emitHalf h).inbox = s.inbox := rfl
@[simp] theorem emitHalf_volAnswers (h : Half) : (s.emitHalf h).volAnswers = s.volAnswers := rfl
@[simp] theorem emitHalf_volDraws (h : Half) : (s.emitHalf h).volDraws = s.volDraws := rfl
@[simp] theorem emitHalf_startAnswers (h : Half) : (s.emitHalf h).startAnswers = s.startAnswers := rfl
@[simp] theorem emitHalf_startDraws (h : Half) : (s.emitHalf h).startDraws = s.startDraws := rfl
@[simp] theorem emitHalf_log (h : Half) : (s.emitHalf h).log = s.log ++ [.half h (s.halfSlots h)] := rfl
@[simp] theorem emitHalf_stageOut (h : Half) : (s.emitHalf h).stageOut = s.stageOut := rfl
@[simp] theorem emitHalf_sourceChanged (h : Half) : (s.emitHalf h).sourceChanged = s.sourceChanged := rfl

/-! ### setChan -/

@[simp] theorem setChan_cmd (c : Channel) (ch : ChannelState) : (s.setChan c ch).cmd = s.cmd := by cases c <;> rfl
@[simp] theorem setChan_a0 (c : Channel) (ch : ChannelState) : (s.setChan c ch).a0 = s.a0 := by cases c <;> rfl
@[simp] theorem setChan_a1 (c : Channel) (ch : ChannelState) : (s.setChan c ch).a1 = s.a1 := by cases c <;> rfl
@[simp] theorem setChan_a2 (c : Channel) (ch : ChannelState) : (s.setChan c ch).a2 = s.a2 := by cases c <;> rfl
@[simp] theorem setChan_a3 (c : Channel) (ch : ChannelState) : (s.setChan c ch).a3 = s.a3 := by cases c <;> rfl
@[simp] theorem setChan_a4 (c : Channel) (ch : ChannelState) : (s.setChan c ch).a4 = s.a4 := by cases c <;> rfl
@[simp] theorem setChan_r0 (c : Channel) (ch : ChannelState) : (s.setChan c ch).r0 = s.r0 := by cases c <;> rfl
@[simp] theorem setChan_r1 (c : Channel) (ch : ChannelState) : (s.setChan c ch).r1 = s.r1 := by cases c <;> rfl
@[simp] theorem setChan_r2 (c : Channel) (ch : ChannelState) : (s.setChan c ch).r2 = s.r2 := by cases c <;> rfl
@[simp] theorem setChan_r3 (c : Channel) (ch : ChannelState) : (s.setChan c ch).r3 = s.r3 := by cases c <;> rfl
@[simp] theorem setChan_status (c : Channel) (ch : ChannelState) : (s.setChan c ch).status = s.status := by cases c <;> rfl
@[simp] theorem setChan_playState (c : Channel) (ch : ChannelState) : (s.setChan c ch).playState = s.playState := by cases c <;> rfl
@[simp] theorem setChan_stopReq (c : Channel) (ch : ChannelState) : (s.setChan c ch).stopReq = s.stopReq := by cases c <;> rfl
@[simp] theorem setChan_doneFired (c : Channel) (ch : ChannelState) : (s.setChan c ch).doneFired = s.doneFired := by cases c <;> rfl
@[simp] theorem setChan_src (c : Channel) (ch : ChannelState) : (s.setChan c ch).src = s.src := by cases c <;> rfl
@[simp] theorem setChan_depth (c : Channel) (ch : ChannelState) : (s.setChan c ch).depth = s.depth := by cases c <;> rfl
@[simp] theorem setChan_mode (c : Channel) (ch : ChannelState) : (s.setChan c ch).mode = s.mode := by cases c <;> rfl
@[simp] theorem setChan_cur (c : Channel) (ch : ChannelState) : (s.setChan c ch).cur = s.cur := by cases c <;> rfl
@[simp] theorem setChan_endOff (c : Channel) (ch : ChannelState) : (s.setChan c ch).endOff = s.endOff := by cases c <;> rfl
@[simp] theorem setChan_pausePos (c : Channel) (ch : ChannelState) : (s.setChan c ch).pausePos = s.pausePos := by cases c <;> rfl
@[simp] theorem setChan_sampleRate (c : Channel) (ch : ChannelState) : (s.setChan c ch).sampleRate = s.sampleRate := by cases c <;> rfl
@[simp] theorem setChan_srcLen (c : Channel) (ch : ChannelState) : (s.setChan c ch).srcLen = s.srcLen := by cases c <;> rfl
@[simp] theorem setChan_fadeSec (c : Channel) (ch : ChannelState) : (s.setChan c ch).fadeSec = s.fadeSec := by cases c <;> rfl
@[simp] theorem setChan_fadeSmp (c : Channel) (ch : ChannelState) : (s.setChan c ch).fadeSmp = s.fadeSmp := by cases c <;> rfl
@[simp] theorem setChan_fadeInRem (c : Channel) (ch : ChannelState) : (s.setChan c ch).fadeInRem = s.fadeInRem := by cases c <;> rfl
@[simp] theorem setChan_fadeInTot (c : Channel) (ch : ChannelState) : (s.setChan c ch).fadeInTot = s.fadeInTot := by cases c <;> rfl
@[simp] theorem setChan_fadeOutRem (c : Channel) (ch : ChannelState) : (s.setChan c ch).fadeOutRem = s.fadeOutRem := by cases c <;> rfl
@[simp] theorem setChan_fadeOutTot (c : Channel) (ch : ChannelState) : (s.setChan c ch).fadeOutTot = s.fadeOutTot := by cases c <;> rfl
@[simp] theorem setChan_cfg (c : Channel) (ch : ChannelState) : (s.setChan c ch).cfg = s.cfg := by cases c <;> rfl
@[simp] theorem setChan_airGain (c : Channel) (ch : ChannelState) : (s.setChan c ch).airGain = s.airGain := by cases c <;> rfl
@[simp] theorem setChan_airPresetIdx (c : Channel) (ch : ChannelState) : (s.setChan c ch).airPresetIdx = s.airPresetIdx := by cases c <;> rfl
@[simp] theorem setChan_lcg (c : Channel) (ch : ChannelState) : (s.setChan c ch).lcg = s.lcg := by cases c <;> rfl
@[simp] theorem setChan_out (c : Channel) (ch : ChannelState) : (s.setChan c ch).out = s.out := by cases c <;> rfl
@[simp] theorem setChan_mem (c : Channel) (ch : ChannelState) : (s.setChan c ch).mem = s.mem := by cases c <;> rfl
@[simp] theorem setChan_params (c : Channel) (ch : ChannelState) : (s.setChan c ch).params = s.params := by cases c <;> rfl
@[simp] theorem setChan_inbox (c : Channel) (ch : ChannelState) : (s.setChan c ch).inbox = s.inbox := by cases c <;> rfl
@[simp] theorem setChan_volAnswers (c : Channel) (ch : ChannelState) : (s.setChan c ch).volAnswers = s.volAnswers := by cases c <;> rfl
@[simp] theorem setChan_volDraws (c : Channel) (ch : ChannelState) : (s.setChan c ch).volDraws = s.volDraws := by cases c <;> rfl
@[simp] theorem setChan_startAnswers (c : Channel) (ch : ChannelState) : (s.setChan c ch).startAnswers = s.startAnswers := by cases c <;> rfl
@[simp] theorem setChan_startDraws (c : Channel) (ch : ChannelState) : (s.setChan c ch).startDraws = s.startDraws := by cases c <;> rfl
@[simp] theorem setChan_log (c : Channel) (ch : ChannelState) : (s.setChan c ch).log = s.log := by cases c <;> rfl
@[simp] theorem setChan_stageOut (c : Channel) (ch : ChannelState) : (s.setChan c ch).stageOut = s.stageOut := by cases c <;> rfl
@[simp] theorem setChan_sourceChanged (c : Channel) (ch : ChannelState) : (s.setChan c ch).sourceChanged = s.sourceChanged := by cases c <;> rfl

/-! ### putFrame -/

@[simp] theorem putFrame_cmd (k : Nat) (l r : S16) : (s.putFrame k l r).cmd = s.cmd := rfl
@[simp] theorem putFrame_a0 (k : Nat) (l r : S16) : (s.putFrame k l r).a0 = s.a0 := rfl
@[simp] theorem putFrame_a1 (k : Nat) (l r : S16) : (s.putFrame k l r).a1 = s.a1 := rfl
@[simp] theorem putFrame_a2 (k : Nat) (l r : S16) : (s.putFrame k l r).a2 = s.a2 := rfl
@[simp] theorem putFrame_a3 (k : Nat) (l r : S16) : (s.putFrame k l r).a3 = s.a3 := rfl
@[simp] theorem putFrame_a4 (k : Nat) (l r : S16) : (s.putFrame k l r).a4 = s.a4 := rfl
@[simp] theorem putFrame_r0 (k : Nat) (l r : S16) : (s.putFrame k l r).r0 = s.r0 := rfl
@[simp] theorem putFrame_r1 (k : Nat) (l r : S16) : (s.putFrame k l r).r1 = s.r1 := rfl
@[simp] theorem putFrame_r2 (k : Nat) (l r : S16) : (s.putFrame k l r).r2 = s.r2 := rfl
@[simp] theorem putFrame_r3 (k : Nat) (l r : S16) : (s.putFrame k l r).r3 = s.r3 := rfl
@[simp] theorem putFrame_status (k : Nat) (l r : S16) : (s.putFrame k l r).status = s.status := rfl
@[simp] theorem putFrame_playState (k : Nat) (l r : S16) : (s.putFrame k l r).playState = s.playState := rfl
@[simp] theorem putFrame_stopReq (k : Nat) (l r : S16) : (s.putFrame k l r).stopReq = s.stopReq := rfl
@[simp] theorem putFrame_doneFired (k : Nat) (l r : S16) : (s.putFrame k l r).doneFired = s.doneFired := rfl
@[simp] theorem putFrame_src (k : Nat) (l r : S16) : (s.putFrame k l r).src = s.src := rfl
@[simp] theorem putFrame_depth (k : Nat) (l r : S16) : (s.putFrame k l r).depth = s.depth := rfl
@[simp] theorem putFrame_mode (k : Nat) (l r : S16) : (s.putFrame k l r).mode = s.mode := rfl
@[simp] theorem putFrame_cur (k : Nat) (l r : S16) : (s.putFrame k l r).cur = s.cur := rfl
@[simp] theorem putFrame_endOff (k : Nat) (l r : S16) : (s.putFrame k l r).endOff = s.endOff := rfl
@[simp] theorem putFrame_pausePos (k : Nat) (l r : S16) : (s.putFrame k l r).pausePos = s.pausePos := rfl
@[simp] theorem putFrame_sampleRate (k : Nat) (l r : S16) : (s.putFrame k l r).sampleRate = s.sampleRate := rfl
@[simp] theorem putFrame_srcLen (k : Nat) (l r : S16) : (s.putFrame k l r).srcLen = s.srcLen := rfl
@[simp] theorem putFrame_fadeSec (k : Nat) (l r : S16) : (s.putFrame k l r).fadeSec = s.fadeSec := rfl
@[simp] theorem putFrame_fadeSmp (k : Nat) (l r : S16) : (s.putFrame k l r).fadeSmp = s.fadeSmp := rfl
@[simp] theorem putFrame_fadeInRem (k : Nat) (l r : S16) : (s.putFrame k l r).fadeInRem = s.fadeInRem := rfl
@[simp] theorem putFrame_fadeInTot (k : Nat) (l r : S16) : (s.putFrame k l r).fadeInTot = s.fadeInTot := rfl
@[simp] theorem putFrame_fadeOutRem (k : Nat) (l r : S16) : (s.putFrame k l r).fadeOutRem = s.fadeOutRem := rfl
@[simp] theorem putFrame_fadeOutTot (k : Nat) (l r : S16) : (s.putFrame k l r).fadeOutTot = s.fadeOutTot := rfl
@[simp] theorem putFrame_cfg (k : Nat) (l r : S16) : (s.putFrame k l r).cfg = s.cfg := rfl
@[simp] theorem putFrame_airGain (k : Nat) (l r : S16) : (s.putFrame k l r).airGain = s.airGain := rfl
@[simp] theorem putFrame_airPresetIdx (k : Nat) (l r : S16) : (s.putFrame k l r).airPresetIdx = s.airPresetIdx := rfl
@[simp] theorem putFrame_lcg (k : Nat) (l r : S16) : (s.putFrame k l r).lcg = s.lcg := rfl
@[simp] theorem putFrame_chL (k : Nat) (l r : S16) : (s.putFrame k l r).chL = s.chL := rfl
@[simp] theorem putFrame_chR (k : Nat) (l r : S16) : (s.putFrame k l r).chR = s.chR := rfl
@[simp] theorem putFrame_out (k : Nat) (l r : S16) : (s.putFrame k l r).out = Sys2Proof.Machine.putFrame s.out k l r := rfl
@[simp] theorem putFrame_mem (k : Nat) (l r : S16) : (s.putFrame k l r).mem = s.mem := rfl
@[simp] theorem putFrame_params (k : Nat) (l r : S16) : (s.putFrame k l r).params = s.params := rfl
@[simp] theorem putFrame_inbox (k : Nat) (l r : S16) : (s.putFrame k l r).inbox = s.inbox := rfl
@[simp] theorem putFrame_volAnswers (k : Nat) (l r : S16) : (s.putFrame k l r).volAnswers = s.volAnswers := rfl
@[simp] theorem putFrame_volDraws (k : Nat) (l r : S16) : (s.putFrame k l r).volDraws = s.volDraws := rfl
@[simp] theorem putFrame_startAnswers (k : Nat) (l r : S16) : (s.putFrame k l r).startAnswers = s.startAnswers := rfl
@[simp] theorem putFrame_startDraws (k : Nat) (l r : S16) : (s.putFrame k l r).startDraws = s.startDraws := rfl
@[simp] theorem putFrame_log (k : Nat) (l r : S16) : (s.putFrame k l r).log = s.log := rfl
@[simp] theorem putFrame_stageOut (k : Nat) (l r : S16) : (s.putFrame k l r).stageOut = s.stageOut := rfl
@[simp] theorem putFrame_sourceChanged (k : Nat) (l r : S16) : (s.putFrame k l r).sourceChanged = s.sourceChanged := rfl

/-! ### afterVolumeRead -/

@[simp] theorem afterVolumeRead_cmd : (s.afterVolumeRead).cmd = s.cmd := rfl
@[simp] theorem afterVolumeRead_a0 : (s.afterVolumeRead).a0 = s.a0 := rfl
@[simp] theorem afterVolumeRead_a1 : (s.afterVolumeRead).a1 = s.a1 := rfl
@[simp] theorem afterVolumeRead_a2 : (s.afterVolumeRead).a2 = s.a2 := rfl
@[simp] theorem afterVolumeRead_a3 : (s.afterVolumeRead).a3 = s.a3 := rfl
@[simp] theorem afterVolumeRead_a4 : (s.afterVolumeRead).a4 = s.a4 := rfl
@[simp] theorem afterVolumeRead_r0 : (s.afterVolumeRead).r0 = s.r0 := rfl
@[simp] theorem afterVolumeRead_r1 : (s.afterVolumeRead).r1 = s.r1 := rfl
@[simp] theorem afterVolumeRead_r2 : (s.afterVolumeRead).r2 = s.r2 := rfl
@[simp] theorem afterVolumeRead_r3 : (s.afterVolumeRead).r3 = s.r3 := rfl
@[simp] theorem afterVolumeRead_status : (s.afterVolumeRead).status = s.status := rfl
@[simp] theorem afterVolumeRead_playState : (s.afterVolumeRead).playState = s.playState := rfl
@[simp] theorem afterVolumeRead_stopReq : (s.afterVolumeRead).stopReq = s.stopReq := rfl
@[simp] theorem afterVolumeRead_doneFired : (s.afterVolumeRead).doneFired = s.doneFired := rfl
@[simp] theorem afterVolumeRead_src : (s.afterVolumeRead).src = s.src := rfl
@[simp] theorem afterVolumeRead_depth : (s.afterVolumeRead).depth = s.depth := rfl
@[simp] theorem afterVolumeRead_mode : (s.afterVolumeRead).mode = s.mode := rfl
@[simp] theorem afterVolumeRead_cur : (s.afterVolumeRead).cur = s.cur := rfl
@[simp] theorem afterVolumeRead_endOff : (s.afterVolumeRead).endOff = s.endOff := rfl
@[simp] theorem afterVolumeRead_pausePos : (s.afterVolumeRead).pausePos = s.pausePos := rfl
@[simp] theorem afterVolumeRead_sampleRate : (s.afterVolumeRead).sampleRate = s.sampleRate := rfl
@[simp] theorem afterVolumeRead_srcLen : (s.afterVolumeRead).srcLen = s.srcLen := rfl
@[simp] theorem afterVolumeRead_fadeSec : (s.afterVolumeRead).fadeSec = s.fadeSec := rfl
@[simp] theorem afterVolumeRead_fadeSmp : (s.afterVolumeRead).fadeSmp = s.fadeSmp := rfl
@[simp] theorem afterVolumeRead_fadeInRem : (s.afterVolumeRead).fadeInRem = s.fadeInRem := rfl
@[simp] theorem afterVolumeRead_fadeInTot : (s.afterVolumeRead).fadeInTot = s.fadeInTot := rfl
@[simp] theorem afterVolumeRead_fadeOutRem : (s.afterVolumeRead).fadeOutRem = s.fadeOutRem := rfl
@[simp] theorem afterVolumeRead_fadeOutTot : (s.afterVolumeRead).fadeOutTot = s.fadeOutTot := rfl
@[simp] theorem afterVolumeRead_cfg : (s.afterVolumeRead).cfg = s.cfg := rfl
@[simp] theorem afterVolumeRead_airGain : (s.afterVolumeRead).airGain = s.airGain := rfl
@[simp] theorem afterVolumeRead_airPresetIdx : (s.afterVolumeRead).airPresetIdx = s.airPresetIdx := rfl
@[simp] theorem afterVolumeRead_lcg : (s.afterVolumeRead).lcg = s.lcg := rfl
@[simp] theorem afterVolumeRead_chL : (s.afterVolumeRead).chL = s.chL := rfl
@[simp] theorem afterVolumeRead_chR : (s.afterVolumeRead).chR = s.chR := rfl
@[simp] theorem afterVolumeRead_out : (s.afterVolumeRead).out = s.out := rfl
@[simp] theorem afterVolumeRead_mem : (s.afterVolumeRead).mem = s.mem := rfl
@[simp] theorem afterVolumeRead_params : (s.afterVolumeRead).params = s.params := rfl
@[simp] theorem afterVolumeRead_inbox : (s.afterVolumeRead).inbox = s.inbox := rfl
@[simp] theorem afterVolumeRead_volAnswers : (s.afterVolumeRead).volAnswers = s.volAnswers.tail := rfl
@[simp] theorem afterVolumeRead_volDraws : (s.afterVolumeRead).volDraws = s.volDraws + 1 := rfl
@[simp] theorem afterVolumeRead_startAnswers : (s.afterVolumeRead).startAnswers = s.startAnswers := rfl
@[simp] theorem afterVolumeRead_startDraws : (s.afterVolumeRead).startDraws = s.startDraws := rfl
@[simp] theorem afterVolumeRead_log : (s.afterVolumeRead).log = s.log ++ [.volRead s.volumeAnswer] := rfl
@[simp] theorem afterVolumeRead_stageOut : (s.afterVolumeRead).stageOut = s.stageOut := rfl
@[simp] theorem afterVolumeRead_sourceChanged : (s.afterVolumeRead).sourceChanged = s.sourceChanged := rfl

/-! ### afterStart -/

@[simp] theorem afterStart_cmd : (s.afterStart).cmd = s.cmd := rfl
@[simp] theorem afterStart_a0 : (s.afterStart).a0 = s.a0 := rfl
@[simp] theorem afterStart_a1 : (s.afterStart).a1 = s.a1 := rfl
@[simp] theorem afterStart_a2 : (s.afterStart).a2 = s.a2 := rfl
@[simp] theorem afterStart_a3 : (s.afterStart).a3 = s.a3 := rfl
@[simp] theorem afterStart_a4 : (s.afterStart).a4 = s.a4 := rfl
@[simp] theorem afterStart_r0 : (s.afterStart).r0 = s.r0 := rfl
@[simp] theorem afterStart_r1 : (s.afterStart).r1 = s.r1 := rfl
@[simp] theorem afterStart_r2 : (s.afterStart).r2 = s.r2 := rfl
@[simp] theorem afterStart_r3 : (s.afterStart).r3 = s.r3 := rfl
@[simp] theorem afterStart_status : (s.afterStart).status = s.status := rfl
@[simp] theorem afterStart_playState : (s.afterStart).playState = s.playState := rfl
@[simp] theorem afterStart_stopReq : (s.afterStart).stopReq = s.stopReq := rfl
@[simp] theorem afterStart_doneFired : (s.afterStart).doneFired = s.doneFired := rfl
@[simp] theorem afterStart_src : (s.afterStart).src = s.src := rfl
@[simp] theorem afterStart_depth : (s.afterStart).depth = s.depth := rfl
@[simp] theorem afterStart_mode : (s.afterStart).mode = s.mode := rfl
@[simp] theorem afterStart_cur : (s.afterStart).cur = s.cur := rfl
@[simp] theorem afterStart_endOff : (s.afterStart).endOff = s.endOff := rfl
@[simp] theorem afterStart_pausePos : (s.afterStart).pausePos = s.pausePos := rfl
@[simp] theorem afterStart_sampleRate : (s.afterStart).sampleRate = s.sampleRate := rfl
@[simp] theorem afterStart_srcLen : (s.afterStart).srcLen = s.srcLen := rfl
@[simp] theorem afterStart_fadeSec : (s.afterStart).fadeSec = s.fadeSec := rfl
@[simp] theorem afterStart_fadeSmp : (s.afterStart).fadeSmp = s.fadeSmp := rfl
@[simp] theorem afterStart_fadeInRem : (s.afterStart).fadeInRem = s.fadeInRem := rfl
@[simp] theorem afterStart_fadeInTot : (s.afterStart).fadeInTot = s.fadeInTot := rfl
@[simp] theorem afterStart_fadeOutRem : (s.afterStart).fadeOutRem = s.fadeOutRem := rfl
@[simp] theorem afterStart_fadeOutTot : (s.afterStart).fadeOutTot = s.fadeOutTot := rfl
@[simp] theorem afterStart_cfg : (s.afterStart).cfg = s.cfg := rfl
@[simp] theorem afterStart_airGain : (s.afterStart).airGain = s.airGain := rfl
@[simp] theorem afterStart_airPresetIdx : (s.afterStart).airPresetIdx = s.airPresetIdx := rfl
@[simp] theorem afterStart_lcg : (s.afterStart).lcg = s.lcg := rfl
@[simp] theorem afterStart_chL : (s.afterStart).chL = s.chL := rfl
@[simp] theorem afterStart_chR : (s.afterStart).chR = s.chR := rfl
@[simp] theorem afterStart_out : (s.afterStart).out = s.out := rfl
@[simp] theorem afterStart_mem : (s.afterStart).mem = s.mem := rfl
@[simp] theorem afterStart_params : (s.afterStart).params = s.params := rfl
@[simp] theorem afterStart_inbox : (s.afterStart).inbox = s.inbox := rfl
@[simp] theorem afterStart_volAnswers : (s.afterStart).volAnswers = s.volAnswers := rfl
@[simp] theorem afterStart_volDraws : (s.afterStart).volDraws = s.volDraws := rfl
@[simp] theorem afterStart_startAnswers : (s.afterStart).startAnswers = s.startAnswers.tail := rfl
@[simp] theorem afterStart_startDraws : (s.afterStart).startDraws = s.startDraws + 1 := rfl
@[simp] theorem afterStart_log : (s.afterStart).log = s.log ++ [.transportStart s.params.bufLen s.startAnswer] := rfl
@[simp] theorem afterStart_stageOut : (s.afterStart).stageOut = s.stageOut := rfl
@[simp] theorem afterStart_sourceChanged : (s.afterStart).sourceChanged = s.sourceChanged := rfl

/-! ### fadeTick -/

@[simp] theorem fadeTick_cmd : (s.fadeTick).cmd = s.cmd := rfl
@[simp] theorem fadeTick_a0 : (s.fadeTick).a0 = s.a0 := rfl
@[simp] theorem fadeTick_a1 : (s.fadeTick).a1 = s.a1 := rfl
@[simp] theorem fadeTick_a2 : (s.fadeTick).a2 = s.a2 := rfl
@[simp] theorem fadeTick_a3 : (s.fadeTick).a3 = s.a3 := rfl
@[simp] theorem fadeTick_a4 : (s.fadeTick).a4 = s.a4 := rfl
@[simp] theorem fadeTick_r0 : (s.fadeTick).r0 = s.r0 := rfl
@[simp] theorem fadeTick_r1 : (s.fadeTick).r1 = s.r1 := rfl
@[simp] theorem fadeTick_r2 : (s.fadeTick).r2 = s.r2 := rfl
@[simp] theorem fadeTick_r3 : (s.fadeTick).r3 = s.r3 := rfl
@[simp] theorem fadeTick_status : (s.fadeTick).status = s.status := rfl
@[simp] theorem fadeTick_playState : (s.fadeTick).playState = s.playState := rfl
@[simp] theorem fadeTick_stopReq : (s.fadeTick).stopReq = s.stopReq := rfl
@[simp] theorem fadeTick_doneFired : (s.fadeTick).doneFired = s.doneFired := rfl
@[simp] theorem fadeTick_src : (s.fadeTick).src = s.src := rfl
@[simp] theorem fadeTick_depth : (s.fadeTick).depth = s.depth := rfl
@[simp] theorem fadeTick_mode : (s.fadeTick).mode = s.mode := rfl
@[simp] theorem fadeTick_cur : (s.fadeTick).cur = s.cur := rfl
@[simp] theorem fadeTick_endOff : (s.fadeTick).endOff = s.endOff := rfl
@[simp] theorem fadeTick_pausePos : (s.fadeTick).pausePos = s.pausePos := rfl
@[simp] theorem fadeTick_sampleRate : (s.fadeTick).sampleRate = s.sampleRate := rfl
@[simp] theorem fadeTick_srcLen : (s.fadeTick).srcLen = s.srcLen := rfl
@[simp] theorem fadeTick_fadeSec : (s.fadeTick).fadeSec = s.fadeSec := rfl
@[simp] theorem fadeTick_fadeSmp : (s.fadeTick).fadeSmp = s.fadeSmp := rfl
@[simp] theorem fadeTick_fadeInRem : (s.fadeTick).fadeInRem = if s.fadeInRem = 0 then s.fadeInRem else s.fadeInRem - 1 := rfl
@[simp] theorem fadeTick_fadeInTot : (s.fadeTick).fadeInTot = s.fadeInTot := rfl
@[simp] theorem fadeTick_fadeOutRem : (s.fadeTick).fadeOutRem = if s.playState = .pausing ∧ s.fadeOutRem ≠ 0 then s.fadeOutRem - 1 else s.fadeOutRem := rfl
@[simp] theorem fadeTick_fadeOutTot : (s.fadeTick).fadeOutTot = s.fadeOutTot := rfl
@[simp] theorem fadeTick_cfg : (s.fadeTick).cfg = s.cfg := rfl
@[simp] theorem fadeTick_airGain : (s.fadeTick).airGain = s.airGain := rfl
@[simp] theorem fadeTick_airPresetIdx : (s.fadeTick).airPresetIdx = s.airPresetIdx := rfl
@[simp] theorem fadeTick_lcg : (s.fadeTick).lcg = s.lcg := rfl
@[simp] theorem fadeTick_chL : (s.fadeTick).chL = s.chL := rfl
@[simp] theorem fadeTick_chR : (s.fadeTick).chR = s.chR := rfl
@[simp] theorem fadeTick_out : (s.fadeTick).out = s.out := rfl
@[simp] theorem fadeTick_mem : (s.fadeTick).mem = s.mem := rfl
@[simp] theorem fadeTick_params : (s.fadeTick).params = s.params := rfl
@[simp] theorem fadeTick_inbox : (s.fadeTick).inbox = s.inbox := rfl
@[simp] theorem fadeTick_volAnswers : (s.fadeTick).volAnswers = s.volAnswers := rfl
@[simp] theorem fadeTick_volDraws : (s.fadeTick).volDraws = s.volDraws := rfl
@[simp] theorem fadeTick_startAnswers : (s.fadeTick).startAnswers = s.startAnswers := rfl
@[simp] theorem fadeTick_startDraws : (s.fadeTick).startDraws = s.startDraws := rfl
@[simp] theorem fadeTick_log : (s.fadeTick).log = s.log := rfl
@[simp] theorem fadeTick_stageOut : (s.fadeTick).stageOut = s.stageOut := rfl
@[simp] theorem fadeTick_sourceChanged : (s.fadeTick).sourceChanged = s.sourceChanged := rfl

/-! ### advance -/

@[simp] theorem advance_cmd : (s.advance).cmd = s.cmd := rfl
@[simp] theorem advance_a0 : (s.advance).a0 = s.a0 := rfl
@[simp] theorem advance_a1 : (s.advance).a1 = s.a1 := rfl
@[simp] theorem advance_a2 : (s.advance).a2 = s.a2 := rfl
@[simp] theorem advance_a3 : (s.advance).a3 = s.a3 := rfl
@[simp] theorem advance_a4 : (s.advance).a4 = s.a4 := rfl
@[simp] theorem advance_r0 : (s.advance).r0 = s.r0 := rfl
@[simp] theorem advance_r1 : (s.advance).r1 = s.r1 := rfl
@[simp] theorem advance_r2 : (s.advance).r2 = s.r2 := rfl
@[simp] theorem advance_r3 : (s.advance).r3 = s.r3 := rfl
@[simp] theorem advance_status : (s.advance).status = s.status := rfl
@[simp] theorem advance_playState : (s.advance).playState = s.playState := rfl
@[simp] theorem advance_stopReq : (s.advance).stopReq = s.stopReq := rfl
@[simp] theorem advance_doneFired : (s.advance).doneFired = s.doneFired := rfl
@[simp] theorem advance_src : (s.advance).src = s.src := rfl
@[simp] theorem advance_depth : (s.advance).depth = s.depth := rfl
@[simp] theorem advance_mode : (s.advance).mode = s.mode := rfl
@[simp] theorem advance_cur : (s.advance).cur = sat32 (s.cur.toNat + s.stepElems) := rfl
@[simp] theorem advance_endOff : (s.advance).endOff = s.endOff := rfl
@[simp] theorem advance_pausePos : (s.advance).pausePos = s.pausePos := rfl
@[simp] theorem advance_sampleRate : (s.advance).sampleRate = s.sampleRate := rfl
@[simp] theorem advance_srcLen : (s.advance).srcLen = s.srcLen := rfl
@[simp] theorem advance_fadeSec : (s.advance).fadeSec = s.fadeSec := rfl
@[simp] theorem advance_fadeSmp : (s.advance).fadeSmp = s.fadeSmp := rfl
@[simp] theorem advance_fadeInRem : (s.advance).fadeInRem = s.fadeInRem := rfl
@[simp] theorem advance_fadeInTot : (s.advance).fadeInTot = s.fadeInTot := rfl
@[simp] theorem advance_fadeOutRem : (s.advance).fadeOutRem = s.fadeOutRem := rfl
@[simp] theorem advance_fadeOutTot : (s.advance).fadeOutTot = s.fadeOutTot := rfl
@[simp] theorem advance_cfg : (s.advance).cfg = s.cfg := rfl
@[simp] theorem advance_airGain : (s.advance).airGain = s.airGain := rfl
@[simp] theorem advance_airPresetIdx : (s.advance).airPresetIdx = s.airPresetIdx := rfl
@[simp] theorem advance_lcg : (s.advance).lcg = s.lcg := rfl
@[simp] theorem advance_chL : (s.advance).chL = s.chL := rfl
@[simp] theorem advance_chR : (s.advance).chR = s.chR := rfl
@[simp] theorem advance_out : (s.advance).out = s.out := rfl
@[simp] theorem advance_mem : (s.advance).mem = s.mem := rfl
@[simp] theorem advance_params : (s.advance).params = s.params := rfl
@[simp] theorem advance_inbox : (s.advance).inbox = s.inbox := rfl
@[simp] theorem advance_volAnswers : (s.advance).volAnswers = s.volAnswers := rfl
@[simp] theorem advance_volDraws : (s.advance).volDraws = s.volDraws := rfl
@[simp] theorem advance_startAnswers : (s.advance).startAnswers = s.startAnswers := rfl
@[simp] theorem advance_startDraws : (s.advance).startDraws = s.startDraws := rfl
@[simp] theorem advance_log : (s.advance).log = s.log := rfl
@[simp] theorem advance_stageOut : (s.advance).stageOut = s.stageOut := rfl
@[simp] theorem advance_sourceChanged : (s.advance).sourceChanged = s.sourceChanged := rfl

/-! ### silenceHalf -/

@[simp] theorem silenceHalf_cmd (h : Half) : (s.silenceHalf h).cmd = s.cmd := rfl
@[simp] theorem silenceHalf_a0 (h : Half) : (s.silenceHalf h).a0 = s.a0 := rfl
@[simp] theorem silenceHalf_a1 (h : Half) : (s.silenceHalf h).a1 = s.a1 := rfl
@[simp] theorem silenceHalf_a2 (h : Half) : (s.silenceHalf h).a2 = s.a2 := rfl
@[simp] theorem silenceHalf_a3 (h : Half) : (s.silenceHalf h).a3 = s.a3 := rfl
@[simp] theorem silenceHalf_a4 (h : Half) : (s.silenceHalf h).a4 = s.a4 := rfl
@[simp] theorem silenceHalf_r0 (h : Half) : (s.silenceHalf h).r0 = s.r0 := rfl
@[simp] theorem silenceHalf_r1 (h : Half) : (s.silenceHalf h).r1 = s.r1 := rfl
@[simp] theorem silenceHalf_r2 (h : Half) : (s.silenceHalf h).r2 = s.r2 := rfl
@[simp] theorem silenceHalf_r3 (h : Half) : (s.silenceHalf h).r3 = s.r3 := rfl
@[simp] theorem silenceHalf_status (h : Half) : (s.silenceHalf h).status = s.status := rfl
@[simp] theorem silenceHalf_playState (h : Half) : (s.silenceHalf h).playState = s.playState := rfl
@[simp] theorem silenceHalf_stopReq (h : Half) : (s.silenceHalf h).stopReq = s.stopReq := rfl
@[simp] theorem silenceHalf_doneFired (h : Half) : (s.silenceHalf h).doneFired = s.doneFired := rfl
@[simp] theorem silenceHalf_src (h : Half) : (s.silenceHalf h).src = s.src := rfl
@[simp] theorem silenceHalf_depth (h : Half) : (s.silenceHalf h).depth = s.depth := rfl
@[simp] theorem silenceHalf_mode (h : Half) : (s.silenceHalf h).mode = s.mode := rfl
@[simp] theorem silenceHalf_cur (h : Half) : (s.silenceHalf h).cur = s.cur := rfl
@[simp] theorem silenceHalf_endOff (h : Half) : (s.silenceHalf h).endOff = s.endOff := rfl
@[simp] theorem silenceHalf_pausePos (h : Half) : (s.silenceHalf h).pausePos = s.pausePos := rfl
@[simp] theorem silenceHalf_sampleRate (h : Half) : (s.silenceHalf h).sampleRate = s.sampleRate := rfl
@[simp] theorem silenceHalf_srcLen (h : Half) : (s.silenceHalf h).srcLen = s.srcLen := rfl
@[simp] theorem silenceHalf_fadeSec (h : Half) : (s.silenceHalf h).fadeSec = s.fadeSec := rfl
@[simp] theorem silenceHalf_fadeSmp (h : Half) : (s.silenceHalf h).fadeSmp = s.fadeSmp := rfl
@[simp] theorem silenceHalf_fadeInRem (h : Half) : (s.silenceHalf h).fadeInRem = s.fadeInRem := rfl
@[simp] theorem silenceHalf_fadeInTot (h : Half) : (s.silenceHalf h).fadeInTot = s.fadeInTot := rfl
@[simp] theorem silenceHalf_fadeOutRem (h : Half) : (s.silenceHalf h).fadeOutRem = s.fadeOutRem := rfl
@[simp] theorem silenceHalf_fadeOutTot (h : Half) : (s.silenceHalf h).fadeOutTot = s.fadeOutTot := rfl
@[simp] theorem silenceHalf_cfg (h : Half) : (s.silenceHalf h).cfg = s.cfg := rfl
@[simp] theorem silenceHalf_airGain (h : Half) : (s.silenceHalf h).airGain = s.airGain := rfl
@[simp] theorem silenceHalf_airPresetIdx (h : Half) : (s.silenceHalf h).airPresetIdx = s.airPresetIdx := rfl
@[simp] theorem silenceHalf_lcg (h : Half) : (s.silenceHalf h).lcg = s.lcg := rfl
@[simp] theorem silenceHalf_chL (h : Half) : (s.silenceHalf h).chL = s.chL := rfl
@[simp] theorem silenceHalf_chR (h : Half) : (s.silenceHalf h).chR = s.chR := rfl
@[simp] theorem silenceHalf_out (h : Half) : (s.silenceHalf h).out = silenceFrames s.halfFrames (halfIndex h * s.halfFrames) s.out := rfl
@[simp] theorem silenceHalf_mem (h : Half) : (s.silenceHalf h).mem = s.mem := rfl
@[simp] theorem silenceHalf_params (h : Half) : (s.silenceHalf h).params = s.params := rfl
@[simp] theorem silenceHalf_inbox (h : Half) : (s.silenceHalf h).inbox = s.inbox := rfl
@[simp] theorem silenceHalf_volAnswers (h : Half) : (s.silenceHalf h).volAnswers = s.volAnswers := rfl
@[simp] theorem silenceHalf_volDraws (h : Half) : (s.silenceHalf h).volDraws = s.volDraws := rfl
@[simp] theorem silenceHalf_startAnswers (h : Half) : (s.silenceHalf h).startAnswers = s.startAnswers := rfl
@[simp] theorem silenceHalf_startDraws (h : Half) : (s.silenceHalf h).startDraws = s.startDraws := rfl
@[simp] theorem silenceHalf_stageOut (h : Half) : (s.silenceHalf h).stageOut = s.stageOut := rfl
@[simp] theorem silenceHalf_sourceChanged (h : Half) : (s.silenceHalf h).sourceChanged = s.sourceChanged := rfl

/-! ### afterChain -/

@[simp] theorem afterChain_cmd (c : Channel) (x : S16) (p : Nat) : (afterChain s c x p).cmd = s.cmd := by cases c <;> rfl
@[simp] theorem afterChain_a0 (c : Channel) (x : S16) (p : Nat) : (afterChain s c x p).a0 = s.a0 := by cases c <;> rfl
@[simp] theorem afterChain_a1 (c : Channel) (x : S16) (p : Nat) : (afterChain s c x p).a1 = s.a1 := by cases c <;> rfl
@[simp] theorem afterChain_a2 (c : Channel) (x : S16) (p : Nat) : (afterChain s c x p).a2 = s.a2 := by cases c <;> rfl
@[simp] theorem afterChain_a3 (c : Channel) (x : S16) (p : Nat) : (afterChain s c x p).a3 = s.a3 := by cases c <;> rfl
@[simp] theorem afterChain_a4 (c : Channel) (x : S16) (p : Nat) : (afterChain s c x p).a4 = s.a4 := by cases c <;> rfl
@[simp] theorem afterChain_r0 (c : Channel) (x : S16) (p : Nat) : (afterChain s c x p).r0 = s.r0 := by cases c <;> rfl
@[simp] theorem afterChain_r1 (c : Channel) (x : S16) (p : Nat) : (afterChain s c x p).r1 = s.r1 := by cases c <;> rfl
@[simp] theorem afterChain_r2 (c : Channel) (x : S16) (p : Nat) : (afterChain s c x p).r2 = s.r2 := by cases c <;> rfl
@[simp] theorem afterChain_r3 (c : Channel) (x : S16) (p : Nat) : (afterChain s c x p).r3 = s.r3 := by cases c <;> rfl
@[simp] theorem afterChain_status (c : Channel) (x : S16) (p : Nat) : (afterChain s c x p).status = s.status := by cases c <;> rfl
@[simp] theorem afterChain_playState (c : Channel) (x : S16) (p : Nat) : (afterChain s c x p).playState = s.playState := by cases c <;> rfl
@[simp] theorem afterChain_stopReq (c : Channel) (x : S16) (p : Nat) : (afterChain s c x p).stopReq = s.stopReq := by cases c <;> rfl
@[simp] theorem afterChain_doneFired (c : Channel) (x : S16) (p : Nat) : (afterChain s c x p).doneFired = s.doneFired := by cases c <;> rfl
@[simp] theorem afterChain_src (c : Channel) (x : S16) (p : Nat) : (afterChain s c x p).src = s.src := by cases c <;> rfl
@[simp] theorem afterChain_depth (c : Channel) (x : S16) (p : Nat) : (afterChain s c x p).depth = s.depth := by cases c <;> rfl
@[simp] theorem afterChain_mode (c : Channel) (x : S16) (p : Nat) : (afterChain s c x p).mode = s.mode := by cases c <;> rfl
@[simp] theorem afterChain_cur (c : Channel) (x : S16) (p : Nat) : (afterChain s c x p).cur = s.cur := by cases c <;> rfl
@[simp] theorem afterChain_endOff (c : Channel) (x : S16) (p : Nat) : (afterChain s c x p).endOff = s.endOff := by cases c <;> rfl
@[simp] theorem afterChain_pausePos (c : Channel) (x : S16) (p : Nat) : (afterChain s c x p).pausePos = s.pausePos := by cases c <;> rfl
@[simp] theorem afterChain_sampleRate (c : Channel) (x : S16) (p : Nat) : (afterChain s c x p).sampleRate = s.sampleRate := by cases c <;> rfl
@[simp] theorem afterChain_srcLen (c : Channel) (x : S16) (p : Nat) : (afterChain s c x p).srcLen = s.srcLen := by cases c <;> rfl
@[simp] theorem afterChain_fadeSec (c : Channel) (x : S16) (p : Nat) : (afterChain s c x p).fadeSec = s.fadeSec := by cases c <;> rfl
@[simp] theorem afterChain_fadeSmp (c : Channel) (x : S16) (p : Nat) : (afterChain s c x p).fadeSmp = s.fadeSmp := by cases c <;> rfl
@[simp] theorem afterChain_fadeInRem (c : Channel) (x : S16) (p : Nat) : (afterChain s c x p).fadeInRem = s.fadeInRem := by cases c <;> rfl
@[simp] theorem afterChain_fadeInTot (c : Channel) (x : S16) (p : Nat) : (afterChain s c x p).fadeInTot = s.fadeInTot := by cases c <;> rfl
@[simp] theorem afterChain_fadeOutRem (c : Channel) (x : S16) (p : Nat) : (afterChain s c x p).fadeOutRem = s.fadeOutRem := by cases c <;> rfl
@[simp] theorem afterChain_fadeOutTot (c : Channel) (x : S16) (p : Nat) : (afterChain s c x p).fadeOutTot = s.fadeOutTot := by cases c <;> rfl
@[simp] theorem afterChain_cfg (c : Channel) (x : S16) (p : Nat) : (afterChain s c x p).cfg = s.cfg := by cases c <;> rfl
@[simp] theorem afterChain_airGain (c : Channel) (x : S16) (p : Nat) : (afterChain s c x p).airGain = s.airGain := by cases c <;> rfl
@[simp] theorem afterChain_airPresetIdx (c : Channel) (x : S16) (p : Nat) : (afterChain s c x p).airPresetIdx = s.airPresetIdx := by cases c <;> rfl
@[simp] theorem afterChain_lcg (c : Channel) (x : S16) (p : Nat) : (afterChain s c x p).lcg = s.lcg := by cases c <;> rfl
@[simp] theorem afterChain_out (c : Channel) (x : S16) (p : Nat) : (afterChain s c x p).out = s.out := by cases c <;> rfl
@[simp] theorem afterChain_mem (c : Channel) (x : S16) (p : Nat) : (afterChain s c x p).mem = s.mem := by cases c <;> rfl
@[simp] theorem afterChain_params (c : Channel) (x : S16) (p : Nat) : (afterChain s c x p).params = s.params := by cases c <;> rfl
@[simp] theorem afterChain_inbox (c : Channel) (x : S16) (p : Nat) : (afterChain s c x p).inbox = s.inbox := by cases c <;> rfl
@[simp] theorem afterChain_volAnswers (c : Channel) (x : S16) (p : Nat) : (afterChain s c x p).volAnswers = s.volAnswers := by cases c <;> rfl
@[simp] theorem afterChain_volDraws (c : Channel) (x : S16) (p : Nat) : (afterChain s c x p).volDraws = s.volDraws := by cases c <;> rfl
@[simp] theorem afterChain_startAnswers (c : Channel) (x : S16) (p : Nat) : (afterChain s c x p).startAnswers = s.startAnswers := by cases c <;> rfl
@[simp] theorem afterChain_startDraws (c : Channel) (x : S16) (p : Nat) : (afterChain s c x p).startDraws = s.startDraws := by cases c <;> rfl
@[simp] theorem afterChain_log (c : Channel) (x : S16) (p : Nat) : (afterChain s c x p).log = s.log := by cases c <;> rfl
@[simp] theorem afterChain_stageOut (c : Channel) (x : S16) (p : Nat) : (afterChain s c x p).stageOut = s.stageOut := by cases c <;> rfl
@[simp] theorem afterChain_sourceChanged (c : Channel) (x : S16) (p : Nat) : (afterChain s c x p).sourceChanged = s.sourceChanged := by cases c <;> rfl

/-! ### hostStore -/

@[simp] theorem hostStore_cmd (a : Word) (b : Byte) : (hostStore s a b).cmd = s.cmd := rfl
@[simp] theorem hostStore_a0 (a : Word) (b : Byte) : (hostStore s a b).a0 = s.a0 := rfl
@[simp] theorem hostStore_a1 (a : Word) (b : Byte) : (hostStore s a b).a1 = s.a1 := rfl
@[simp] theorem hostStore_a2 (a : Word) (b : Byte) : (hostStore s a b).a2 = s.a2 := rfl
@[simp] theorem hostStore_a3 (a : Word) (b : Byte) : (hostStore s a b).a3 = s.a3 := rfl
@[simp] theorem hostStore_a4 (a : Word) (b : Byte) : (hostStore s a b).a4 = s.a4 := rfl
@[simp] theorem hostStore_r0 (a : Word) (b : Byte) : (hostStore s a b).r0 = s.r0 := rfl
@[simp] theorem hostStore_r1 (a : Word) (b : Byte) : (hostStore s a b).r1 = s.r1 := rfl
@[simp] theorem hostStore_r2 (a : Word) (b : Byte) : (hostStore s a b).r2 = s.r2 := rfl
@[simp] theorem hostStore_r3 (a : Word) (b : Byte) : (hostStore s a b).r3 = s.r3 := rfl
@[simp] theorem hostStore_status (a : Word) (b : Byte) : (hostStore s a b).status = s.status := rfl
@[simp] theorem hostStore_playState (a : Word) (b : Byte) : (hostStore s a b).playState = s.playState := rfl
@[simp] theorem hostStore_stopReq (a : Word) (b : Byte) : (hostStore s a b).stopReq = s.stopReq := rfl
@[simp] theorem hostStore_doneFired (a : Word) (b : Byte) : (hostStore s a b).doneFired = s.doneFired := rfl
@[simp] theorem hostStore_src (a : Word) (b : Byte) : (hostStore s a b).src = s.src := rfl
@[simp] theorem hostStore_depth (a : Word) (b : Byte) : (hostStore s a b).depth = s.depth := rfl
@[simp] theorem hostStore_mode (a : Word) (b : Byte) : (hostStore s a b).mode = s.mode := rfl
@[simp] theorem hostStore_cur (a : Word) (b : Byte) : (hostStore s a b).cur = s.cur := rfl
@[simp] theorem hostStore_endOff (a : Word) (b : Byte) : (hostStore s a b).endOff = s.endOff := rfl
@[simp] theorem hostStore_pausePos (a : Word) (b : Byte) : (hostStore s a b).pausePos = s.pausePos := rfl
@[simp] theorem hostStore_sampleRate (a : Word) (b : Byte) : (hostStore s a b).sampleRate = s.sampleRate := rfl
@[simp] theorem hostStore_srcLen (a : Word) (b : Byte) : (hostStore s a b).srcLen = s.srcLen := rfl
@[simp] theorem hostStore_fadeSec (a : Word) (b : Byte) : (hostStore s a b).fadeSec = s.fadeSec := rfl
@[simp] theorem hostStore_fadeSmp (a : Word) (b : Byte) : (hostStore s a b).fadeSmp = s.fadeSmp := rfl
@[simp] theorem hostStore_fadeInRem (a : Word) (b : Byte) : (hostStore s a b).fadeInRem = s.fadeInRem := rfl
@[simp] theorem hostStore_fadeInTot (a : Word) (b : Byte) : (hostStore s a b).fadeInTot = s.fadeInTot := rfl
@[simp] theorem hostStore_fadeOutRem (a : Word) (b : Byte) : (hostStore s a b).fadeOutRem = s.fadeOutRem := rfl
@[simp] theorem hostStore_fadeOutTot (a : Word) (b : Byte) : (hostStore s a b).fadeOutTot = s.fadeOutTot := rfl
@[simp] theorem hostStore_cfg (a : Word) (b : Byte) : (hostStore s a b).cfg = s.cfg := rfl
@[simp] theorem hostStore_airGain (a : Word) (b : Byte) : (hostStore s a b).airGain = s.airGain := rfl
@[simp] theorem hostStore_airPresetIdx (a : Word) (b : Byte) : (hostStore s a b).airPresetIdx = s.airPresetIdx := rfl
@[simp] theorem hostStore_lcg (a : Word) (b : Byte) : (hostStore s a b).lcg = s.lcg := rfl
@[simp] theorem hostStore_chL (a : Word) (b : Byte) : (hostStore s a b).chL = s.chL := rfl
@[simp] theorem hostStore_chR (a : Word) (b : Byte) : (hostStore s a b).chR = s.chR := rfl
@[simp] theorem hostStore_out (a : Word) (b : Byte) : (hostStore s a b).out = s.out := rfl
@[simp] theorem hostStore_mem (a : Word) (b : Byte) : (hostStore s a b).mem = memWrite s.mem a.toNat b := rfl
@[simp] theorem hostStore_params (a : Word) (b : Byte) : (hostStore s a b).params = s.params := rfl
@[simp] theorem hostStore_inbox (a : Word) (b : Byte) : (hostStore s a b).inbox = s.inbox := rfl
@[simp] theorem hostStore_volAnswers (a : Word) (b : Byte) : (hostStore s a b).volAnswers = s.volAnswers := rfl
@[simp] theorem hostStore_volDraws (a : Word) (b : Byte) : (hostStore s a b).volDraws = s.volDraws := rfl
@[simp] theorem hostStore_startAnswers (a : Word) (b : Byte) : (hostStore s a b).startAnswers = s.startAnswers := rfl
@[simp] theorem hostStore_startDraws (a : Word) (b : Byte) : (hostStore s a b).startDraws = s.startDraws := rfl
@[simp] theorem hostStore_log (a : Word) (b : Byte) : (hostStore s a b).log = s.log := rfl
@[simp] theorem hostStore_stageOut (a : Word) (b : Byte) : (hostStore s a b).stageOut = s.stageOut := rfl
@[simp] theorem hostStore_sourceChanged (a : Word) (b : Byte) : (hostStore s a b).sourceChanged = (s.sourceChanged || s.storeChangesSource a.toNat b) := rfl

/-! ### writeOperand -/

@[simp] theorem writeOperand_cmd (r : OperandReg) (v : Word) : (s.writeOperand r v).cmd = s.cmd := by cases r <;> rfl
@[simp] theorem writeOperand_r0 (r : OperandReg) (v : Word) : (s.writeOperand r v).r0 = s.r0 := by cases r <;> rfl
@[simp] theorem writeOperand_r1 (r : OperandReg) (v : Word) : (s.writeOperand r v).r1 = s.r1 := by cases r <;> rfl
@[simp] theorem writeOperand_r2 (r : OperandReg) (v : Word) : (s.writeOperand r v).r2 = s.r2 := by cases r <;> rfl
@[simp] theorem writeOperand_r3 (r : OperandReg) (v : Word) : (s.writeOperand r v).r3 = s.r3 := by cases r <;> rfl
@[simp] theorem writeOperand_status (r : OperandReg) (v : Word) : (s.writeOperand r v).status = s.status := by cases r <;> rfl
@[simp] theorem writeOperand_playState (r : OperandReg) (v : Word) : (s.writeOperand r v).playState = s.playState := by cases r <;> rfl
@[simp] theorem writeOperand_stopReq (r : OperandReg) (v : Word) : (s.writeOperand r v).stopReq = s.stopReq := by cases r <;> rfl
@[simp] theorem writeOperand_doneFired (r : OperandReg) (v : Word) : (s.writeOperand r v).doneFired = s.doneFired := by cases r <;> rfl
@[simp] theorem writeOperand_src (r : OperandReg) (v : Word) : (s.writeOperand r v).src = s.src := by cases r <;> rfl
@[simp] theorem writeOperand_depth (r : OperandReg) (v : Word) : (s.writeOperand r v).depth = s.depth := by cases r <;> rfl
@[simp] theorem writeOperand_mode (r : OperandReg) (v : Word) : (s.writeOperand r v).mode = s.mode := by cases r <;> rfl
@[simp] theorem writeOperand_cur (r : OperandReg) (v : Word) : (s.writeOperand r v).cur = s.cur := by cases r <;> rfl
@[simp] theorem writeOperand_endOff (r : OperandReg) (v : Word) : (s.writeOperand r v).endOff = s.endOff := by cases r <;> rfl
@[simp] theorem writeOperand_pausePos (r : OperandReg) (v : Word) : (s.writeOperand r v).pausePos = s.pausePos := by cases r <;> rfl
@[simp] theorem writeOperand_sampleRate (r : OperandReg) (v : Word) : (s.writeOperand r v).sampleRate = s.sampleRate := by cases r <;> rfl
@[simp] theorem writeOperand_srcLen (r : OperandReg) (v : Word) : (s.writeOperand r v).srcLen = s.srcLen := by cases r <;> rfl
@[simp] theorem writeOperand_fadeSec (r : OperandReg) (v : Word) : (s.writeOperand r v).fadeSec = s.fadeSec := by cases r <;> rfl
@[simp] theorem writeOperand_fadeSmp (r : OperandReg) (v : Word) : (s.writeOperand r v).fadeSmp = s.fadeSmp := by cases r <;> rfl
@[simp] theorem writeOperand_fadeInRem (r : OperandReg) (v : Word) : (s.writeOperand r v).fadeInRem = s.fadeInRem := by cases r <;> rfl
@[simp] theorem writeOperand_fadeInTot (r : OperandReg) (v : Word) : (s.writeOperand r v).fadeInTot = s.fadeInTot := by cases r <;> rfl
@[simp] theorem writeOperand_fadeOutRem (r : OperandReg) (v : Word) : (s.writeOperand r v).fadeOutRem = s.fadeOutRem := by cases r <;> rfl
@[simp] theorem writeOperand_fadeOutTot (r : OperandReg) (v : Word) : (s.writeOperand r v).fadeOutTot = s.fadeOutTot := by cases r <;> rfl
@[simp] theorem writeOperand_cfg (r : OperandReg) (v : Word) : (s.writeOperand r v).cfg = s.cfg := by cases r <;> rfl
@[simp] theorem writeOperand_airGain (r : OperandReg) (v : Word) : (s.writeOperand r v).airGain = s.airGain := by cases r <;> rfl
@[simp] theorem writeOperand_airPresetIdx (r : OperandReg) (v : Word) : (s.writeOperand r v).airPresetIdx = s.airPresetIdx := by cases r <;> rfl
@[simp] theorem writeOperand_lcg (r : OperandReg) (v : Word) : (s.writeOperand r v).lcg = s.lcg := by cases r <;> rfl
@[simp] theorem writeOperand_chL (r : OperandReg) (v : Word) : (s.writeOperand r v).chL = s.chL := by cases r <;> rfl
@[simp] theorem writeOperand_chR (r : OperandReg) (v : Word) : (s.writeOperand r v).chR = s.chR := by cases r <;> rfl
@[simp] theorem writeOperand_out (r : OperandReg) (v : Word) : (s.writeOperand r v).out = s.out := by cases r <;> rfl
@[simp] theorem writeOperand_mem (r : OperandReg) (v : Word) : (s.writeOperand r v).mem = s.mem := by cases r <;> rfl
@[simp] theorem writeOperand_params (r : OperandReg) (v : Word) : (s.writeOperand r v).params = s.params := by cases r <;> rfl
@[simp] theorem writeOperand_inbox (r : OperandReg) (v : Word) : (s.writeOperand r v).inbox = s.inbox := by cases r <;> rfl
@[simp] theorem writeOperand_volAnswers (r : OperandReg) (v : Word) : (s.writeOperand r v).volAnswers = s.volAnswers := by cases r <;> rfl
@[simp] theorem writeOperand_volDraws (r : OperandReg) (v : Word) : (s.writeOperand r v).volDraws = s.volDraws := by cases r <;> rfl
@[simp] theorem writeOperand_startAnswers (r : OperandReg) (v : Word) : (s.writeOperand r v).startAnswers = s.startAnswers := by cases r <;> rfl
@[simp] theorem writeOperand_startDraws (r : OperandReg) (v : Word) : (s.writeOperand r v).startDraws = s.startDraws := by cases r <;> rfl
@[simp] theorem writeOperand_log (r : OperandReg) (v : Word) : (s.writeOperand r v).log = s.log := by cases r <;> rfl
@[simp] theorem writeOperand_stageOut (r : OperandReg) (v : Word) : (s.writeOperand r v).stageOut = s.stageOut := by cases r <;> rfl
@[simp] theorem writeOperand_sourceChanged (r : OperandReg) (v : Word) : (s.writeOperand r v).sourceChanged = s.sourceChanged := by cases r <;> rfl

/-! ### The other channel, and derived values -/

@[simp] theorem setChan_chan (c : Channel) (ch : ChannelState) : (s.setChan c ch).chan c = ch := by
  cases c <;> rfl

@[simp] theorem setChan_left_chR (ch : ChannelState) : (s.setChan .left ch).chR = s.chR := rfl

@[simp] theorem setChan_right_chL (ch : ChannelState) : (s.setChan .right ch).chL = s.chL := rfl

theorem setChan_chan_ne {c d : Channel} (ch : ChannelState) (h : d ≠ c) :
    (s.setChan c ch).chan d = s.chan d := by
  cases c <;> cases d <;> first | rfl | exact absurd rfl h

@[simp] theorem setChan_self (c : Channel) : s.setChan c (s.chan c) = s := by cases c <;> rfl

@[simp] theorem setChan_setChan (c : Channel) (x y : ChannelState) :
    (s.setChan c x).setChan c y = s.setChan c y := by cases c <;> rfl

/-- The derived sizes depend on the parameters and the mode alone. -/
theorem sizes_of_eq {s t : State} (hp : t.params = s.params) (hm : t.mode = s.mode) :
    t.halfFrames = s.halfFrames ∧ t.elems = s.elems ∧ t.stepElems = s.stepElems := by
  simp [State.stepElems, State.halfFrames, State.elems, hp, hm]

end Sys2Proof.Machine
end

