-- ==== Sys2Proof/Machine/Debug.lean ====
section
/-! DEFINITION. The register numbers of 10_state.md R48, a model's debug view. The HOST cannot address
registers by number, so no step of the block depends on this file. -/

namespace Sys2Proof.Machine

/-- The fields of a channel record in R41's order. -/
def channelFields (ch : ChannelState) : List S16 :=
  [ch.dcXp, ch.dcYp, ch.lpYp, ch.bqX1, ch.bqX2, ch.bqY1, ch.bqY2, ch.airXp, ch.airYp]

/-- The value of a register by its number (R48): unsigned, but for the signed channel fields. -/
def debugRead (s : State) (n : Nat) : Option Int :=
  match n with
  | 0x00 => some s.cmd.toNat
  | 0x01 => some s.a0.toNat
  | 0x02 => some s.a1.toNat
  | 0x03 => some s.a2.toNat
  | 0x04 => some s.a3.toNat
  | 0x05 => some s.a4.toNat
  | 0x06 => some s.r0.toNat
  | 0x07 => some s.r1.toNat
  | 0x08 => some s.r2.toNat
  | 0x09 => some s.r3.toNat
  | 0x0A => some s.status.toNat
  | 0x20 => some (stateCode s.playState).toNat
  | 0x21 => some s.stopReq.toNat
  | 0x22 => some s.doneFired.toNat
  | 0x23 => some s.src.toNat
  | 0x24 => some s.depth.toNat
  | 0x25 => some s.mode.toNat
  | 0x26 => some s.cur.toNat
  | 0x27 => some s.endOff.toNat
  | 0x28 => some s.pausePos.toNat
  | 0x29 => some s.sampleRate.toNat
  | 0x30 => some s.fadeSec.playIn.toNat
  | 0x31 => some s.fadeSec.playOut.toNat
  | 0x32 => some s.fadeSec.pauseOut.toNat
  | 0x33 => some s.fadeSec.resumeIn.toNat
  | 0x34 => some s.fadeSmp.playIn.toNat
  | 0x35 => some s.fadeSmp.playOut.toNat
  | 0x36 => some s.fadeSmp.pauseOut.toNat
  | 0x37 => some s.fadeSmp.resumeIn.toNat
  | 0x38 => some s.fadeInRem.toNat
  | 0x39 => some s.fadeInTot.toNat
  | 0x3A => some s.fadeOutRem.toNat
  | 0x3B => some s.fadeOutTot.toNat
  | 0x40 => some (cfgWord0 s.cfg).toNat
  | 0x41 => some s.cfg.makeup8.toNat
  | 0x42 => some s.cfg.makeup16.toNat
  | 0x43 => some (cfgWord3 s.cfg).toNat
  | 0x44 => some s.airGain.toNat
  | 0x45 => some s.airPresetIdx.toNat
  | 0x46 => some s.lcg.toNat
  | _ =>
    if 0x50 ≤ n ∧ n < 0x60 then ((channelFields s.chL)[n - 0x50]?).map BitVec.toInt
    else if 0x60 ≤ n then ((channelFields s.chR)[n - 0x60]?).map BitVec.toInt
    else none

end Sys2Proof.Machine
end

