-- ==== Sys2Proof/Tests/Slice0.lean ====
section
/-! SUPPORT. The tests: the decoding of every row from a word written out from its encoding, the smoke test
of the well-formedness checks, and vectors of spec/95_test_vectors.md (named by their section there). -/

namespace Sys2Proof.Tests

open Sys2Proof Sys2Proof.Machine

/-! ### Decoding: every row, from the words of R93, R96 and R97 -/

/-- What the decoder answers, with a rejection as `none`. -/
def decoded (w : PortWord) : Option Instr :=
  match decode w with
  | .ok i => some i
  | .error _ => none

/-- Bits 31:8 zero, bits 7:0 the opcode (R86, R93). -/
theorem test_decode_playback_commands :
    decoded (.command 0b00000000_00000000_00000000_00000001) = some .play ∧
    decoded (.command 0b00000000_00000000_00000000_00000010) = some .pause ∧
    decoded (.command 0b00000000_00000000_00000000_00000011) = some .resume ∧
    decoded (.command 0b00000000_00000000_00000000_00000100) = some .stop ∧
    decoded (.command 0b00000000_00000000_00000000_00000101) = some .getState ∧
    decoded (.command 0b00000000_00000000_00000000_00000110) = some .getSampleRate := by decide

theorem test_decode_configuration_commands :
    decoded (.command 0b00000000_00000000_00000000_00000111) = some .setFilterConfig ∧
    decoded (.command 0b00000000_00000000_00000000_00001000) = some .getFilterConfig ∧
    decoded (.command 0b00000000_00000000_00000000_00001001) = some .setFadeTime ∧
    decoded (.command 0b00000000_00000000_00000000_00001010) = some .getFadeTime ∧
    decoded (.command 0b00000000_00000000_00000000_00001011) = some .setAirGainDb ∧
    decoded (.command 0b00000000_00000000_00000000_00001100) = some .setAirGainQ16 ∧
    decoded (.command 0b00000000_00000000_00000000_00001101) = some .getAirGain ∧
    decoded (.command 0b00000000_00000000_00000000_00001110) = some .setAirPreset ∧
    decoded (.command 0b00000000_00000000_00000000_00001111) = some .getAirPreset := by decide

/-- R94 and L2.10: opcode 0, an opcode above 15, a stage id and a set bit above bit 7 are illegal. -/
theorem test_decode_illegal_commands :
    decode (.command 0x00000000) = .error (.illegalCommand 0x00000000) ∧
    decode (.command 0x00000010) = .error (.illegalCommand 0x00000010) ∧
    decode (.command 0x00000033) = .error (.illegalCommand 0x00000033) ∧
    decode (.command 0x00000105) = .error (.illegalCommand 0x00000105) ∧
    decode (.command 0x80000001) = .error (.illegalCommand 0x80000001) := ⟨rfl, rfl, rfl, rfl, rfl⟩

theorem test_decode_events :
    decoded (.event 0b0) = some .evFill0 ∧ decoded (.event 0b1) = some .evFill1 := by decide

theorem test_decode_fixed_point_stages :
    decoded (.stage 0b00100000 ⟨-1, 1, 0, 0⟩) = some (.q16Mul (-1) 1) ∧
    decoded (.stage 0b00100001 ⟨-40000, 0, 0, 0⟩) = some (.clamp16 (-40000)) ∧
    decoded (.stage 0b00100010 ⟨995, 3, 0, 0⟩) = some (.q16FromReal 995 3) ∧
    decoded (.stage 0b00100011 ⟨1, 44100, 0, 0⟩) = some (.alphaFromCutoff 1 44100) ∧
    decoded (.stage 0b00100100 ⟨-1, 0, 0, 0⟩) = some (.dbToQ16 0xFFFFFFFF) ∧
    decoded (.stage 0b00100101 ⟨4294967295, 0, 0, 0⟩) = some (.q16ToDb 0xFFFFFFFF) ∧
    decoded (.stage 0b00100110 ⟨6554, 22000, 0, 0⟩) = some (.secToSamples 6554 22000) := by decide

theorem test_decode_filter_stages :
    decoded (.stage 0b00110000 ⟨1, -5, 0, 0⟩) = some (.dcBlock .right 0xFFFB) ∧
    decoded (.stage 0b00110001 ⟨0, 7, 65535, 2⟩) = some (.lpf1 .left 7 65535 2) ∧
    decoded (.stage 0b00110010 ⟨49152, 0, 0, 0⟩) = some (.biquadCoef 49152) ∧
    decoded (.stage 0b00110011 ⟨1, 7, 3, 2⟩) = some (.biquadStep .right 7 3 2) ∧
    decoded (.stage 0b00110100 ⟨0, 7, 3, 2⟩) = some (.biquadWarmup .left 7 3 2) ∧
    decoded (.stage 0b00110101 ⟨1, 7, 131072, 0⟩) = some (.airShelf .right 7 131072) := by decide

theorem test_decode_post_filter_stages :
    decoded (.stage 0b01000000 ⟨7, 1, 2, 0⟩) = some (.fadeIn 7 1 2) ∧
    decoded (.stage 0b01000001 ⟨7, 1, 2, 0⟩) = some (.fadeOutPause 7 1 2) ∧
    decoded (.stage 0b01000010 ⟨7, 3, 2, 0⟩) = some (.fadeOutEnd 7 3 2) ∧
    decoded (.stage 0b01000011 ⟨-32768, 0, 0, 0⟩) = some (.noiseGate 0x8000) ∧
    decoded (.stage 0b01000100 ⟨32767, 0, 0, 0⟩) = some (.softClip 0x7FFF) := by decide

theorem test_decode_conversion_stages :
    decoded (.stage 0b01010000 ⟨0, 0, 0, 0⟩) = some .lcgDraw ∧
    decoded (.stage 0b01010001 ⟨0, 0, 0, 0⟩) = some .tpdfDither ∧
    decoded (.stage 0b01010010 ⟨5, 0, 0, 0⟩) = some (.u8ToS16 5) ∧
    decoded (.stage 0b01010011 ⟨6, 0, 0, 0⟩) = some (.s16Read 6) ∧
    decoded (.stage 0b01010100 ⟨65535, 0, 0, 0⟩) = some (.volCurve 65535) ∧
    decoded (.stage 0b01010101 ⟨-1, 65534, 0, 0⟩) = some (.volApply 0xFFFF 65534) := by decide

theorem test_decode_chunk_stages :
    decoded (.stage 0b01100000 ⟨0, -7, 9, 0⟩) = some (.chain .left 0xFFF9 9) ∧
    decoded (.stage 0b01100001 ⟨0, 0, 0, 0⟩) = some (.fill .first) ∧
    decoded (.stage 0b01100010 ⟨0, 0, 0, 0⟩) = some .fadeTick ∧
    decoded (.stage 0b01100011 ⟨0, 0, 0, 0⟩) = some .endSession ∧
    decoded (.stage 0b01100100 ⟨1, 0, 0, 0⟩) = some (.silenceHalf .second) := by decide

/-- An id R97 does not list, and wires outside their types. -/
theorem test_decode_bad_stages :
    decode (.stage 0x27 Wires.zero) = .error (.unknownStage 0x27) ∧
    decode (.stage 0x21 ⟨0, 1, 0, 0⟩) = .ok (.clamp16 0) ∧
    decode (.stage 0x43 ⟨32768, 0, 0, 0⟩) = .error (.badWire 0x43) ∧
    decode (.stage 0x25 ⟨-1, 0, 0, 0⟩) = .error (.badWire 0x25) ∧
    decode (.stage 0x61 ⟨2, 0, 0, 0⟩) = .error (.badWire 0x61) := ⟨rfl, rfl, rfl, rfl, rfl⟩

/-- The host's numbering of the rows. -/
theorem test_decode_table_words :
    decodeTableWord 32 0x0F = some .getAirPreset ∧ decodeTableWord 8 1 = some .evFill1 ∧
    decodeTableWord 8 0x31 = some (.lpf1 .left 0 0 0) ∧ decodeTableWord 8 0x7F = none := by decide

/-! ### Well-formedness: an ill-formed term for each check (R111), and operands in their types that a
rule states no result for -/

theorem test_wf_smoke :
    (Instr.q16Mul (-2147483649) 0).wf = false ∧ (Instr.q16Mul 0 4294967296).wf = false ∧
    (Instr.q16Mul (-2147483648) 4294967295).wf = true ∧
    (Instr.airShelf .left 0 131073).wf = true ∧ (Instr.fadeIn 0 5 4).wf = true ∧
    (Instr.fadeOutPause 0 5 4).wf = true := by decide

theorem test_wf_refused_by_decode :
    decode (.stage 0x20 ⟨4294967296, 0, 0, 0⟩) = .error (.badWire 0x20) ∧
    decode (.stage 0x20 ⟨0, -2147483649, 0, 0⟩) = .error (.badWire 0x20) ∧
    decode (.stage 0x35 ⟨0, 0, 131073, 0⟩) = .ok (.airShelf .left 0 131073) ∧
    decode (.stage 0x40 ⟨0, 5, 4, 0⟩) = .ok (.fadeIn 0 5 4) ∧
    decode (.stage 0x41 ⟨0, 5, 4, 0⟩) = .ok (.fadeOutPause 0 5 4) := ⟨rfl, rfl, rfl, rfl, rfl⟩

/-! ### Small states -/

/-- The next state of an outcome. -/
def nextOf : Host.Outcome State Fault Refusal → Option State
  | .next t => some t
  | .fault _ => none
  | .refused _ => none

/-- The fault of an outcome. -/
def faultOf : Host.Outcome State Fault Refusal → Option Fault
  | .next _ => none
  | .fault f => some f
  | .refused _ => none

/-- What a stage drives on its output wires, from the reset state. -/
def drives (i : Instr) : Option (List Int) := (nextOf (exec i State.reset)).map (·.stageOut)

/-- Consecutive bytes from an address on. -/
def bytesAt : Nat → List Byte → Memory
  | _, [] => []
  | a, b :: rest => (a, b) :: bytesAt (a + 1) rest

/-- The six 16-bit elements of P1: 1000, 2000, 3000, 4000, −5000, 30000. -/
def p1Bytes : List Byte :=
  [0xE8, 0x03, 0xD0, 0x07, 0xB8, 0x0B, 0xA0, 0x0F, 0x78, 0xEC, 0x30, 0x75]

/-- The state before step 6 of P1, with the operands of its PLAY: every optional stage off, and every
collaborator answer given. -/
def p1Before : State :=
  { State.reset with
    a0 := 0x1000, a1 := 6, a2 := 1024, a3 := 16, a4 := 1, mem := bytesAt 0x1000 p1Bytes
    volAnswers := [65535, 65535, 65535], startAnswers := [true] }

/-- A mono 16-bit session over the elements of P1, as its PLAY leaves the stream (L3, P1). -/
def p1Playing : State :=
  { p1Before with
    playState := .playing, src := 0x1000, srcLen := 6, endOff := 6, cur := 4, depth := 16, mode := 1
    sampleRate := 1024, chL := { ChannelState.zero with dcXp := 4000, dcYp := 3880 } }

/-- An 8-bit mono region of four bytes: 128, 0, 255, 129 (L2.7). -/
def u8Source : State :=
  { State.reset with src := 0x3000, srcLen := 4, endOff := 4, depth := 8, mode := 1
                     mem := bytesAt 0x3000 [128, 0, 255, 129] }

/-! ### Fixed-point primitives (L2.1) -/

theorem test_q16Mul :
    drives (.q16Mul (-1) 1) = some [-1] ∧ drives (.q16Mul 32767 131072) = some [65534] := by decide

theorem test_clamp16 :
    drives (.clamp16 98302) = some [32767] ∧ drives (.clamp16 (-40000)) = some [-32768] := by decide

theorem test_q16FromReal :
    drives (.q16FromReal 98 2) = some [64225] ∧ drives (.q16FromReal 995 3) = some [65208] ∧
    drives (.q16FromReal 1 1) = some [6554] := by decide

theorem test_alphaFromCutoff :
    drives (.alphaFromCutoff 1000 22000) = some [49254] ∧
    drives (.alphaFromCutoff 22000 22000) = some [122] ∧
    drives (.alphaFromCutoff 0 22000) = some [65535] ∧
    drives (.alphaFromCutoff 5000 0) = some [0] := by decide +kernel

theorem test_dbToQ16 :
    drives (.dbToQ16 393216) = some [130762] ∧ drives (.dbToQ16 0xFFFA0000) = some [32846] ∧
    drives (.dbToQ16 394563) = some [131071] ∧ drives (.dbToQ16 394564) = some [131072] := by
  decide +kernel

theorem test_q16ToDb :
    drives (.q16ToDb 131072) = some [394566] ∧ drives (.q16ToDb 32768) = some [-394566] ∧
    drives (.q16ToDb 0) = some [-2147483648] := by decide +kernel

theorem test_secToSamples :
    drives (.secToSamples 6554 22000) = some [2200] ∧
    drives (.secToSamples 0xFFFFFFFF 0xFFFFFFFF) = some [2147483647] := by decide

/-! ### Filters (L2.2 to L2.4) -/

/-- The outputs of a channel stage over a list of inputs, and the record it leaves. -/
def runStage (f : S16 → ChannelState → S16 × ChannelState) :
    ChannelState → List S16 → List Int × ChannelState
  | ch, [] => ([], ch)
  | ch, x :: xs =>
    let r := f x ch
    let rest := runStage f r.2 xs
    (r.1.toInt :: rest.1, rest.2)

theorem test_dcBlock_sequences :
    (runStage (dcBlock alphaDcStd) ChannelState.zero [1000, 1000, 1000, 0]).1 = [1000, 979, 959, -61] ∧
    (runStage (dcBlock alphaDcSoft) ChannelState.zero [1000, 1000, 1000, 0]).1 =
      [1000, 994, 989, -16] := by decide

theorem test_dcBlock_writes_its_channel :
    (nextOf (exec (.dcBlock .right 1000) State.reset)).map (fun t => (t.chR.dcXp, t.chR.dcYp, t.chL)) =
      some (1000, 1000, ChannelState.zero) := by decide

theorem test_lpf1_sequences :
    (runStage (lpf1 49152 65536) ChannelState.zero [1000, 1000, 1000, 0xFC18]).1 =
      [750, 937, 984, -504] ∧
    ((runStage (lpf1 65535 131072) ChannelState.zero [20000, 20000]).1,
      (runStage (lpf1 65535 131072) ChannelState.zero [20000, 20000]).2.lpYp) =
      ([32767, 32767], 19999) := by decide

theorem test_biquadCoef :
    drives (.biquadCoef 49152) = some [2048, 4096, 2048, -98304, 36864] ∧
    drives (.biquadCoef 65535) = some [0, 0, 0, -131070, 65534] := by decide

theorem test_biquadStep_sequence :
    (runStage (biquadStep 32768 65536) ChannelState.zero
      [1000, 1000, 1000, 1000, 1000, 1000, 1000, 1000]).1 =
      [125, 500, 968, 1343, 1601, 1765, 1864, 1922] := by decide

/-- L2.3 (e): the accumulator passes 2^32. -/
theorem test_biquadStep_wide :
    biquadAcc 65535 32767 { ChannelState.zero with bqX1 := 32767, bqX2 := 32767, bqY1 := 32767,
                                                   bqY2 := 0x8000 } = 6442188802 ∧
    (biquadStep 65535 65536 32767 { ChannelState.zero with
      bqX1 := 32767, bqX2 := 32767, bqY1 := 32767, bqY2 := 0x8000 }).2.bqY1 = 32767 := by decide

theorem test_biquadWarmup :
    (nextOf (exec (.biquadWarmup .left 10000 32768 65536) State.reset)).map
      (fun t => (t.chL.bqX1, t.chL.bqX2, t.chL.bqY1, t.chL.bqY2)) =
      some (10000, 10000, 19992, 19987) := by decide +kernel

theorem test_airShelf_sequences :
    (runStage (airShelf 131072) ChannelState.zero [1000, 1000, 0, 0xFC18]).1 =
      [1250, 1062, -235, -1309] ∧
    (runStage (airShelf 0) ChannelState.zero [1000, 1000, 0, 0xFC18]).1 = [750, 937, 234, -692] ∧
    (runStage (airShelf 131072) ChannelState.zero [32767, 0x8000, 32767]).1 =
      [32767, -32768, 32767] := by decide

/-! ### Post-filter (L2.5, L2.6) -/

theorem test_fadeIn :
    drives (.fadeIn 10000 2 4) = some [2500] ∧ drives (.fadeIn 0xD8F0 2 4) = some [-2500] ∧
    drives (.fadeIn 32767 968 1000) = some [32] ∧
    drives (.fadeIn 0x8000 1 0x7FFFFFFF) = some [-32767] := by decide

theorem test_fadeOutPause :
    drives (.fadeOutPause 10000 3 4) = some [5000] ∧ drives (.fadeOutPause 10000 0 4) = some [0] ∧
    drives (.fadeOutPause 5 0 0) = some [0] ∧
    drives (.fadeOutPause 0x8000 0x7FFFFFFE 0x7FFFFFFF) = some [-32767] := by decide

theorem test_fadeOutEnd :
    drives (.fadeOutEnd 10000 5 4) = some [10000] ∧ drives (.fadeOutEnd 10000 2 4) = some [2500] ∧
    drives (.fadeOutEnd 77 1 0) = some [77] ∧ drives (.fadeOutEnd 77 1 1) = some [77] := by decide

theorem test_fadeTick :
    (nextOf (exec .fadeTick { State.reset with
      fadeInRem := 4, fadeOutRem := 3, playState := .playing })).map
      (fun t => (t.fadeInRem, t.fadeOutRem)) = some (3, 3) ∧
    (nextOf (exec .fadeTick { State.reset with fadeOutRem := 1, playState := .pausing })).map
      (fun t => (t.fadeInRem, t.fadeOutRem)) = some (0, 0) := by decide

theorem test_noiseGate :
    drives (.noiseGate 511) = some [51] ∧ drives (.noiseGate 0xFE01) = some [-52] ∧
    drives (.noiseGate 0xFE00) = some [-512] ∧ drives (.noiseGate 0xFFFF) = some [-1] := by decide

theorem test_softClip :
    drives (.softClip 29000) = some [28541] ∧ drives (.softClip 30383) = some [30382] ∧
    drives (.softClip 32766) = some [32767] ∧ drives (.softClip 0x8000) = some [-32767] ∧
    drives (.softClip 0x92A0) = some [-28000] := by decide

/-! ### Dither, reads, volume (L2.7, L2.8) -/

theorem test_lcgDraw :
    (nextOf (exec .lcgDraw State.reset)).map (·.stageOut) = some [16838] ∧
    (nextOf (exec .lcgDraw { State.reset with lcg := 0 })).map (·.stageOut) = some [0] := by decide

theorem test_tpdfDither :
    (nextOf (exec .tpdfDither State.reset)).map (·.stageOut) = some [173] ∧
    ditherOf (lcgAfterDither 1) = -116 := by decide

theorem test_u8ToS16 :
    (nextOf (exec (.u8ToS16 0) u8Source)).map (·.stageOut) = some [173] ∧
    (nextOf (exec (.u8ToS16 1) { u8Source with lcg := lcgAfterDither 1 })).map (·.stageOut) =
      some [-32768] := by decide

theorem test_u8ToS16_outside :
    faultOf (exec (.u8ToS16 4) u8Source) = some (.sourceRange 0x3004) := by decide

theorem test_s16Read :
    (nextOf (exec (.s16Read 4) p1Playing)).map (·.stageOut) = some [-5000] ∧
    (nextOf (exec (.s16Read 0) p1Playing)).map (·.stageOut) = some [1000] := by decide

theorem test_s16Read_outside :
    faultOf (exec (.s16Read 6) p1Playing) = some (.sourceRange 0x100C) := by decide

theorem test_volCurve_identity : drives (.volCurve 40000) = some [40000] := by decide

theorem test_volCurve_gamma :
    roundVolumeCurve 2 1 16384 = 32768 ∧ roundVolumeCurve 2 1 1 = 256 ∧
    roundVolumeCurve 2 1 65535 = 65535 ∧ roundVolumeCurve 2 1 0 = 0 ∧
    roundVolumeCurve 11 5 32768 = 47824 := by decide +kernel

theorem test_volApply :
    drives (.volApply 32767 32768) = some [16383] ∧ drives (.volApply 0x8000 32768) = some [-16384] ∧
    drives (.volApply 0xFFFF 65534) = some [0] ∧ drives (.volApply 0x8000 65535) = some [-32768] := by
  decide

/-! ### Chunk processor (L2.9, L3) -/

theorem test_chain :
    (nextOf (exec (.chain .left 1000 0) { p1Playing with chL := ChannelState.zero })).map
      (fun t => (t.stageOut, t.chL.dcXp, t.chL.dcYp)) = some ([1000], 1000, 1000) := by decide

theorem test_fill :
    (nextOf (exec (.fill .first) { p1Playing with cur := 0, chL := ChannelState.zero })).map
      (fun t => (t.out.take 4, t.cur)) = some ([1000, 1000, 1979, 1979], 2) := by decide +kernel

/-- L2.9: the stereo frame at element 4 of an odd `END` is silent, and element 4 is never read. -/
theorem test_fill_odd_stereo :
    (nextOf (exec (.fill .first) { p1Playing with mode := 2, endOff := 5, srcLen := 3 })).map
      (fun t => (t.out.take 4, t.cur)) = some ([0, 0, 0, 0], 8) := by decide +kernel

theorem test_silenceHalf :
    (nextOf (exec (.silenceHalf .second) { p1Playing with out := List.replicate 8 5 })).map (·.out) =
      some [5, 5, 5, 5, 0, 0, 0, 0] := by decide

theorem test_endSession :
    (nextOf (exec .endSession p1Playing)).map (·.log) =
      some [.transportStop, .amp false, .notify] ∧
    (nextOf (exec .endSession { p1Playing with doneFired := true })).map (·.log) =
      some [.transportStop, .amp false] := by decide

/-- P1, step 7: the log and the state of the last half of a session. -/
theorem test_evFill0_ends_session :
    (nextOf (exec .evFill0 p1Playing)).map (fun t => (t.log, t.playState, t.chL.dcYp)) =
      some ([.volRead 65535, .half .first [0xEBB2, 0xEBB2, 29905, 29905], .transportStop, .amp false,
        .notify], .idle, 29905) := by decide +kernel

/-- L2.9: an event in `Pausing` with one half left, and one outside a session. -/
theorem test_evFill1_silent :
    (nextOf (exec .evFill1 { p1Playing with playState := .pausing, fadeOutRem := 2 })).map
      (fun t => (t.log, t.playState, t.pausePos)) =
      some ([.half .second [0, 0, 0, 0]], .paused, 4) ∧
    (nextOf (exec .evFill1 State.reset)).map (fun t => (t.log, t.playState)) =
      some ([.half .second [0, 0, 0, 0]], .idle) := by decide +kernel

/-! ### Commands (L2.10, P1) -/

/-- P1, step 6. -/
theorem test_play_log :
    (nextOf (exec .play p1Before)).map (·.log) =
      some [.transportInit, .volRead 65535, .half .first [1000, 1000, 1979, 1979], .volRead 65535,
        .half .second [2939, 2939, 3880, 3880], .amp true, .transportStart 8 true] := by decide +kernel

/-- L2.10: a refused depth, an odd base at depth 16, and a region past 2^32. -/
theorem test_play_refused :
    (nextOf (exec .play { p1Before with a3 := 12 })).map (fun t => (t.r0, t.status, t.log)) =
      some (4, 3, []) ∧
    faultOf (exec .play { p1Before with a0 := 0x1001 }) = some (.misalignedSource 0x1001) ∧
    faultOf (exec .play { p1Before with a0 := 0xFFFFFFFE, a1 := 2 }) =
      some (.sourceRange 0xFFFFFFFE) := by decide +kernel

theorem test_pause_continuity :
    (nextOf (exec .pause { p1Playing with
      fadeInTot := 1000, fadeInRem := 600, fadeSmp := ⟨0, 0, 500, 0⟩ })).map
      (fun t => (t.fadeOutRem, t.fadeOutTot, t.fadeInRem, t.r0)) = some (200, 500, 0, 2) ∧
    (nextOf (exec .pause { p1Playing with endOff := 54, fadeSmp := ⟨0, 100, 200, 0⟩ })).map
      (·.fadeOutRem) = some 100 := by decide

theorem test_resume :
    (nextOf (exec .resume { p1Playing with
      playState := .paused, pausePos := 6, fadeSmp := ⟨0, 0, 0, 2⟩ })).map
      (fun t => (t.cur, t.fadeInRem, t.fadeInTot, t.playState)) = some (6, 2, 2, .playing) ∧
    (nextOf (exec .resume { p1Playing with playState := .pausing })).map (fun t => (t.r0, t.playState)) =
      some (2, .pausing) := by decide

theorem test_stop :
    (nextOf (exec .stop State.reset)).map (fun t => (t.r0, t.stopReq, t.playState)) =
      some (0, true, .idle) := by decide

theorem test_getState :
    (nextOf (exec .getState { State.reset with playState := .playingFailed })).map (·.r0) =
      some 5 := by decide

theorem test_getSampleRate :
    (nextOf (exec .getSampleRate p1Playing)).map (·.r0) = some 1024 := by decide

/-- L1.6. -/
theorem test_setFilterConfig :
    (nextOf (exec .setFilterConfig { State.reset with
      a0 := 0x651E, a1 := 0, a2 := 65536, a3 := 0xC000 })).map (·.cfg) =
      some ⟨false, true, true, true, true, false, .custom, .off, 98304, 65536, 49152, 0⟩ ∧
    (nextOf (exec .setFilterConfig { State.reset with a0 := 0x0700 })).map (·.status) = some 2 ∧
    (nextOf (exec .setFilterConfig { State.reset with a0 := 0x8000 })).map (·.status) = some 2 := by
  decide

theorem test_getFilterConfig :
    (nextOf (exec .getFilterConfig { State.reset with
      cfg := ⟨true, false, false, false, true, false, .off, .custom, 65536, 32768, 0, 0x8000⟩ })).map
      (fun t => (t.r0, t.r1, t.r2, t.r3)) = some (0x5611, 0x10000, 0x8000, 0x80000000) := by decide

theorem test_setFadeTime :
    (nextOf (exec .setFadeTime { State.reset with a0 := 2, a1 := 512, sampleRate := 1024 })).map
      (fun t => (t.fadeSec, t.fadeSmp)) = some (⟨0, 0, 512, 0⟩, ⟨0, 0, 8, 0⟩) ∧
    (nextOf (exec .setFadeTime { State.reset with a0 := 4 })).map (·.status) = some 2 := by decide

theorem test_getFadeTime :
    (nextOf (exec .getFadeTime { State.reset with
      a0 := 2, fadeSec := ⟨1, 2, 512, 4⟩, fadeSmp := ⟨5, 6, 8, 7⟩ })).map (fun t => (t.r0, t.r1)) =
      some (512, 8) ∧
    (nextOf (exec .getFadeTime { State.reset with a0 := 4 })).map (fun t => (t.r0, t.status)) =
      some (0, 2) := by decide

theorem test_setAirGainDb :
    (nextOf (exec .setAirGainDb { State.reset with a0 := 393216 })).map (·.airGain) =
      some 130762 := by decide +kernel

theorem test_setAirGainQ16 :
    (nextOf (exec .setAirGainQ16 { State.reset with a0 := 0x18000 })).map (·.airGain) = some 98304 ∧
    (nextOf (exec .setAirGainQ16 { State.reset with a0 := 0xFFFFFFFF })).map (·.airGain) =
      some 131072 := by decide

theorem test_getAirGain :
    (nextOf (exec .getAirGain { State.reset with airGain := 131072 })).map (fun t => (t.r0, t.r1)) =
      some (0x00020000, 0x00060546) ∧
    (nextOf (exec .getAirGain { State.reset with airGain := 0 })).map (·.r1) =
      some 0x80000000 := by decide +kernel

theorem test_setAirPreset :
    (nextOf (exec .setAirPreset { State.reset with a0 := 1 })).map
      (fun t => (t.airPresetIdx, t.airGain, t.cfg.airEn)) = some (1, 92572, true) ∧
    (nextOf (exec .setAirPreset { State.reset with a0 := 3 })).map (·.status) =
      some 2 := by decide +kernel

theorem test_getAirPreset :
    (nextOf (exec .getAirPreset State.reset)).map (fun t => (t.r0, t.r1)) = some (0, 3) := by decide

/-! ### Memory, inputs, HOST scripts -/

theorem test_memory :
    memWrite (memWrite (memWrite [] 7 1) 5 2) 7 3 = [(5, 2), (7, 3)] ∧
    memRead [(5, 2), (7, 3)] 7 = some 3 ∧ memRead [(5, 2), (7, 3)] 6 = none ∧
    Memory.wf [(5, 2), (7, 3)] = true ∧ Memory.wf [(7, 3), (5, 2)] = false := by decide

/-- R79, R289: a store inside the admitted region of a session, one of the byte that stands there, and
one past the region: each is done, and the first changes the source. -/
theorem test_store_in_session :
    (nextOf (step { p1Playing with inbox := [.store 0x100B 7] })).map
      (fun t => (memRead t.mem 0x100B, t.sourceChanged)) = some (some 7, true) ∧
    (nextOf (step { p1Playing with inbox := [.store 0x100B 0x75] })).map
      (fun t => (memRead t.mem 0x100B, t.sourceChanged)) = some (some 0x75, false) ∧
    (nextOf (step { p1Playing with inbox := [.store 0x100C 7] })).map
      (fun t => (memRead t.mem 0x100C, t.sourceChanged)) = some (some 7, false) := by decide

/-- I14: after such a store events go on, and PLAY takes the flag down. -/
theorem test_session_after_store :
    (nextOf (exec .evFill0 { p1Playing with cur := 0, sourceChanged := true })).map
      (fun t => (t.cur, t.playState, t.sourceChanged)) = some (2, .playing, true) ∧
    (nextOf (exec .play { p1Before with sourceChanged := true })).map (·.sourceChanged) =
      some false := by decide +kernel

theorem test_step_inputs :
    (nextOf (step { State.reset with inbox := [.operand .a3 7] })).map (fun t => (t.a3, t.inbox)) =
      some (7, []) ∧
    (nextOf (step { State.reset with inbox := [.port (.command 0x105)] })).map
      (fun t => (t.cmd, t.status)) = some (0x105, 1) := by decide

/-- How a script ends: its result and the STATE then; none while it runs. -/
def scriptEnd (turns : List (List Half)) (h : HostScript) (s : State) : Option (Option Word × PlayState) :=
  match runScript turns (.begin h) s with
  | .next (.finished r t) => some (r, t.playState)
  | .next (.running _ _) => none
  | .fault _ => none
  | .refused _ => none

/-- The configuration a script leaves. -/
def scriptCfg (turns : List (List Half)) (h : HostScript) (s : State) : Option FilterConfig :=
  match runScript turns (.begin h) s with
  | .next (.finished _ t) => some t.cfg
  | .next (.running _ _) => none
  | .fault _ => none
  | .refused _ => none

/-- R103: the assembler's order of writes, and the words of SET_CFG_FIELD. -/
theorem test_host_words :
    assemble 0x09 [2, 512] = [.operand .a0 2, .operand .a1 512, .port (.command 0x09)] ∧
    setCfgField .lpf8Level 6 0x651E 1 2 3 = assemble 0x07 [0x661E, 1, 2, 3] := by decide

/-- R104: the pseudo-instructions beside the block, with the events that let their polls finish. A poll
without events, and WAIT_FOR_END while Paused (R302), run on. -/
theorem test_host_scripts :
    scriptEnd [[], [.first]] .pauseBlocking p1Playing = some (some 3, .paused) ∧
    scriptEnd [[], [], []] .pauseBlocking p1Playing = none ∧
    scriptEnd [[]] .pauseBlocking State.reset = some (some 0, .idle) ∧
    scriptEnd [[], [.first]] .stopAndWait p1Playing = some (some 0, .idle) ∧
    scriptEnd [[], [.first]] .waitForEnd { p1Playing with playState := .paused } = none ∧
    scriptEnd [[]] .waitForEnd { State.reset with playState := .playingFailed } =
      some (some 4, .playingFailed) ∧
    scriptCfg [[], []] (.setCfgField .lpf8Level 3) State.reset =
      some { State.reset.cfg with lpf8Level := .firm } := by decide +kernel

theorem test_debug_view :
    debugRead p1Playing 0x20 = some 1 ∧ debugRead p1Playing 0x28 = some 0 ∧
    debugRead p1Playing 0x51 = some 3880 := by decide

/-! ### Witnesses: states and operands that meet the hypotheses of each obligation -/

/-- The outcome is a next state. -/
def isNext : Host.Outcome State Fault Refusal → Bool
  | .next _ => true
  | .fault _ => false
  | .refused _ => false

theorem isNext_next {o : Host.Outcome State Fault Refusal} (h : isNext o = true) : ∃ t, o = .next t := by
  cases o with
  | next t => exact ⟨t, rfl⟩
  | fault _ => cases h
  | refused _ => cases h

theorem sourceReady_of {s : State}
    (h : (List.range s.regionBytes).all (fun k => (memRead s.mem (s.src.toNat + k)).isSome) = true) :
    SourceReady s := by
  intro a h1 h2
  have := List.all_eq_true.mp h (a - s.src.toNat) (List.mem_range.mpr (by omega))
  rw [Nat.add_sub_cancel' h1] at this
  exact Option.isSome_iff_exists.mp this

theorem p1Playing_fillable : Fillable p1Playing :=
  ⟨.inr rfl, by decide, sourceReady_of (by decide)⟩

theorem u8Source_fillable : Fillable u8Source :=
  ⟨.inl rfl, by decide, sourceReady_of (by decide)⟩

/-- P1's session with an event as its next input. -/
def p1Event : State := { p1Playing with inbox := [.port (.event 0)] }

theorem stateInv_of {s : State} (h1 : Memory.wf s.mem = true) (h2 : s.params = Config.params)
    (h3 : s.out.length = 8) (h4 : s.fadeInRem = 0 ∧ s.fadeInTot = 0 ∧ s.fadeOutTot.toNat ≤ 8 ∧
      s.fadeOutRem.toNat ≤ s.fadeOutTot.toNat) (h5 : s.fadeSmp = ⟨0, 0, 0, 0⟩)
    (h6 : s.cfg = Config.params.cfgReset) (h7 : s.airGain = 65536) (h8 : s.airPresetIdx = 0)
    (h9 : s.playState ≠ .error) : StateInv s where
  memory := h1
  params := by rw [h2]; decide
  outLength := by rw [h2, h3]; rfl
  fadeIn := by rw [h4.1, h4.2.1]
  fadeOut := h4.2.2.2
  fadeInTot := by rw [h4.2.1]; decide
  fadeOutTot := by have := h4.2.2.1; omega
  fadeSmp := by rw [h5]; intro w; cases w <;> decide
  cfg := by rw [h2, h6]; decide
  airGain := by rw [h7]; decide
  preset := by rw [h2, h8]; decide
  notError := h9

theorem witness_DecodeEncodeAgree :
    (Instr.q16Mul (-2147483648) 4294967295).wf = true ∧ (Instr.airShelf .right 0x8000 131072).wf = true ∧
    (Instr.fadeIn 0x7FFF 4 4).wf = true ∧ (Instr.fadeOutPause 0x8000 0 0).wf = true ∧
    (Instr.q16FromReal (-7) 0).wf = true ∧ Instr.play.wf = true := by decide

theorem witness_DecodedWordsEncodeBack :
    decode (.command 0x0F) = .ok .getAirPreset ∧ decode (.event 1) = .ok .evFill1 ∧
    decode (.stage 0x64 ⟨1, 0, 0, 9⟩) = .ok (.silenceHalf .second) := ⟨rfl, rfl, rfl⟩

theorem witness_StepRunsDecodedInstruction :
    p1Event.inbox = .port (.event 0) :: [] ∧ decode (.event 0) = .ok .evFill0 ∧
    { p1Event with inbox := [.port (.command 2)] }.inbox = .port (.command 2) :: [] ∧
    decode (.command 2) = .ok .pause ∧ decode (.stage 0x62 Wires.zero) = .ok .fadeTick :=
  ⟨rfl, rfl, rfl, rfl, rfl⟩

theorem witness_IllegalCommandOnlyReports :
    { State.reset with inbox := [.port (.command 0)] }.inbox = .port (.command 0) :: [] ∧
    (0 : Word).toNat % 256 = 0 ∧ 16 ≤ (16 : Word).toNat % 256 ∧ (257 : Word).toNat / 256 ≠ 0 ∧
    (0x80000001 : Word).toNat / 256 ≠ 0 := by decide

theorem witness_HostInputsWriteTheirTarget :
    { State.reset with inbox := [.operand .a4 1] }.inbox = .operand .a4 1 :: [] ∧
    { State.reset with inbox := [.store 0xFFFFFFFF 7] }.inbox = .store 0xFFFFFFFF 7 :: [] ∧
    { p1Playing with inbox := [.store 0x100B 7] }.inbox = .store 0x100B 7 :: [] ∧
    State.reset.playState = .idle ∧ p1Playing.playState = .playing ∧ State.reset.inbox = [] ∧
    Memory.wf State.reset.mem = true ∧ p1Playing.src.toNat ≤ (0x1000 : Word).toNat ∧
    (0x100B : Word).toNat <
      p1Playing.src.toNat + p1Playing.srcLen.toNat * (p1Playing.depth.toNat / 8) ∧
    p1Playing.src.toNat + p1Playing.srcLen.toNat * (p1Playing.depth.toNat / 8) ≤
      (0x100C : Word).toNat ∧ (0xFFF : Word).toNat < p1Playing.src.toNat := by decide

/-- The parameters of reset with another buffer length. -/
def withBufLen (n : Nat) : Params := { Config.params with bufLen := n }

/-- The parameters of reset with the gamma curve 2.2. -/
def withGamma : Params := { Config.params with gammaEn := true, gammaNum := 11, gammaDen := 5 }

theorem witness_PowerOnMeetsInv :
    Config.params.legal ∧ (withBufLen 4).legal ∧ (withBufLen 16777216).legal ∧ withGamma.legal :=
  ⟨by decide, by decide, by decide, by decide⟩

theorem witness_StepKeepsInv : StateInv p1Event ∧ ∃ t, step p1Event = .next t :=
  ⟨stateInv_of (by decide) rfl rfl (by decide) rfl rfl rfl rfl (by decide),
    isNext_next (by decide +kernel)⟩

theorem witness_StepKeepsSessionInv :
    StateInv p1Event ∧ SessionInv p1Event ∧ RunInput p1Event ∧ ∃ t, step p1Event = .next t := by
  refine ⟨witness_StepKeepsInv.1, fun _ => ?_, ?_, witness_StepKeepsInv.2⟩
  · exact ⟨by decide, .inr rfl, .inl rfl, by decide, fun _ => by decide, by decide, rfl, by decide⟩
  · intro id w rest h
    cases h

theorem witness_OnlyHostStoresChangeSource :
    (∃ t, exec .stop p1Playing = .next t) ∧
    (∃ t, step { State.reset with inbox := [.store 0 7] } = .next t) ∧
    (∃ t, step { p1Playing with inbox := [.store 0x100C 7] } = .next t ∧ p1Playing.playState = .playing ∧
      t.sourceChanged = false) ∧
    ∃ t, step State.reset = .next t :=
  ⟨⟨_, rfl⟩, ⟨_, rfl⟩, ⟨_, rfl, rfl, by decide⟩, ⟨_, rfl⟩⟩

/-- One case for each row of the transition table, and each clause of the single-writer table. -/
def runCases : List (Instr × State) :=
  [(.play, p1Before), (.play, { p1Before with startAnswers := [false] }), (.play, { p1Before with a0 := 0 }),
    (.play, { p1Before with playState := .error }), (.play, { p1Before with playState := .playingFailed }),
    (.pause, p1Playing), (.pause, State.reset), (.resume, { p1Playing with playState := .paused }),
    (.resume, p1Playing), (.stop, p1Playing), (.getState, { State.reset with playState := .error }),
    (.stop, { State.reset with playState := .playingFailed }), (.setFilterConfig, State.reset),
    (.evFill0, State.reset), (.evFill1, { State.reset with playState := .error }),
    (.evFill0, { State.reset with playState := .playingFailed }), (.evFill0, p1Playing),
    (.evFill0, { p1Playing with cur := 0, stopReq := true }), (.evFill1, { p1Playing with cur := 0 }),
    (.evFill0, { p1Playing with playState := .paused }),
    (.evFill0, { p1Playing with playState := .paused, stopReq := true }),
    (.evFill1, { p1Playing with playState := .pausing, fadeOutRem := 2, fadeOutTot := 8 }),
    (.evFill1, { p1Playing with playState := .pausing, fadeOutRem := 3, fadeOutTot := 8 })]

theorem witness_SingleWriterTable_StateTransitions :
    ∀ c ∈ runCases, isRunInstr c.1 = true ∧ ∃ t, exec c.1 c.2 = .next t := by
  have h : runCases.all (fun c => isRunInstr c.1 && isNext (exec c.1 c.2)) = true := by decide +kernel
  intro c hc
  have := List.all_eq_true.mp h c hc
  rw [Bool.and_eq_true] at this
  exact ⟨this.1, isNext_next this.2⟩

theorem witness_UnnamedOperandsDoNotMatter :
    (∃ t, exec .pause p1Playing = .next t) ∧ (∃ t, exec .getFilterConfig p1Playing = .next t) ∧
    (∃ t, exec .setAirPreset State.reset = .next t) ∧ (∃ t, exec .setFadeTime State.reset = .next t) ∧
    ∃ t, exec .setFilterConfig State.reset = .next t :=
  ⟨⟨_, rfl⟩, ⟨_, rfl⟩, ⟨_, rfl⟩, ⟨_, rfl⟩, ⟨_, rfl⟩⟩

theorem p1Before_accepted : PlayAccepted p1Before := by unfold PlayAccepted; decide

theorem witness_PlayValidationAndFaults :
    ¬PlayAccepted { p1Before with playState := .playing } ∧ ¬PlayAccepted { p1Before with a4 := 3 } ∧
    (PlayAccepted { p1Before with a0 := 0x1001 } ∧ (0x1001 : Word).toNat % 2 = 1) ∧
    (PlayAccepted { p1Before with a0 := 0xFFFFFFFE, a1 := 2 } ∧
      4294967296 < (0xFFFFFFFE : Word).toNat + (2 : Word).toNat * ((16 : Word).toNat / 8)) := by
  unfold PlayAccepted; decide

theorem witness_PlayBody :
    PlayAccepted p1Before ∧ ¬(p1Before.a3 = 16 ∧ p1Before.a0.toNat % 2 = 1) ∧
    p1Before.a0.toNat + p1Before.a1.toNat * (p1Before.a3.toNat / 8) ≤ 4294967296 ∧
    ∀ a : Nat, p1Before.a0.toNat ≤ a → a < p1Before.a0.toNat + p1Before.a1.toNat * (p1Before.a3.toNat / 8) →
      ∃ b, memRead p1Before.mem a = some b :=
  ⟨p1Before_accepted, by decide, by decide,
    sourceReady_of (s := { p1Before with src := 0x1000, srcLen := 6, depth := 16 }) (by decide)⟩

/-- The region that ends exactly at 2^32 (L2.10), and an odd base at depth 8. -/
theorem witness_PlayBody_boundaries :
    (PlayAccepted { p1Before with a0 := 0xFFFFFFFE, a1 := 1 } ∧
      (0xFFFFFFFE : Word).toNat + (1 : Word).toNat * ((16 : Word).toNat / 8) ≤ 4294967296) ∧
    PlayAccepted { p1Before with a0 := 0x1001, a3 := 8 } ∧ ¬((8 : Word) = 16) ∧
    { p1Before with startAnswers := [false] }.startAnswers = false :: [] := by
  unfold PlayAccepted; decide

theorem witness_PauseStartsRamp :
    p1Playing.playState = .playing ∧ p1Playing.fadeInRem.toNat ≤ p1Playing.fadeInTot.toNat ∧
    { p1Playing with fadeInRem := 8, fadeInTot := 8 }.fadeInRem.toNat ≤ 8 ∧
    State.reset.playState ≠ .playing := by decide

theorem witness_ResumeRestores :
    { p1Playing with playState := .paused }.playState = .paused ∧ p1Playing.playState ≠ .paused := by decide

theorem witness_SetFilterConfigReplaces :
    (0x8000 : Word).extractLsb' 15 17 ≠ 0 ∧ (0x40 : Word).extractLsb' 6 2 ≠ 0 ∧
    (0x800 : Word).getLsbD 11 = true ∧ (0x700 : Word).extractLsb' 8 3 = 7 ∧
    (0x7000 : Word).extractLsb' 12 3 = 7 ∧
    ¬((0x663F : Word).extractLsb' 6 2 ≠ 0 ∨ (0x663F : Word).getLsbD 11 = true ∨
      (0x663F : Word).extractLsb' 15 17 ≠ 0 ∨ (0x663F : Word).extractLsb' 8 3 = 7 ∨
      (0x663F : Word).extractLsb' 12 3 = 7) := by decide

theorem witness_ConfigWordsRoundTrip :
    ∃ t u, exec .setFilterConfig { State.reset with a0 := 0x663F, a1 := 0 } = .next t ∧ t.status = 0 ∧
      exec .getFilterConfig t = .next u := ⟨_, _, rfl, rfl, rfl⟩

theorem witness_FadeTimeCommands :
    3 < (4 : Word).toNat ∧ { State.reset with a0 := 3 }.a0 = 3 ∧ State.reset.a0 = 0 := by decide

theorem witness_AirPresetCommands :
    State.reset.params.airPresetDb.length ≤ 256 ∧
    State.reset.params.airPresetDb.length ≤ { State.reset with a0 := 3 }.a0.toNat ∧ State.reset.a0 = 0 ∧
    0 < State.reset.params.airPresetDb.length ∧
    State.reset.params.airPresetDb[{ State.reset with a0 := 2 }.a0.toNat]? = some 393216 := by decide

theorem witness_halves :
    p1Playing.out.length = p1Playing.params.bufLen ∧ p1Playing.params.bufLen % 4 = 0 ∧
    State.reset.playState = .idle ∧ { p1Playing with playState := .paused }.stopReq = false ∧
    ({ p1Playing with playState := .pausing, fadeOutRem := 2 }.fadeOutRem.toNat ≤
      p1Playing.params.bufLen / 4) := by decide

theorem witness_EventFillsHalf :
    Fillable p1Playing ∧ p1Playing.playState = .playing ∧
    Fillable { p1Playing with playState := .pausing, fadeOutRem := 3 } ∧
    { p1Playing with playState := .pausing, fadeOutRem := 3 }.params.bufLen / 4 < (3 : Word).toNat :=
  ⟨p1Playing_fillable, rfl,
    ⟨p1Playing_fillable.depth, p1Playing_fillable.endWithin, p1Playing_fillable.ready⟩, by decide⟩

theorem witness_FillRunsFrames :
    Fillable u8Source ∧ Fillable { p1Playing with mode := 2, volAnswers := [7] } ∧
    { p1Playing with mode := 2, volAnswers := [7] }.volAnswers = 7 :: [] :=
  ⟨u8Source_fillable,
    ⟨p1Playing_fillable.depth, p1Playing_fillable.endWithin, p1Playing_fillable.ready⟩, rfl⟩

theorem witness_FillFrame :
    p1Playing.out.length = p1Playing.params.bufLen ∧ p1Playing.params.bufLen % 4 = 0 ∧
    (p1Playing.elems = 1 ∧ p1Playing.sourceChanged = false) ∧ ∃ t, fill p1Playing .second = .ok t := by
  refine ⟨by decide, by decide, by decide, ?_⟩
  have h : (fill p1Playing .second).isOk = true := by decide +kernel
  cases hf : fill p1Playing .second with
  | ok t => exact ⟨t, rfl⟩
  | error _ => rw [hf] at h; cases h

theorem witness_NaturalEndEventCount :
    Fillable p1Event ∧ p1Event.playState = .playing ∧ p1Event.stopReq = false ∧
    p1Event.doneFired = false ∧ 0 < p1Event.stepElems ∧ p1Event.cur.toNat = 2 * p1Event.stepElems ∧
    1 ≤ p1Event.endOff.toNat ∧
    p1Event.inbox = ([0] : List (BitVec 1)).map (fun h => .port (.event h)) ∧
    ([0] : List (BitVec 1)).length =
      max 1 ((p1Event.endOff.toNat + p1Event.stepElems - 1) / p1Event.stepElems - 2) :=
  ⟨⟨p1Playing_fillable.depth, p1Playing_fillable.endWithin, p1Playing_fillable.ready⟩,
    rfl, rfl, rfl, by decide, by decide, by decide, rfl, by decide⟩

/-- A pause of three frames over P1's source, from its first element: two events. -/
def p1Pausing : State :=
  { p1Playing with playState := .pausing, cur := 0, fadeOutRem := 3, fadeOutTot := 3
                   inbox := [.port (.event 0), .port (.event 1)] }

theorem witness_PauseCompletionEventCount :
    Fillable p1Pausing ∧ p1Pausing.playState = .pausing ∧ 0 < p1Pausing.halfFrames ∧
    p1Pausing.inbox = ([0, 1] : List (BitVec 1)).map (fun h => .port (.event h)) ∧
    ([0, 1] : List (BitVec 1)).length =
      max 1 ((p1Pausing.fadeOutRem.toNat + p1Pausing.halfFrames - 1) / p1Pausing.halfFrames) ∧
    p1Pausing.cur.toNat + (([0, 1] : List (BitVec 1)).length - 1) * p1Pausing.stepElems <
      p1Pausing.endOff.toNat :=
  ⟨⟨p1Playing_fillable.depth, p1Playing_fillable.endWithin, p1Playing_fillable.ready⟩,
    rfl, by decide, rfl, by decide, by decide⟩

theorem witness_ChainRunsStages : (6 : Word).toNat ≤ p1Playing.endOff.toNat := by decide

theorem witness_LpfSelections :
    State.reset.cfg.lpf16En = false ∧ State.reset.cfg.lpf8Level = .off ∧
    { State.reset with cfg := { State.reset.cfg with lpf16En := true, lpf16Level := .custom } }.cfg.lpf16Level
      ≠ .off := by decide

theorem witness_AlphaFromCutoffRounds : (22000 : Word) ≠ 0 ∧ (0 : Word) = 0 := by decide

theorem witness_AirShelfStep : (131072 : Word).toNat ≤ 131072 := by decide

theorem witness_FadeStages :
    (4 : Word).toNat ≤ (4 : Word).toNat ∧ (0 : Word).toNat ≤ (0 : Word).toNat := by decide

theorem witness_FadeShape :
    0 < (10000 : S16).toInt ∧ (1 : Word).toNat ≤ (4 : Word).toNat ∧ (4 : Word).toNat ≤ (4 : Word).toNat ∧
    (1 : Word).toNat ≤ (1 : Word).toNat ∧ (1 : Word).toNat ≤ (2 : Word).toNat ∧
    2 ≤ (2 : Word).toNat := by decide

theorem witness_SoftClipShape (s : State) :
    exec (.softClip 28001) s = .next { s with stageOut := [28000] } ∧
    exec (.softClip 29000) s = .next { s with stageOut := [28541] } ∧
    (28001 : S16).toInt ≤ (29000 : S16).toInt ∧ (28002 : S16).toInt = (28001 : S16).toInt + 1 ∧
    (0x929F : S16).toInt = -(28001 : S16).toInt := by
  refine ⟨?_, ?_, by decide, by decide, by decide⟩
  · simp only [exec, execSoftClip, State.drive, show (softClip 28001).toInt = 28000 by decide]
  · simp only [exec, execSoftClip, State.drive, show (softClip 29000).toInt = 28541 by decide]

theorem witness_StagesNeverAmplify (s : State) :
    (∃ t, exec (.lpf1 .left 1000 49152 65536) s = .next t) ∧
    exec (.fadeIn 10000 2 4) s = .next { s with stageOut := [2500] } ∧
    exec (.fadeOutPause 10000 4 4) s = .next { s with stageOut := [10000] } ∧
    exec (.fadeOutEnd 10000 3 4) s = .next { s with stageOut := [5000] } ∧
    exec (.noiseGate 511) s = .next { s with stageOut := [51] } ∧
    exec (.volApply 0x8000 32768) s = .next { s with stageOut := [-16384] } ∧
    (5 : Word).toNat > (4 : Word).toNat ∧ (131073 : Word).toNat > 131072 := by
  refine ⟨⟨_, rfl⟩, ?_, ?_, ?_, ?_, ?_, by decide, by decide⟩
  · simp only [exec, execFadeIn, State.drive, show (fadeIn 10000 2 4).toInt = 2500 by decide]
  · simp only [exec, execFadeOutPause, State.drive, show (fadeOutPause 10000 4 4).toInt = 10000 by decide]
  · simp only [exec, execFadeOutEnd, State.drive, show (fadeOutEnd 10000 3 4).toInt = 5000 by decide]
  · simp only [exec, execNoiseGate, State.drive, show (noiseGate 511).toInt = 51 by decide]
  · simp only [exec, execVolApply, State.drive, show (volApply 0x8000 32768).toInt = -16384 by decide]

theorem witness_U8ReadConverts :
    u8Source.src.toNat + (3 : Word).toNat <
      u8Source.src.toNat + u8Source.srcLen.toNat * (u8Source.depth.toNat / 8) ∧
    memRead u8Source.mem (u8Source.src.toNat + (3 : Word).toNat) = some 129 ∧
    u8Source.src.toNat + u8Source.srcLen.toNat * (u8Source.depth.toNat / 8) ≤
      u8Source.src.toNat + (4 : Word).toNat ∧
    memRead { u8Source with mem := [] }.mem (u8Source.src.toNat + (0 : Word).toNat) = none := by decide

theorem witness_S16ReadLittleEndian :
    p1Playing.src.toNat + 2 * (5 : Word).toNat + 1 <
      p1Playing.src.toNat + p1Playing.srcLen.toNat * (p1Playing.depth.toNat / 8) ∧
    memRead p1Playing.mem (p1Playing.src.toNat + 2 * (5 : Word).toNat) = some 0x30 ∧
    memRead p1Playing.mem (p1Playing.src.toNat + 2 * (5 : Word).toNat + 1) = some 0x75 ∧
    p1Playing.src.toNat + p1Playing.srcLen.toNat * (p1Playing.depth.toNat / 8) ≤
      p1Playing.src.toNat + 2 * (6 : Word).toNat ∧
    memRead [(0x1000, 1)] (p1Playing.src.toNat + 2 * (0 : Word).toNat) ≠ none ∧
    memRead [(0x1000, 1)] (p1Playing.src.toNat + 2 * (0 : Word).toNat + 1) = none := by decide

theorem witness_ReadSelectsByDepth :
    (∃ x t, readElement u8Source (3 : Word).toNat = .ok (x, t)) ∧ u8Source.depth = 8 ∧
    (∃ x t, readElement p1Playing (5 : Word).toNat = .ok (x, t)) ∧ p1Playing.depth = 16 ∧
    (∃ f, readElement u8Source (4 : Word).toNat = .error f) ∧
    ∃ f, readElement p1Playing (6 : Word).toNat = .error f :=
  ⟨⟨_, _, rfl⟩, rfl, ⟨_, _, rfl⟩, rfl, ⟨_, rfl⟩, ⟨_, rfl⟩⟩

theorem witness_VolumeStages :
    State.reset.params.gammaEn = false ∧ (State.powerOn withGamma).params.gammaEn = true ∧
    0 < (State.powerOn withGamma).params.gammaNum ∧ 0 < (State.powerOn withGamma).params.gammaDen := by
  decide

end Sys2Proof.Tests
end

section
/-! SUPPORT. The layer of the state's family: what neither invariant reads, what a command can do, and what
each operation keeps of the two invariants. -/

namespace Sys2Proof.Machine

/-! ### What neither invariant reads -/

/-- A state without the fields that neither `StateInv` nor `SessionInv` reads. -/
def State.watched (s : State) : State :=
  { s with
    cmd := 0, a0 := 0, a1 := 0, a2 := 0, a3 := 0, a4 := 0, r0 := 0, r1 := 0, r2 := 0, r3 := 0
    status := 0, stopReq := false, sampleRate := 0, fadeSec := ⟨0, 0, 0, 0⟩, lcg := 0
    chL := ChannelState.zero, chR := ChannelState.zero, inbox := [], volAnswers := [], volDraws := 0
    startAnswers := [], startDraws := 0, log := [], stageOut := [], sourceChanged := false }

theorem stateInv_watched {s : State} : StateInv s.watched ↔ StateInv s :=
  ⟨fun h => { h with }, fun h => { h with }⟩

theorem sessionInv_watched {s : State} : SessionInv s.watched ↔ SessionInv s :=
  ⟨fun h hn => { h hn with }, fun h hn => { h hn with }⟩

theorem StateInv.of_watched {s t : State} (hs : StateInv s) (h : t.watched = s.watched) : StateInv t :=
  stateInv_watched.mp (h ▸ stateInv_watched.mpr hs)

theorem SessionInv.of_watched {s t : State} (hs : SessionInv s) (h : t.watched = s.watched) :
    SessionInv t :=
  sessionInv_watched.mp (h ▸ sessionInv_watched.mpr hs)

theorem params_of_watched {s t : State} (h : t.watched = s.watched) : t.params = s.params :=
  show t.watched.params = s.watched.params by rw [h]

theorem writeOperand_watched (s : State) (r : OperandReg) (v : Word) :
    (s.writeOperand r v).watched = s.watched := by
  cases r <;> rfl

theorem accept_watched (s : State) (w : PortWord) : (s.accept w).watched = s.watched := by
  cases w <;> rfl

theorem setChan_watched (s : State) (c : Channel) (ch : ChannelState) :
    (s.setChan c ch).watched = s.watched := by
  cases c <;> rfl

theorem takeRate_watched (s : State) : s.takeRate.watched = s.watched := by
  unfold State.takeRate
  split <;> rfl

theorem warmup_watched {s t : State} (ht : warmup s = .ok t) : t.watched = s.watched := by
  rw [warmup_form ht]; rfl

/-! ### What an instruction can do -/

/-- What a command can do when it answers a next state. `answer` is a read, a refusal, or a command that
finds nothing to do: it writes result registers and STATUS only. -/
inductive CommandEffect (s : State) : Instr → State → Prop
  | answer {i : Instr} (r0 r1 r2 r3 code : Word) : i ≠ .stop →
      CommandEffect s i { s with r0 := r0, r1 := r1, r2 := r2, r3 := r3, status := code }
  | play {s1 s2 s3 : State} : playValid s = true → ¬(s.a3 = 16 ∧ s.a0.toNat % 2 = 1) →
      playRegionEnd s ≤ 4294967296 → warmup s.openSession.takeRate.startFades = .ok s1 →
      fill s1 .first = .ok s2 → fill s2 .second = .ok s3 → CommandEffect s .play s3.startTransport
  | pause : s.playState = .playing → CommandEffect s .pause
      ({ s with fadeOutRem := pauseLevel s, fadeOutTot := s.fadeSmp.pauseOut, fadeInRem := 0,
                playState := .pausing }.reportState .pausing statusOk)
  | resume : s.playState = .paused → CommandEffect s .resume
      ({ s with cur := s.pausePos, fadeOutRem := 0, fadeOutTot := 0, fadeInTot := s.fadeSmp.resumeIn,
                fadeInRem := s.fadeSmp.resumeIn, playState := .playing }.reportState .playing statusOk)
  | stop : CommandEffect s .stop ({ s with stopReq := true }.reportState s.playState statusOk)
  | config {c : FilterConfig} : configOf s.params s.a0 s.a1 s.a2 s.a3 = some c →
      CommandEffect s .setFilterConfig ({ s with cfg := c }.report statusOk)
  | fadeTime (w : FadeWindow) : CommandEffect s .setFadeTime
      ({ s with fadeSec := fadeSet s.fadeSec s.a1 w,
                fadeSmp := fadeSet s.fadeSmp (secToSamples s.a1 s.sampleRate) w }.report statusOk)
  | airGainDb : CommandEffect s .setAirGainDb ({ s with airGain := dbToQ16 s.a0 }.report statusOk)
  | airGainQ16 : CommandEffect s .setAirGainQ16
      ({ s with airGain := BitVec.ofNat 32 (min s.a0.toNat airGainMax) }.report statusOk)
  | presetOff : 0 < s.params.airPresetDb.length → CommandEffect s .setAirPreset
      ({ s with airPresetIdx := 0, cfg := { s.cfg with airEn := false } }.report statusOk)
  | preset (db : Word) : s.a0.toNat < s.params.airPresetDb.length → CommandEffect s .setAirPreset
      ({ s with airPresetIdx := BitVec.ofNat 8 s.a0.toNat, airGain := dbToQ16 db,
                cfg := { s.cfg with airEn := true } }.report statusOk)

/-- Every command has one of these effects. -/
theorem command_effect {i : Instr} {s t : State} (hi : isRunInstr i = true) (he : ∀ h, i ≠ eventInstr h)
    (ht : exec i s = .next t) : CommandEffect s i t := by
  cases i with
  | play =>
    rcases play_form ht with ⟨-, rfl⟩ | ⟨hv, ha, hr, s1, s2, s3, h1, h2, h3, rfl⟩
    · exact .answer (stateCode .error) s.r1 s.r2 s.r3 statusValidation nofun
    · exact .play hv ha hr h1 h2 h3
  | pause =>
    simp only [exec, execPause] at ht
    split at ht <;> cases ht
    · exact .pause ‹_›
    · exact .answer (stateCode s.playState) s.r1 s.r2 s.r3 statusOk nofun
  | resume =>
    simp only [exec, execResume] at ht
    split at ht <;> cases ht
    · exact .resume ‹_›
    · exact .answer (stateCode s.playState) s.r1 s.r2 s.r3 statusOk nofun
  | stop => cases ht; exact .stop
  | getState => cases ht; exact .answer (stateCode s.playState) s.r1 s.r2 s.r3 statusOk nofun
  | getSampleRate => cases ht; exact .answer s.sampleRate s.r1 s.r2 s.r3 statusOk nofun
  | setFilterConfig =>
    simp only [exec, execSetFilterConfig] at ht
    split at ht <;> cases ht
    · exact .config ‹_›
    · exact .answer s.r0 s.r1 s.r2 s.r3 statusBadOperand nofun
  | getFilterConfig =>
    cases ht
    exact .answer (cfgWord0 s.cfg) s.cfg.makeup8 s.cfg.makeup16 (cfgWord3 s.cfg) statusOk nofun
  | setFadeTime =>
    simp only [exec, execSetFadeTime] at ht
    split at ht <;> cases ht
    · exact .fadeTime _
    · exact .answer s.r0 s.r1 s.r2 s.r3 statusBadOperand nofun
  | getFadeTime =>
    simp only [exec, execGetFadeTime] at ht
    split at ht <;> cases ht
    · exact .answer (fadeGet s.fadeSec _) (fadeGet s.fadeSmp _) s.r2 s.r3 statusOk nofun
    · exact .answer s.r0 s.r1 s.r2 s.r3 statusBadOperand nofun
  | setAirGainDb => cases ht; exact .airGainDb
  | setAirGainQ16 => cases ht; exact .airGainQ16
  | getAirGain =>
    cases ht
    exact .answer s.airGain (BitVec.ofInt 32 (q16ToDb s.airGain)) s.r2 s.r3 statusOk nofun
  | setAirPreset =>
    simp only [exec, execSetAirPreset] at ht
    split at ht
    · cases ht
      exact .answer s.r0 s.r1 s.r2 s.r3 statusBadOperand nofun
    · rename_i db hdb
      obtain ⟨hlt, -⟩ := List.getElem?_eq_some_iff.mp hdb
      split at ht <;> cases ht
      · exact .presetOff (Nat.zero_lt_of_lt hlt)
      · exact .preset db hlt
  | getAirPreset =>
    cases ht
    exact .answer (BitVec.ofNat 32 s.airPresetIdx.toNat) (BitVec.ofNat 32 s.params.airPresetDb.length)
      s.r2 s.r3 statusOk nofun
  | evFill0 => exact absurd rfl (he .first)
  | evFill1 => exact absurd rfl (he .second)
  | _ => cases hi

/-- An instruction of a run is a fill event or a command. -/
theorem run_cases {i : Instr} {s t : State} (hi : isRunInstr i = true) (ht : exec i s = .next t) :
    (∃ h, i = eventInstr h ∧ fillEvent s h = .ok t) ∨
    ((∀ h, i ≠ eventInstr h) ∧ CommandEffect s i t) := by
  by_cases he : ∃ h, i = eventInstr h
  · obtain ⟨h, rfl⟩ := he
    cases h with
    | first => exact .inl ⟨.first, rfl, evFill0_next ht⟩
    | second => exact .inl ⟨.second, rfl, evFill1_next ht⟩
  · have hne : ∀ h, i ≠ eventInstr h := fun h hi' => he ⟨h, hi'⟩
    exact .inr ⟨hne, command_effect hi hne ht⟩

/-- What the parts of a fill event keep, the event keeps (R207). -/
theorem event_preserves {P : State → Prop} {h : Half} (hsilence : ∀ u, P u → P (u.silenceHalf h))
    (hended : ∀ u, P u → P (SessionEnded u)) (hpause : ∀ u, P u → P (u.completePause h))
    (hshorten : ∀ u, P u → P u.shortenEnd) (hfill : ∀ u v, fill u h = .ok v → P u → P v) {s t : State}
    (ht : fillEvent s h = .ok t) (hs : P s) : P t := by
  have fillEnd : ∀ {s' : State}, P s' →
      (∃ u, fill s' h = .ok u ∧ t = if u.endOff.toNat ≤ u.cur.toNat then SessionEnded u else u) →
      P t := by
    rintro s' hs' ⟨u, hu, rfl⟩
    split
    · exact hended u (hfill s' u hu hs')
    · exact hfill s' u hu hs'
  rcases event_form ht with ⟨-, rfl⟩ | ⟨-, -, rfl⟩ | ⟨-, -, rfl⟩ | ⟨-, -, rfl⟩ | ⟨-, -, hf⟩ | ⟨-, hf⟩
  · exact hsilence s hs
  · exact hsilence s hs
  · exact hended _ (hsilence s hs)
  · exact hpause s hs
  · exact fillEnd hs hf
  · split at hf
    · exact fillEnd (hshorten s hs) hf
    · exact fillEnd hs hf

theorem runOnChannel_watched (c : Channel) (s : State) (f : ChannelState → S16 × ChannelState) :
    (runOnChannel c s f).watched = s.watched :=
  setChan_watched s c (f (s.chan c)).2

/-- What a stage operation issued alone can do. Only the chunk stages and the tick of the fade counters
reach a field that an invariant reads. -/
inductive StageEffect (s : State) : State → Prop
  | unwatched {t : State} : t.watched = s.watched → StageEffect s t
  | fill {h : Half} {t : State} : fill s h = .ok t → StageEffect s (t.drive [])
  | fadeTick : StageEffect s (s.fadeTick.drive [])
  | endSession : StageEffect s ((SessionEnded s).drive [])
  | silenceHalf (h : Half) : StageEffect s ((s.silenceHalf h).drive [])

/-- Every stage operation has one of these effects. -/
theorem stage_effect {i : Instr} {s t : State} (hi : isRunInstr i = false) (ht : exec i s = .next t) :
    StageEffect s t := by
  cases i with
  | q16Mul _ _ | clamp16 _ | q16FromReal _ _ | alphaFromCutoff _ _ | dbToQ16 _ | q16ToDb _
  | secToSamples _ _ | biquadCoef _ | fadeIn _ _ _ | fadeOutPause _ _ _ | fadeOutEnd _ _ _ | noiseGate _
  | softClip _ | lcgDraw | tpdfDither | volCurve _ | volApply _ _ =>
    cases ht; exact .unwatched rfl
  | dcBlock c _ | lpf1 c _ _ _ | biquadStep c _ _ _ | airShelf c _ _ =>
    cases ht; exact .unwatched (runOnChannel_watched c s _)
  | biquadWarmup c _ _ _ | chain c _ _ => cases ht; exact .unwatched (setChan_watched s c _)
  | u8ToS16 p =>
    simp only [exec, execU8ToS16, u8ToS16] at ht
    split at ht
    · cases ht
    · rename_i h
      split at h <;> cases h
      cases ht
      exact .unwatched rfl
  | s16Read p =>
    simp only [exec, execS16Read] at ht
    split at ht <;> cases ht
    exact .unwatched rfl
  | fill h =>
    simp only [exec, execFill] at ht
    split at ht <;> cases ht
    exact .fill ‹_›
  | fadeTick => cases ht; exact .fadeTick
  | endSession => cases ht; rw [endSession_eq]; exact .endSession
  | silenceHalf h => cases ht; exact .silenceHalf h
  | _ => cases hi

/-! ### Ranges -/

theorem toNat_ofNat_le {w n m : Nat} (h : n ≤ m) : (BitVec.ofNat w n).toNat ≤ m := by
  rw [BitVec.toNat_ofNat]
  exact (Nat.mod_le _ _).trans h

theorem toNat_secToSamples_le (sec rate : Word) : (secToSamples sec rate).toNat ≤ 2147483647 :=
  toNat_ofNat_le (min_le_right _ _)

theorem toNat_dbToQ16_le (d : Word) : (dbToQ16 d).toNat ≤ 131072 :=
  toNat_ofNat_le (min_le_right _ _)

theorem fadeGet_fadeSet (T : FadeTable) (v : Word) (w w' : FadeWindow) :
    fadeGet (fadeSet T v w) w' = if w' = w then v else fadeGet T w' := by
  cases w <;> cases w' <;> rfl

theorem toNat_fadeGet_fadeSet_le {T : FadeTable} {v : Word} {m : Nat} (w : FadeWindow)
    (hT : ∀ w, (fadeGet T w).toNat ≤ m) (hv : v.toNat ≤ m) (w' : FadeWindow) :
    (fadeGet (fadeSet T v w) w').toNat ≤ m := by
  rw [fadeGet_fadeSet]
  split
  · exact hv
  · exact hT w'

theorem toNat_fadeGet_fadeCounts_le (sec : FadeTable) (rate : Word) (w : FadeWindow) :
    (fadeGet (fadeCounts sec rate) w).toNat ≤ 2147483647 := by
  cases w <;> exact toNat_secToSamples_le _ _

/-- R37 leaves a makeup gain of R36's range. -/
theorem normMakeup_range {max v d : Word} (hd : 1 ≤ d.toNat ∧ d.toNat ≤ max.toNat) :
    1 ≤ (normMakeup max v d).toNat ∧ (normMakeup max v d).toNat ≤ max.toNat := by
  unfold normMakeup
  split
  · exact hd
  · omega

/-- R36: a configuration that SET_FILTER_CONFIG accepts is legal. -/
theorem configOf_legal {p : Params} {w0 w1 w2 w3 : Word} {c : FilterConfig} (hp : p.legal)
    (hc : configOf p w0 w1 w2 w3 = some c) : c.legal p.makeupMax := by
  obtain ⟨-, -, ⟨-, h8lo, h8hi, h16lo, h16hi⟩, -⟩ := hp
  unfold configOf at hc
  split at hc
  · split at hc <;> cases hc
    obtain ⟨r8lo, r8hi⟩ := normMakeup_range (v := w1) ⟨h8lo, h8hi⟩
    obtain ⟨r16lo, r16hi⟩ := normMakeup_range (v := w2) ⟨h16lo, h16hi⟩
    exact ⟨r8lo, r8hi, r16lo, r16hi⟩
  · cases hc

/-- A ramp at most as far as its length gives at most the full level. -/
theorem mul_div_le_of_le {k m n : Nat} (h : k ≤ n) : k * m / n ≤ m :=
  Nat.div_le_of_le_mul (Nat.mul_le_mul_right m h)

/-- R34: the level PAUSE starts from is at most the window's. -/
theorem toNat_pauseLevel_le {s : State} (hs : s.fadeInRem.toNat ≤ s.fadeInTot.toNat) :
    (pauseLevel s).toNat ≤ s.fadeSmp.pauseOut.toNat := by
  simp only [pauseLevel]
  split
  · rw [if_neg (Nat.not_lt.mpr hs)]
    exact toNat_ofNat_le (mul_div_le_of_le (Nat.sub_le _ _))
  · split
    · rename_i hend
      exact toNat_ofNat_le (mul_div_le_of_le hend.2)
    · exact le_rfl

theorem toNat_sat32 (n : Nat) : (sat32 n).toNat = min n 4294967295 := by
  rw [sat32, BitVec.toNat_ofNat, Nat.mod_eq_of_lt (by omega)]

/-! ### What keeps the state invariant -/

theorem silenceHalf_keeps_stateInv {s : State} (h : Half) (hs : StateInv s) : StateInv (s.silenceHalf h) :=
  { hs with outLength := (length_silenceFrames _ _ s.out).trans hs.outLength }

theorem sessionEnded_keeps_stateInv {s : State} (hs : StateInv s) : StateInv (SessionEnded s) :=
  { hs with
    fadeIn := Nat.zero_le _
    fadeOut := le_rfl
    fadeOutTot := Nat.zero_le _
    notError := nofun }

theorem completePause_keeps_stateInv {s : State} (h : Half) (hs : StateInv s) :
    StateInv (s.completePause h) :=
  { silenceHalf_keeps_stateInv h hs with notError := nofun }

theorem shortenEnd_keeps_stateInv {s : State} (hs : StateInv s) : StateInv s.shortenEnd :=
  { hs with }

theorem fadeTick_keeps_stateInv {s : State} (hs : StateInv s) : StateInv s.fadeTick :=
  { hs with
    fadeIn := by
      rw [toNat_fadeTick_fadeInRem]
      exact (Nat.sub_le _ _).trans hs.fadeIn
    fadeOut := by
      have hle : s.fadeTick.fadeOutRem.toNat ≤ s.fadeOutRem.toNat := by
        rw [toNat_fadeTick_fadeOutRem]
        split <;> omega
      exact hle.trans hs.fadeOut }

theorem fill_keeps_stateInv {s t : State} {h : Half} (ht : fill s h = .ok t) (hs : StateInv s) :
    StateInv t := by
  obtain ⟨heq, hlen, hin, hout⟩ := fill_form ht
  rw [heq]
  exact { hs with
    outLength := hlen.trans hs.outLength
    fadeIn := hin.trans hs.fadeIn
    fadeOut := hout.trans hs.fadeOut }

theorem event_keeps_stateInv {s t : State} {h : Half} (ht : fillEvent s h = .ok t) (hs : StateInv s) :
    StateInv t :=
  event_preserves (P := StateInv) (fun _ => silenceHalf_keeps_stateInv h)
    (fun _ => sessionEnded_keeps_stateInv) (fun _ => completePause_keeps_stateInv h)
    (fun _ => shortenEnd_keeps_stateInv) (fun _ _ => fill_keeps_stateInv) ht hs

theorem startFades_keeps_stateInv {s : State} (hs : StateInv s) : StateInv s.startFades :=
  { hs with
    fadeIn := le_rfl
    fadeOut := le_rfl
    fadeInTot := toNat_secToSamples_le _ _
    fadeOutTot := Nat.zero_le _
    fadeSmp := toNat_fadeGet_fadeCounts_le _ _ }

theorem startTransport_keeps_stateInv {s : State} (hs : StateInv s) : StateInv s.startTransport := by
  rw [startTransport_form]
  split <;> exact { hs with notError := nofun }

theorem command_keeps_stateInv {i : Instr} {s t : State} (ht : CommandEffect s i t) (hs : StateInv s) :
    StateInv t := by
  cases ht with
  | answer _ _ _ _ _ _ => exact hs.of_watched rfl
  | play _ _ _ hw h1 h2 =>
    have hopen : StateInv s.openSession := { hs with }
    have hstart := startFades_keeps_stateInv (hopen.of_watched (takeRate_watched _))
    have hwarm := hstart.of_watched (warmup_watched hw)
    exact startTransport_keeps_stateInv (fill_keeps_stateInv h2 (fill_keeps_stateInv h1 hwarm))
  | pause _ =>
    exact { hs with
      fadeIn := Nat.zero_le _
      fadeOut := toNat_pauseLevel_le hs.fadeIn
      fadeOutTot := hs.fadeSmp .pauseOut
      notError := nofun }
  | resume _ =>
    exact { hs with
      fadeIn := le_rfl
      fadeOut := le_rfl
      fadeInTot := hs.fadeSmp .resumeIn
      fadeOutTot := Nat.zero_le _
      notError := nofun }
  | stop => exact hs.of_watched rfl
  | config hc => exact { hs with cfg := configOf_legal hs.params hc }
  | fadeTime w =>
    exact { hs with fadeSmp := toNat_fadeGet_fadeSet_le w hs.fadeSmp (toNat_secToSamples_le _ _) }
  | airGainDb => exact { hs with airGain := toNat_dbToQ16_le _ }
  | airGainQ16 => exact { hs with airGain := toNat_ofNat_le (min_le_right _ _) }
  | presetOff h0 => exact { hs with preset := h0 }
  | preset db hlt =>
    exact { hs with
      airGain := toNat_dbToQ16_le db
      preset := (toNat_ofNat_le le_rfl).trans_lt hlt }

theorem stage_keeps_stateInv {s t : State} (ht : StageEffect s t) (hs : StateInv s) : StateInv t := by
  cases ht with
  | unwatched h => exact hs.of_watched h
  | fill h => exact (fill_keeps_stateInv h hs).of_watched rfl
  | fadeTick => exact (fadeTick_keeps_stateInv hs).of_watched rfl
  | endSession => exact (sessionEnded_keeps_stateInv hs).of_watched rfl
  | silenceHalf h => exact (silenceHalf_keeps_stateInv h hs).of_watched rfl

theorem exec_keeps_stateInv {i : Instr} {s t : State} (ht : exec i s = .next t) (hs : StateInv s) :
    StateInv t := by
  cases hi : isRunInstr i with
  | true =>
    rcases run_cases hi ht with ⟨h, -, he⟩ | ⟨-, hc⟩
    · exact event_keeps_stateInv he hs
    · exact command_keeps_stateInv hc hs
  | false => exact stage_keeps_stateInv (stage_effect hi ht) hs

theorem hostStore_keeps_stateInv {s : State} (a : Word) (b : Byte) (hs : StateInv s) :
    StateInv (hostStore s a b) :=
  { hs with memory := memWrite_wf s.mem a b hs.memory }

theorem step_keeps_stateInv {s t : State} (ht : step s = .next t) (hs : StateInv s) : StateInv t := by
  have htake : ∀ rest, StateInv { s with inbox := rest } := fun _ => hs.of_watched rfl
  rcases step_form ht with ⟨-, rfl⟩ | ⟨r, v, rest, -, rfl⟩ | ⟨a, b, rest, -, rfl⟩ | ⟨w, rest, -, rfl⟩ |
    ⟨w, rest, i, -, -, hexec⟩
  · exact hs
  · exact (htake rest).of_watched (writeOperand_watched _ r v)
  · exact hostStore_keeps_stateInv a b (htake rest)
  · exact (htake rest).of_watched (accept_watched _ w)
  · exact exec_keeps_stateInv hexec ((htake rest).of_watched (accept_watched _ w))

/-- Settles O10: the state invariant holds after every step from a state that meets it. -/
theorem stepKeepsInv : Obligations.StepKeepsInv :=
  fun _ _ hs ht => step_keeps_stateInv ht hs

/-! ### What keeps the session invariant -/

/-- The part of the session invariant that holds from the moment PLAY opens the session: all of it but
the cursor's lower bound and the saved position. -/
structure Admitted (s : State) : Prop where
  endWithin : s.endOff.toNat ≤ s.srcLen.toNat
  depth : s.depth = 8 ∨ s.depth = 16
  mode : s.mode = 1 ∨ s.mode = 2
  region : s.src.toNat + s.regionBytes ≤ 4294967296
  aligned : s.depth = 16 → s.src.toNat % 2 = 0
  notNotified : s.doneFired = false

theorem inSession_iff {s : State} : InSession s ↔
    Admitted s ∧ 2 * s.stepElems ≤ s.cur.toNat ∧ (s.playState = .paused → s.pausePos = s.cur) :=
  ⟨fun h => ⟨{ h with }, h.cursor, h.pausedAt⟩, fun ⟨h, hc, hp⟩ => { h with cursor := hc, pausedAt := hp }⟩

theorem admitted_watched {s : State} : Admitted s.watched ↔ Admitted s :=
  ⟨fun h => { h with }, fun h => { h with }⟩

theorem Admitted.of_watched {s t : State} (hs : Admitted s) (h : t.watched = s.watched) : Admitted t :=
  admitted_watched.mp (h ▸ admitted_watched.mpr hs)

theorem fill_keeps_admitted {s t : State} {h : Half} (ht : fill s h = .ok t) (hs : Admitted s) :
    Admitted t := by
  rw [(fill_form ht).1]
  exact { hs with }

/-- R206: FILL moves the cursor by `STEP`, and leaves `STEP` and STATE. -/
theorem fill_cursor {s t : State} {h : Half} (ht : fill s h = .ok t) :
    t.cur.toNat = min (s.cur.toNat + s.stepElems) 4294967295 ∧ t.stepElems = s.stepElems ∧
    t.playState = s.playState := by
  rw [(fill_form ht).1]
  exact ⟨toNat_sat32 _, rfl, rfl⟩

theorem fill_keeps_inSession {s t : State} {h : Half} (ht : fill s h = .ok t) (hp : s.playState ≠ .paused)
    (hs : InSession s) : InSession t := by
  obtain ⟨hadm, hcur, -⟩ := inSession_iff.mp hs
  obtain ⟨hmove, hstep, hstate⟩ := fill_cursor ht
  have hlt := s.cur.isLt
  refine inSession_iff.mpr ⟨fill_keeps_admitted ht hadm, ?_, fun h => absurd (hstate ▸ h) hp⟩
  rw [hstep, hmove]
  omega

theorem shortenEnd_keeps_inSession {s : State} (hs : InSession s) : InSession s.shortenEnd :=
  { hs with endWithin := (toNat_ofNat_le (min_le_left _ _)).trans hs.endWithin }

theorem sessionInv_sessionEnded (s : State) : SessionInv (SessionEnded s) := nofun

theorem silenceHalf_keeps_sessionInv {s : State} (h : Half) (hs : SessionInv s) :
    SessionInv (s.silenceHalf h) :=
  fun hn => { hs hn with }

theorem completePause_keeps_inSession {s : State} (h : Half) (hs : InSession s) :
    InSession (s.completePause h) :=
  { hs with pausedAt := fun _ => rfl }

theorem event_keeps_sessionInv {s t : State} {h : Half} (ht : fillEvent s h = .ok t) (hs : SessionInv s) :
    SessionInv t := by
  have fillEnd : ∀ {s' : State}, InSession s' → s'.playState ≠ .paused →
      (∃ u, fill s' h = .ok u ∧ t = if u.endOff.toNat ≤ u.cur.toNat then SessionEnded u else u) →
      SessionInv t := by
    rintro s' hs' hp ⟨u, hu, rfl⟩
    split
    · exact sessionInv_sessionEnded u
    · exact fun _ => fill_keeps_inSession hu hp hs'
  rcases event_form ht with ⟨-, rfl⟩ | ⟨-, -, rfl⟩ | ⟨-, -, rfl⟩ | ⟨hp, -, rfl⟩ | ⟨hp, -, hf⟩ | ⟨hp, hf⟩
  · exact silenceHalf_keeps_sessionInv h hs
  · exact silenceHalf_keeps_sessionInv h hs
  · exact sessionInv_sessionEnded _
  · exact fun _ => completePause_keeps_inSession h (hs (by rw [hp]; rfl))
  · exact fillEnd (hs (by rw [hp]; rfl)) (by rw [hp]; nofun) hf
  · have hin : InSession s := hs (by rw [hp]; rfl)
    cases hreq : s.stopReq with
    | true =>
      rw [hreq] at hf
      exact fillEnd (shortenEnd_keeps_inSession hin) (show s.playState ≠ .paused by rw [hp]; nofun) hf
    | false =>
      rw [hreq] at hf
      exact fillEnd hin (by rw [hp]; nofun) hf

theorem noSession_iff (p : PlayState) : noSession p = true ↔ p = .idle ∨ p = .error ∨ p = .playingFailed := by
  cases p <;> simp [noSession]

/-- PLAY's validation is R231's. -/
theorem playValid_iff (s : State) : playValid s = true ↔ PlayAccepted s := by
  simp only [playValid, PlayAccepted, Bool.and_eq_true, Bool.or_eq_true, decide_eq_true_eq, noSession_iff,
    and_assoc]

/-- PLAY opens a session that the invariant admits (R231, R69). -/
theorem openSession_admitted {s : State} (hv : playValid s = true)
    (ha : ¬(s.a3 = 16 ∧ s.a0.toNat % 2 = 1)) (hr : playRegionEnd s ≤ 4294967296) :
    Admitted s.openSession := by
  obtain ⟨-, -, -, hd, hm, -⟩ := (playValid_iff s).mp hv
  have hdepth : s.openSession.depth.toNat = s.a3.toNat := by
    rcases hd with hd | hd <;> simp [State.openSession, hd]
  exact {
    endWithin := le_rfl
    depth := hd.imp (by simp [State.openSession, ·]) (by simp [State.openSession, ·])
    mode := hm.imp (by simp [State.openSession, ·]) (by simp [State.openSession, ·])
    region := by rw [State.regionBytes, hdepth]; exact hr
    aligned := fun h16 => by
      have h3 : s.a3 = 16 := BitVec.eq_of_toNat_eq (by rw [← hdepth, h16]; rfl)
      have hodd : ¬ s.a0.toNat % 2 = 1 := fun h => ha ⟨h3, h⟩
      exact Nat.mod_two_ne_one.mp hodd
    notNotified := rfl }

theorem stepElems_le {s : State} (hs : s.params.bufLen ≤ 2 ^ 24) : s.stepElems ≤ 2 ^ 23 := by
  have hhalf : s.halfFrames ≤ 2 ^ 22 := by
    simp only [State.halfFrames]
    omega
  rcases elems_cases s with hc | hc <;> rw [State.stepElems, hc] <;> omega

/-- R301: after PLAY's two FILLs the cursor stands at or past `2·STEP`. -/
theorem cursor_after_two_fills {s u t : State} {h k : Half} (hb : s.params.bufLen ≤ 2 ^ 24)
    (hu : fill s h = .ok u) (ht : fill u k = .ok t) : 2 * t.stepElems ≤ t.cur.toNat := by
  obtain ⟨hcu, hsu, -⟩ := fill_cursor hu
  obtain ⟨hct, hst, -⟩ := fill_cursor ht
  have hle := stepElems_le hb
  rw [hct, hcu, hst, hsu]
  omega

theorem startTransport_sessionInv {s : State} (hs : Admitted s) (hc : 2 * s.stepElems ≤ s.cur.toNat) :
    SessionInv s.startTransport := by
  rw [startTransport_form]
  split
  · exact fun _ => { hs with cursor := hc, pausedAt := nofun }
  · exact nofun

theorem command_keeps_sessionInv {i : Instr} {s t : State} (ht : CommandEffect s i t) (hinv : StateInv s)
    (hs : SessionInv s) : SessionInv t := by
  cases ht with
  | answer _ _ _ _ _ _ => exact hs.of_watched rfl
  | @play s1 s2 s3 hv ha hr hw h1 h2 =>
    have hstart : Admitted s.openSession.takeRate.startFades :=
      { (openSession_admitted hv ha hr).of_watched (takeRate_watched _) with }
    have hprm : s1.params = s.params :=
      calc s1.params
          = s.openSession.takeRate.startFades.params := params_of_watched (warmup_watched hw)
        _ = s.openSession.takeRate.params := rfl
        _ = s.openSession.params := params_of_watched (takeRate_watched s.openSession)
        _ = s.params := rfl
    have hb : s1.params.bufLen ≤ 2 ^ 24 := by
      obtain ⟨⟨-, -, hle⟩, -⟩ := hinv.params
      rwa [hprm]
    exact startTransport_sessionInv
      (fill_keeps_admitted h2 (fill_keeps_admitted h1 (hstart.of_watched (warmup_watched hw))))
      (cursor_after_two_fills hb h1 h2)
  | pause hp => exact fun _ => { hs (by rw [hp]; rfl) with pausedAt := nofun }
  | resume hp =>
    have hin : InSession s := hs (by rw [hp]; rfl)
    have hpos : 2 * s.stepElems ≤ s.pausePos.toNat := hin.pausedAt hp ▸ hin.cursor
    exact fun _ => { hin with cursor := hpos, pausedAt := nofun }
  | stop => exact hs.of_watched rfl
  | config _ | fadeTime _ | airGainDb | airGainQ16 | presetOff _ | preset _ _ =>
    exact fun hn => { hs hn with }

/-- A command word or an event is an instruction of a run (R21). -/
theorem isRunInstr_of_decode {w : PortWord} {i : Instr} (hw : ∀ id v, w ≠ .stage id v)
    (hd : decode w = .ok i) : isRunInstr i = true := by
  cases w with
  | command c =>
    simp only [decode, decodeCommand] at hd
    split at hd <;> cases hd <;> rfl
  | event h =>
    cases hd
    unfold decodeEvent
    split <;> rfl
  | stage id v => exact absurd rfl (hw id v)

theorem step_keeps_sessionInv {s t : State} (hinv : StateInv s) (hs : SessionInv s) (hrun : RunInput s)
    (ht : step s = .next t) : SessionInv t := by
  have htake : ∀ rest, SessionInv { s with inbox := rest } := fun _ => hs.of_watched rfl
  rcases step_form ht with ⟨-, rfl⟩ | ⟨r, v, rest, -, rfl⟩ | ⟨a, b, rest, -, rfl⟩ | ⟨w, rest, -, rfl⟩ |
    ⟨w, rest, i, hin, hd, hexec⟩
  · exact hs
  · exact (htake rest).of_watched (writeOperand_watched _ r v)
  · exact fun hn => { htake rest hn with }
  · exact (htake rest).of_watched (accept_watched _ w)
  · have hi : isRunInstr i = true :=
      isRunInstr_of_decode (fun id v hw => hrun id v rest (hw ▸ hin)) hd
    have htaken : SessionInv (({ s with inbox := rest } : State).accept w) :=
      (htake rest).of_watched (accept_watched _ w)
    rcases run_cases hi hexec with ⟨h, -, he⟩ | ⟨-, hc⟩
    · exact event_keeps_sessionInv he htaken
    · exact command_keeps_sessionInv hc (hinv.of_watched (accept_watched _ w)) htaken

/-- Settles O11: the session invariant holds after every step of a run from a state that meets both
invariants. -/
theorem stepKeepsSessionInv : Obligations.StepKeepsSessionInv :=
  fun _ _ hinv hs hrun ht => step_keeps_sessionInv hinv hs hrun ht

/-! ### The single-writer table (R46) -/

/-- A state without the fields that a row of R46 lets a fill event write, and without the log and the
draws of the collaborators. -/
def State.eventFixed (s : State) : State :=
  { s with
    stopReq := false, doneFired := false, playState := .idle, cur := 0, endOff := 0, pausePos := 0
    fadeInRem := 0, fadeOutRem := 0, fadeOutTot := 0, lcg := 0, chL := ChannelState.zero
    chR := ChannelState.zero, out := [], volAnswers := [], volDraws := 0, log := [] }

/-- What a fill event may change: the fields `eventFixed` drops, STOP_REQ only to 0 and DONE_FIRED only
to 1. -/
structure EventFrame (s t : State) : Prop where
  fixed : t.eventFixed = s.eventFixed
  stopReq : t.stopReq = s.stopReq ∨ t.stopReq = false
  doneFired : t.doneFired = s.doneFired ∨ t.doneFired = true

theorem EventFrame.refl (s : State) : EventFrame s s :=
  ⟨rfl, .inl rfl, .inl rfl⟩

theorem EventFrame.trans {s u t : State} (hsu : EventFrame s u) (hut : EventFrame u t) : EventFrame s t where
  fixed := hut.fixed.trans hsu.fixed
  stopReq := hut.stopReq.elim (fun h => h ▸ hsu.stopReq) .inr
  doneFired := hut.doneFired.elim (fun h => h ▸ hsu.doneFired) .inr

theorem eventFrame_silenceHalf (s : State) (h : Half) : EventFrame s (s.silenceHalf h) :=
  ⟨rfl, .inl rfl, .inl rfl⟩

theorem eventFrame_sessionEnded (s : State) : EventFrame s (SessionEnded s) :=
  ⟨rfl, .inr rfl, .inr rfl⟩

theorem eventFrame_completePause (s : State) (h : Half) : EventFrame s (s.completePause h) :=
  ⟨rfl, .inl rfl, .inl rfl⟩

theorem eventFrame_shortenEnd (s : State) : EventFrame s s.shortenEnd :=
  ⟨rfl, .inr rfl, .inl rfl⟩

theorem eventFrame_fill {s t : State} {h : Half} (ht : fill s h = .ok t) : EventFrame s t := by
  rw [(fill_form ht).1]
  exact ⟨rfl, .inl rfl, .inl rfl⟩

theorem eventFrame_of_event {s t : State} {h : Half} (ht : fillEvent s h = .ok t) : EventFrame s t :=
  event_preserves (P := EventFrame s) (fun u hu => hu.trans (eventFrame_silenceHalf u h))
    (fun u hu => hu.trans (eventFrame_sessionEnded u)) (fun u hu => hu.trans (eventFrame_completePause u h))
    (fun u hu => hu.trans (eventFrame_shortenEnd u)) (fun _ _ hv hu => hu.trans (eventFrame_fill hv)) ht
    (EventFrame.refl s)

/-- No command but PLAY writes the source description, the channel records, the generator or `OUT`. -/
theorem command_keeps_stream {i : Instr} {s t : State} (ht : CommandEffect s i t) (hi : i ≠ .play) :
    t.src = s.src ∧ t.depth = s.depth ∧ t.mode = s.mode ∧ t.sampleRate = s.sampleRate ∧
    t.doneFired = s.doneFired ∧ t.chL = s.chL ∧ t.chR = s.chR ∧ t.lcg = s.lcg ∧ t.out = s.out := by
  cases ht with
  | play => exact absurd rfl hi
  | _ => exact ⟨rfl, rfl, rfl, rfl, rfl, rfl, rfl, rfl, rfl⟩

theorem command_keeps_stopReq {i : Instr} {s t : State} (ht : CommandEffect s i t) (hi : i ≠ .play)
    (hi' : i ≠ .stop) : t.stopReq = s.stopReq := by
  cases ht with
  | play => exact absurd rfl hi
  | stop => exact absurd rfl hi'
  | _ => rfl

theorem stop_sets_stopReq {s t : State} (ht : CommandEffect s .stop t) : t.stopReq = true := by
  cases ht with
  | answer _ _ _ _ _ h => exact absurd rfl h
  | stop => rfl

/-- Outside an accepted PLAY only a RESUME that resumes writes the cursor, `END` or the saved position. -/
theorem command_keeps_cursor {i : Instr} {s t : State} (ht : CommandEffect s i t) (hi : i ≠ .play)
    (hr : ¬(i = .resume ∧ s.playState = .paused)) :
    t.cur = s.cur ∧ t.endOff = s.endOff ∧ t.pausePos = s.pausePos := by
  cases ht with
  | play => exact absurd rfl hi
  | resume hp => exact absurd ⟨rfl, hp⟩ hr
  | _ => exact ⟨rfl, rfl, rfl⟩

/-- The fade registers and STATE belong to PLAY, to a RESUME that resumes and to a PAUSE that pauses. -/
theorem command_keeps_fades {i : Instr} {s t : State} (ht : CommandEffect s i t) (hi : i ≠ .play)
    (hr : ¬(i = .resume ∧ s.playState = .paused)) (hp : ¬(i = .pause ∧ s.playState = .playing)) :
    t.fadeInRem = s.fadeInRem ∧ t.fadeInTot = s.fadeInTot ∧ t.fadeOutRem = s.fadeOutRem ∧
    t.fadeOutTot = s.fadeOutTot ∧ t.playState = s.playState := by
  cases ht with
  | play => exact absurd rfl hi
  | resume h => exact absurd ⟨rfl, h⟩ hr
  | pause h => exact absurd ⟨rfl, h⟩ hp
  | _ => exact ⟨rfl, rfl, rfl, rfl, rfl⟩

/-- The two session flags, which FILL and the steps of PLAY around it leave alone. -/
def State.flags (s : State) : Bool × Bool := (s.stopReq, s.doneFired)

theorem fill_flags {s t : State} {h : Half} (ht : fill s h = .ok t) : t.flags = s.flags := by
  rw [(fill_form ht).1]; rfl

theorem warmup_flags {s t : State} (ht : warmup s = .ok t) : t.flags = s.flags := by
  rw [warmup_form ht]; rfl

theorem takeRate_flags (s : State) : s.takeRate.flags = s.flags := by
  unfold State.takeRate
  split <;> rfl

theorem startTransport_flags (s : State) : s.startTransport.flags = s.flags := by
  rw [startTransport_form]
  split <;> rfl

/-- PLAY clears STOP_REQ and DONE_FIRED where it is accepted, and leaves them where it is refused. -/
theorem play_flags {s t : State} (ht : CommandEffect s .play t) :
    t.flags = s.flags ∨ t.flags = (false, false) := by
  cases ht with
  | answer _ _ _ _ _ _ => exact .inl rfl
  | @play s1 s2 s3 _ _ _ hw h1 h2 =>
    right
    calc s3.startTransport.flags
        = s3.flags := startTransport_flags s3
      _ = s2.flags := fill_flags h2
      _ = s1.flags := fill_flags h1
      _ = s.openSession.takeRate.startFades.flags := warmup_flags hw
      _ = s.openSession.flags := takeRate_flags s.openSession

/-- Settles O13: R46's rows hold, for a fill event by its frame and for a command row by row. -/
theorem singleWriterTable : Obligations.SingleWriterTable := by
  intro i s t hi ht
  rcases run_cases hi ht with ⟨h, rfl, he⟩ | ⟨hne, hc⟩
  · refine ⟨fun _ => ?_, fun h0 h1 => ?_⟩
    · obtain ⟨hfix, hstop, hdone⟩ := eventFrame_of_event he
      have keeps {α : Type} (f : State → α) : f t.eventFixed = f s.eventFixed := congrArg f hfix
      exact ⟨keeps State.cfg, keeps State.airGain, keeps State.airPresetIdx, keeps State.fadeSec,
        keeps State.fadeSmp, keeps State.src, keeps State.depth, keeps State.mode, keeps State.sampleRate,
        hstop, hdone, keeps State.cmd, keeps State.a0, keeps State.a1, keeps State.a2, keeps State.a3,
        keeps State.a4, keeps State.r0, keeps State.r1, keeps State.r2, keeps State.r3,
        keeps State.status⟩
    · cases h with
      | first => exact absurd rfl h0
      | second => exact absurd rfl h1
  · refine ⟨fun he => he.elim (absurd · (hne .first)) (absurd · (hne .second)), fun _ _ => ?_⟩
    refine ⟨command_keeps_stream hc, command_keeps_stopReq hc, ?_, ?_, command_keeps_cursor hc,
      command_keeps_fades hc⟩
    · rintro rfl
      exact stop_sets_stopReq hc
    · rintro rfl
      rcases play_flags hc with hf | hf
      · exact ⟨.inl (congrArg Prod.fst hf), .inl (congrArg Prod.snd hf)⟩
      · exact ⟨.inr (congrArg Prod.fst hf), .inr (congrArg Prod.snd hf)⟩

/-! ### Power-on and the LPF selections -/

/-- Settles O8: each field of the power-on state is its row of R47. -/
theorem powerOnRegisters : Obligations.PowerOnRegisters := by
  intro p
  simp only [State.powerOn, ChannelState.zero, and_self]

theorem powerOn_stateInv {p : Params} (hp : p.legal) : StateInv (State.powerOn p) := by
  have ⟨_, _, _, ⟨hpreset, _⟩, hgain, hcfg, _⟩ := hp
  exact {
    memory := rfl
    params := hp
    outLength := List.length_replicate
    fadeIn := le_rfl
    fadeOut := le_rfl
    fadeInTot := Nat.zero_le _
    fadeOutTot := Nat.zero_le _
    fadeSmp := fun w => by cases w <;> exact Nat.zero_le _
    cfg := hcfg
    airGain := hgain
    preset := hpreset
    notError := nofun }

/-- No session runs after power-on. -/
theorem powerOn_sessionInv (p : Params) : SessionInv (State.powerOn p) := nofun

theorem configParams_legal : Config.params.legal := by decide

/-- Settles O9: power-on meets both invariants, and reset is power-on with the legal `Config.params`. -/
theorem powerOnMeetsInv : Obligations.PowerOnMeetsInv :=
  ⟨fun p hp => ⟨powerOn_stateInv hp, powerOn_sessionInv p⟩, rfl, powerOn_stateInv configParams_legal,
    powerOn_sessionInv Config.params⟩

/-- R44, R92: the alpha of a level that is not `Off`. -/
theorem levelAlpha_of_ne_off (T : LevelTable) (custom : U16) (l : LpfLevel) :
    l ≠ .off → levelAlpha T custom l = some (match l with
      | .verySoft => T.verySoft
      | .soft => T.soft
      | .medium => T.medium
      | .firm => T.firm
      | .aggressive => T.aggressive
      | .custom => custom
      | .off => 0) := by
  cases l with
  | off => exact absurd rfl
  | _ => exact fun _ => rfl

/-- An LPF path is inactive when it is not enabled or its level is `Off` (R44). -/
theorem selection_eq_none {en : Bool} (T : LevelTable) (custom : U16) {l : LpfLevel}
    (h : en = false ∨ l = .off) : (if en then levelAlpha T custom l else none) = none := by
  rcases h with rfl | rfl
  · rfl
  · exact ite_self none

/-- Settles O37: both paths select by their enable and level, and `DC_SOFT` selects `alpha_dc`. -/
theorem lpfSelections : Obligations.LpfSelections := by
  intro s
  refine ⟨selection_eq_none _ _, selection_eq_none _ _, fun hen hl => ?_, fun hen hl => ?_, rfl⟩
  · rw [State.alpha16, if_pos hen]
    exact levelAlpha_of_ne_off _ _ _ hl
  · rw [State.alpha8, if_pos hen]
    exact levelAlpha_of_ne_off _ _ _ hl

end Sys2Proof.Machine
end

section
/-! SUPPORT. The layer of the source's family: what the block only reads, which no instruction writes, and what
a HOST store leaves of the admitted region. -/

namespace Sys2Proof.Machine

/-! ### What no instruction writes -/

/-- What is on the HOST's side of the block: source memory, the parameters, the waiting inputs, and the
flag of the HOST's duty. -/
def State.hostSide (s : State) : Memory × Params × List Input × Bool :=
  (s.mem, s.params, s.inbox, s.sourceChanged)

theorem hostSide_eq_iff {s t : State} : t.hostSide = s.hostSide ↔
    t.mem = s.mem ∧ t.params = s.params ∧ t.inbox = s.inbox ∧ t.sourceChanged = s.sourceChanged := by
  simp only [State.hostSide, Prod.mk.injEq]

theorem setChan_hostSide (s : State) (c : Channel) (ch : ChannelState) :
    (s.setChan c ch).hostSide = s.hostSide := by
  cases c <;> rfl

theorem takeRate_hostSide (s : State) : s.takeRate.hostSide = s.hostSide := by
  unfold State.takeRate
  split <;> rfl

theorem warmup_hostSide {s t : State} (ht : warmup s = .ok t) : t.hostSide = s.hostSide := by
  rw [warmup_form ht]; rfl

theorem fill_hostSide {s t : State} {h : Half} (ht : fill s h = .ok t) : t.hostSide = s.hostSide := by
  rw [(fill_form ht).1]; rfl

theorem startTransport_hostSide (s : State) : s.startTransport.hostSide = s.hostSide := by
  rw [startTransport_form]
  split <;> rfl

theorem event_hostSide {s t : State} {h : Half} (ht : fillEvent s h = .ok t) : t.hostSide = s.hostSide :=
  event_preserves (P := fun u => u.hostSide = s.hostSide) (fun _ => id) (fun _ => id) (fun _ => id)
    (fun _ => id) (fun _ _ hv hu => (fill_hostSide hv).trans hu) ht rfl

/-- A command keeps the HOST's side; an accepted PLAY leaves what opening the session leaves. -/
theorem command_hostSide {i : Instr} {s t : State} (ht : CommandEffect s i t) :
    t.hostSide = s.hostSide ∨ i = .play ∧ t.hostSide = s.openSession.hostSide := by
  cases ht with
  | @play s1 s2 s3 _ _ _ hw h1 h2 =>
    refine .inr ⟨rfl, ?_⟩
    calc s3.startTransport.hostSide
        = s3.hostSide := startTransport_hostSide s3
      _ = s2.hostSide := fill_hostSide h2
      _ = s1.hostSide := fill_hostSide h1
      _ = s.openSession.takeRate.startFades.hostSide := warmup_hostSide hw
      _ = s.openSession.hostSide := takeRate_hostSide s.openSession
  | _ => exact .inl rfl

/-- A stage operation issued alone computes from its wires, or writes what its part of a run's instruction
writes (R97): never the HOST's side. -/
theorem stage_hostSide {i : Instr} {s t : State} (hi : isRunInstr i = false) (ht : exec i s = .next t) :
    t.hostSide = s.hostSide := by
  cases i with
  | dcBlock c _ | lpf1 c _ _ _ | biquadStep c _ _ _ | biquadWarmup c _ _ _ | airShelf c _ _ | chain c _ _ =>
    cases ht; exact setChan_hostSide s c _
  | u8ToS16 p =>
    simp only [exec, execU8ToS16, u8ToS16] at ht
    split at ht
    · cases ht
    · rename_i h
      split at h <;> cases h
      cases ht
      rfl
  | s16Read p =>
    simp only [exec, execS16Read] at ht
    split at ht <;> cases ht
    rfl
  | fill h =>
    simp only [exec, execFill] at ht
    split at ht <;> cases ht
    rename_i hf
    exact (fill_hostSide hf :)
  | endSession => cases ht; rw [endSession_eq]; rfl
  | q16Mul _ _ | clamp16 _ | q16FromReal _ _ | alphaFromCutoff _ _ | dbToQ16 _ | q16ToDb _
  | secToSamples _ _ | biquadCoef _ | fadeIn _ _ _ | fadeOutPause _ _ _ | fadeOutEnd _ _ _ | noiseGate _
  | softClip _ | lcgDraw | tpdfDither | volCurve _ | volApply _ _ | fadeTick | silenceHalf _ =>
    cases ht; rfl
  | _ => cases hi

theorem exec_hostSide {i : Instr} {s t : State} (ht : exec i s = .next t) :
    t.hostSide = s.hostSide ∨ i = .play ∧ t.hostSide = s.openSession.hostSide := by
  cases hi : isRunInstr i with
  | true =>
    rcases run_cases hi ht with ⟨h, -, he⟩ | ⟨-, hc⟩
    · exact .inl (event_hostSide he)
    · exact command_hostSide hc
  | false => exact .inl (stage_hostSide hi ht)

/-- R60: an instruction leaves the HOST's side alone, but for the flag, which PLAY takes down. -/
theorem exec_keeps_source {i : Instr} {s t : State} (ht : exec i s = .next t) :
    t.mem = s.mem ∧ t.params = s.params ∧ t.inbox = s.inbox ∧
    (t.sourceChanged = s.sourceChanged ∨ i = .play ∧ t.sourceChanged = false) := by
  rcases exec_hostSide ht with h | ⟨hi, h⟩ <;> obtain ⟨hmem, hprm, hin, hflag⟩ := hostSide_eq_iff.mp h
  · exact ⟨hmem, hprm, hin, .inl hflag⟩
  · exact ⟨hmem, hprm, hin, .inr ⟨hi, hflag⟩⟩

/-! ### What a step does to source memory (R79, R289) -/

theorem mem_of_watched {s t : State} (h : t.watched = s.watched) : t.mem = s.mem :=
  show t.watched.mem = s.watched.mem by rw [h]

/-- A step is a HOST store, or it leaves source memory and the parameters. -/
theorem step_mem_cases {s t : State} (ht : step s = .next t) :
    (t.mem = s.mem ∧ t.params = s.params) ∨
    ∃ a b rest, s.inbox = .store a b :: rest ∧ t = hostStore { s with inbox := rest } a b := by
  rcases step_form ht with ⟨-, rfl⟩ | ⟨r, v, rest, -, rfl⟩ | ⟨a, b, rest, hin, rfl⟩ | ⟨w, rest, -, rfl⟩ |
    ⟨w, rest, i, -, -, hexec⟩
  · exact .inl ⟨rfl, rfl⟩
  · have hw := writeOperand_watched { s with inbox := rest } r v
    exact .inl ⟨mem_of_watched hw, params_of_watched hw⟩
  · exact .inr ⟨a, b, rest, hin, rfl⟩
  · have hw := accept_watched { s with inbox := rest } w
    exact .inl ⟨mem_of_watched hw, params_of_watched hw⟩
  · have hw := accept_watched { s with inbox := rest } w
    obtain ⟨hmem, hprm, -⟩ := exec_keeps_source hexec
    exact .inl ⟨hmem.trans (mem_of_watched hw), hprm.trans (params_of_watched hw)⟩

theorem storeAllowed_eq_false {s : State} {x : Nat} (hn : noSession s.playState = false)
    (hlo : s.src.toNat ≤ x) (hhi : x < s.src.toNat + s.regionBytes) : s.storeAllowed x = false := by
  simp only [State.storeAllowed, hn, Bool.false_or, Bool.or_eq_false_iff, decide_eq_false_iff_not]
  omega

/-- A HOST store that leaves the flag down in a session leaves each byte of the admitted region: on the
byte it stores to, the flag stays down only if the byte is there already. -/
theorem hostStore_keeps_region {s : State} {a : Word} {b : Byte} {x : Nat}
    (hn : noSession s.playState = false) (hflag : (hostStore s a b).sourceChanged = false)
    (hlo : s.src.toNat ≤ x) (hhi : x < s.src.toNat + s.regionBytes) :
    memRead (hostStore s a b).mem x = memRead s.mem x := by
  obtain ⟨hstored, hother, -, hraise⟩ := hostStore_spec s a b
  by_cases hx : x = a.toNat
  · subst hx
    have hheld : memRead s.mem a.toNat = some b := by
      by_contra hne
      have hup := hraise.mpr (.inr ⟨storeAllowed_eq_false hn hlo hhi, hne⟩)
      rw [hflag] at hup
      cases hup
    rw [hstored, hheld]
  · exact hother x hx

theorem noSession_eq_false {p : PlayState} (h : p = .playing ∨ p = .pausing ∨ p = .paused) :
    noSession p = false := by
  rcases h with rfl | rfl | rfl <;> rfl

/-- Settles O12: no instruction writes the HOST's side, so only a HOST store changes memory, and one that
changes the admitted region in a session raises the flag. -/
theorem onlyHostStoresChangeSource : Obligations.OnlyHostStoresChangeSource := by
  refine ⟨fun _ _ _ ht => exec_keeps_source ht, fun s t ht => ?_⟩
  rcases step_mem_cases ht with ⟨hmem, hprm⟩ | ⟨a, b, rest, hin, rfl⟩
  · exact ⟨hprm, .inl hmem, fun _ _ x _ _ => by rw [hmem]⟩
  · exact ⟨rfl, .inr ⟨a, b, rest, hin, rfl⟩, fun hp hflag x hlo hhi =>
      hostStore_keeps_region (s := { s with inbox := rest }) (noSession_eq_false hp) hflag hlo hhi⟩

end Sys2Proof.Machine
end

section
/-! SUPPORT. The layer of the encoding's family: what each wire carries, what each port decodes to, what a
step does with each input, which operand registers a command reads, and the configuration words. -/

namespace Sys2Proof

/-! ### Wires (R98) -/

@[simp] theorem wireS16_toInt (x : S16) : wireS16 x.toInt = some x := by
  rw [wireS16, if_pos (Machine.s16_range x), BitVec.ofInt_toInt]

@[simp] theorem wireU16_toNat (x : U16) : wireU16 x.toNat = some x := by
  rw [wireU16, if_pos (by omega), BitVec.ofInt_natCast, BitVec.ofNat_toNat, BitVec.setWidth_eq]

@[simp] theorem wireU32_toNat (x : Word) : wireU32 x.toNat = some x := by
  rw [wireU32, if_pos (by omega), BitVec.ofInt_natCast, BitVec.ofNat_toNat, BitVec.setWidth_eq]

@[simp] theorem wireS32_toInt (x : Word) : wireS32 x.toInt = some x := by
  have hlo := BitVec.le_toInt x
  have hhi := BitVec.toInt_lt (x := x)
  rw [wireS32, if_pos (by omega), BitVec.ofInt_toInt]

@[simp] theorem wireChannel_wire (c : Channel) : wireChannel c.wire = some c := by
  cases c <;> rfl

@[simp] theorem wireHalf_wire (h : Half) : wireHalf h.wire = some h := by
  cases h <;> rfl

@[simp] theorem wireNat_natCast (n : Nat) : wireNat n = some n := by
  rw [wireNat, if_pos (Int.natCast_nonneg n), Int.toNat_natCast]

/-! ### Decode and encode -/

theorem decode_stage_eq_ok_iff {id : Byte} {w : Wires} {i : Instr} :
    decode (.stage id w) = .ok i ↔ decodeStageWires id.toNat w = some (some i) := by
  simp only [decode, decodeStage]
  split <;> simp [*]

/-- R93, R96, R97: the decoder reads back the port word of every well-formed instruction. -/
theorem decode_encode {i : Instr} (hi : i.wf = true) : decode (encode i) = .ok i := by
  cases i with
  | q16Mul a b =>
    exact decode_stage_eq_ok_iff.mpr (congrArg some (if_pos hi))
  | clamp16 _ | q16FromReal _ _ | alphaFromCutoff _ _ | dbToQ16 _ | q16ToDb _ | secToSamples _ _
  | dcBlock _ _ | lpf1 _ _ _ _ | biquadCoef _ | biquadStep _ _ _ _ | biquadWarmup _ _ _ _
  | airShelf _ _ _ | fadeIn _ _ _ | fadeOutPause _ _ _ | fadeOutEnd _ _ _ | noiseGate _ | softClip _
  | u8ToS16 _ | s16Read _ | volCurve _ | volApply _ _ | chain _ _ _ | fill _ | silenceHalf _ =>
    exact decode_stage_eq_ok_iff.mpr (by simp [decodeStageWires])
  | _ => rfl

theorem decode_of_encode_eq {i : Instr} {w : PortWord} (hi : i.wf = true) (hw : encode i = w) :
    decode w = .ok i :=
  hw ▸ decode_encode hi

/-- What R97's decoder makes of an id is a well-formed instruction of that id: the wires choose operands
only. -/
theorem decodeStageWires_sound {n : Nat} {w : Wires} {i : Instr}
    (h : decodeStageWires n w = some (some i)) :
    i.wf = true ∧ ∃ v, encode i = .stage (BitVec.ofNat 8 n) v := by
  unfold decodeStageWires at h
  split at h
  case h_1 =>
    simp only [wellFormedOnly, Option.some.injEq, Option.ite_none_right_eq_some] at h
    obtain ⟨hwf, rfl⟩ := h
    exact ⟨hwf, _, rfl⟩
  case h_30 => cases h
  -- The other rows, by the number of wires they read: none, one, two, three, four.
  all_goals
    simp only [Option.some.injEq, Option.bind_eq_some_iff, Option.map_eq_some_iff] at h
  case h_2 | h_19 | h_20 | h_27 | h_28 =>
    subst h; exact ⟨rfl, _, rfl⟩
  case h_3 | h_5 | h_6 | h_10 | h_17 | h_18 | h_21 | h_22 | h_23 | h_26 | h_29 =>
    obtain ⟨_, -, rfl⟩ := h
    exact ⟨rfl, _, rfl⟩
  case h_4 | h_7 | h_8 | h_24 =>
    obtain ⟨_, -, _, -, rfl⟩ := h
    exact ⟨rfl, _, rfl⟩
  case h_13 | h_14 | h_15 | h_16 | h_25 =>
    obtain ⟨_, -, _, -, _, -, rfl⟩ := h
    exact ⟨rfl, _, rfl⟩
  case h_9 | h_11 | h_12 =>
    obtain ⟨_, -, _, -, _, -, _, -, rfl⟩ := h
    exact ⟨rfl, _, rfl⟩

/-- R93, R94: a command word is one of the fifteen codes and the encoding of its command, or it is
illegal. -/
theorem decodeCommand_cases (w : Word) :
    (∃ i, decodeCommand w = .ok i ∧ i.wf = true ∧ encode i = .command w ∧
      1 ≤ w.toNat ∧ w.toNat ≤ 15) ∨
    (decodeCommand w = .error (.illegalCommand w) ∧ (w.toNat = 0 ∨ 16 ≤ w.toNat)) := by
  unfold decodeCommand
  split
  case h_16 => exact .inr ⟨rfl, by grind⟩
  all_goals
    rename_i hw
    exact .inl ⟨_, rfl, rfl, congrArg PortWord.command (BitVec.eq_of_toNat_eq hw.symm), by omega⟩

theorem decode_command_eq_error_iff (w : Word) :
    decode (.command w) = .error (.illegalCommand w) ↔
      w.toNat % 256 = 0 ∨ 16 ≤ w.toNat % 256 ∨ w.toNat / 256 ≠ 0 := by
  rcases decodeCommand_cases w with ⟨i, hi, -, -, hlo, hhi⟩ | ⟨he, hout⟩
  · simp only [decode, hi, reduceCtorEq, false_iff]
    omega
  · simp only [decode, he, true_iff]
    omega

/-- Settles O3: each wire reads back the operand it carries, whatever the operand. -/
theorem decodeEncodeAgree : Obligations.DecodeEncodeAgree := fun _ => decode_encode

/-- Settles O4: on each of the three ports the code alone chooses the instruction. -/
theorem decodedWordsEncodeBack : Obligations.DecodedWordsEncodeBack := by
  intro w i h
  cases w with
  | command c =>
    rcases decodeCommand_cases c with ⟨j, hj, hwf, henc, -⟩ | ⟨he, -⟩
    · obtain rfl : j = i := Except.ok.inj (hj.symm.trans h)
      exact ⟨hwf, henc⟩
    · cases he.symm.trans h
  | event b =>
    cases h
    rcases BitVec.eq_zero_or_eq_one b with rfl | rfl <;> exact ⟨rfl, rfl⟩
  | stage id v =>
    have hs := decodeStageWires_sound (decode_stage_eq_ok_iff.mp h)
    rwa [BitVec.ofNat_toNat, BitVec.setWidth_eq] at hs

/-- Settles O1: each of the fifteen words is the encoding of its command, and the decoder lists no
other. -/
theorem commandWordsDecode : Obligations.CommandWordsDecode := by
  unfold Obligations.CommandWordsDecode
  and_intros
  on_goal 16 => exact fun w => (decode_command_eq_error_iff w).symm
  all_goals exact decode_of_encode_eq rfl rfl

/-- Settles O2: each word is the encoding of its instruction. -/
theorem eventAndStageWordsDecode : Obligations.EventAndStageWordsDecode := by
  unfold Obligations.EventAndStageWordsDecode
  and_intros
  all_goals exact decode_of_encode_eq rfl rfl

end Sys2Proof

namespace Sys2Proof.Machine

/-! ### Steps -/

theorem step_of_decode_ok {s : State} {w : PortWord} {rest : List Input} {i : Instr}
    (hin : s.inbox = .port w :: rest) (hw : decode w = .ok i) :
    step s = exec i (({ s with inbox := rest } : State).accept w) := by
  simp only [step, fetch, hin, fetchWord, hw]

theorem step_of_decode_error {s : State} {w : PortWord} {rest : List Input} {e : DecodeError}
    (hin : s.inbox = .port w :: rest) (hw : decode w = .error e) :
    step s = rejectWord (({ s with inbox := rest } : State).accept w) e := by
  simp only [step, fetch, hin, fetchWord, hw]

theorem step_of_operand {s : State} {r : OperandReg} {v : Word} {rest : List Input}
    (hin : s.inbox = .operand r v :: rest) :
    step s = .next (({ s with inbox := rest } : State).writeOperand r v) := by
  simp only [step, fetch, hin]

theorem step_of_store {s : State} {a : Word} {b : Byte} {rest : List Input}
    (hin : s.inbox = .store a b :: rest) :
    step s = .next (hostStore { s with inbox := rest } a b) := by
  simp only [step, fetch, hin]

theorem step_of_no_input {s : State} (hin : s.inbox = []) : step s = .next s := by
  simp only [step, fetch, hin]

theorem noSession_eq_false_iff {p : PlayState} :
    noSession p = false ↔ p = .playing ∨ p = .pausing ∨ p = .paused := by
  cases p <;> decide

/-- A store breaks the HOST's duty exactly when a session runs and the address is in the admitted region
(R79). -/
theorem storeAllowed_eq_false_iff {s : State} {x : Nat} :
    s.storeAllowed x = false ↔
      (s.playState = .playing ∨ s.playState = .pausing ∨ s.playState = .paused) ∧
      s.src.toNat ≤ x ∧ x < s.src.toNat + s.regionBytes := by
  simp only [State.storeAllowed, Bool.or_eq_false_iff, decide_eq_false_iff_not, not_lt, not_le,
    noSession_eq_false_iff, and_assoc]

/-- Settles O5: a step with a port word is `exec` of what the word decodes to. -/
theorem stepRunsDecodedInstruction : Obligations.StepRunsDecodedInstruction := by
  intro s w rest i hin hw
  rw [step_of_decode_ok hin hw]
  cases w <;> rfl

/-- Settles O6: such a word is the one kind the decoder calls illegal. -/
theorem illegalCommandOnlyReports : Obligations.IllegalCommandOnlyReports := by
  intro s w rest hin hw
  exact step_of_decode_error hin ((decode_command_eq_error_iff w).mpr hw)

/-- Settles O7: a write goes through `writeOperand` or `hostStore`, and without an input the step waits. -/
theorem hostInputsWriteTheirTarget : Obligations.HostInputsWriteTheirTarget := by
  refine ⟨fun s r v rest hin => ?_, fun s a b rest hin => ?_, fun s => step_of_no_input⟩
  · rw [step_of_operand hin]
    cases r <;> rfl
  · obtain ⟨hstored, hother, hwf, hflag⟩ := hostStore_spec { s with inbox := rest } a b
    rw [storeAllowed_eq_false_iff, and_assoc, and_assoc] at hflag
    exact ⟨_, _, step_of_store hin, hstored, hother, hwf, hflag⟩

/-! ### Operand registers a command reads (R87, R100) -/

/-- R100's operand column: the registers each command's row names. What is no command has no row there;
it counts as naming every register. -/
def namesOperand : Instr → OperandReg → Bool
  | .pause, _ | .resume, _ | .stop, _ | .getState, _ | .getSampleRate, _ | .getFilterConfig, _
  | .getAirGain, _ | .getAirPreset, _ => false
  | .getFadeTime, r | .setAirGainDb, r | .setAirGainQ16, r | .setAirPreset, r => r = .a0
  | .setFadeTime, r => r = .a0 ∨ r = .a1
  | .setFilterConfig, r => r ≠ .a4
  | _, _ => true

/-- A command commutes with a HOST write to a register its row does not name: its branch conditions and what
it writes are the same. -/
theorem exec_writeOperand {i : Instr} {r : OperandReg} {s t : State} (hr : namesOperand i r = false)
    (ht : exec i s = .next t) (v : Word) : exec i (s.writeOperand r v) = .next (t.writeOperand r v) := by
  cases i with
  | stop | getState | getSampleRate | getFilterConfig | getAirGain | getAirPreset =>
    cases ht
    cases r <;> rfl
  | pause | resume =>
    simp only [exec, execPause, execResume] at ht
    split at ht <;> cases ht <;> rename_i hp
    · cases r <;> exact if_pos hp
    · cases r <;> exact if_neg hp
  | setAirGainDb | setAirGainQ16 =>
    cases ht
    cases r with
    | a0 => cases hr
    | _ => rfl
  | getFadeTime =>
    simp only [exec, execGetFadeTime] at ht
    split at ht <;> cases ht <;> rename_i hw <;> cases r with
    | a0 => cases hr
    | _ => simp only [exec, execGetFadeTime, State.writeOperand, hw]; rfl
  | setFadeTime =>
    simp only [exec, execSetFadeTime] at ht
    split at ht <;> cases ht <;> rename_i hw <;> cases r with
    | a0 | a1 => cases hr
    | _ => simp only [exec, execSetFadeTime, State.writeOperand, hw]; rfl
  | setFilterConfig =>
    simp only [exec, execSetFilterConfig] at ht
    split at ht <;> cases ht <;> rename_i hc <;> cases r with
    | a4 => simp only [exec, execSetFilterConfig, State.writeOperand, hc]; rfl
    | _ => cases hr
  | setAirPreset =>
    simp only [exec, execSetAirPreset] at ht
    cases r with
    | a0 => cases hr
    | _ =>
      split at ht <;> rename_i hdb
      · cases ht
        simp only [exec, execSetAirPreset, State.writeOperand, hdb]; rfl
      · split at ht <;> cases ht <;> rename_i h0 <;>
          simp only [exec, execSetAirPreset, State.writeOperand, hdb]
        · exact if_pos h0
        · exact if_neg h0
  | _ => cases hr

/-- HOST writes of operand registers, one after another. -/
def State.writeOperands (s : State) (ws : List (OperandReg × Word)) : State :=
  ws.foldl (fun u w => u.writeOperand w.1 w.2) s

theorem exec_writeOperands {i : Instr} (ws : List (OperandReg × Word))
    (hws : ∀ w ∈ ws, namesOperand i w.1 = false) {s t : State} (ht : exec i s = .next t) :
    exec i (s.writeOperands ws) = .next (t.writeOperands ws) := by
  induction ws generalizing s t with
  | nil => exact ht
  | cons w ws ih =>
    obtain ⟨hw, hrest⟩ := List.forall_mem_cons.mp hws
    exact ih hrest (exec_writeOperand hw ht w.2)

/-- Settles O15: new values in the unnamed registers are HOST writes, which the command commutes with. -/
theorem unnamedOperandsDoNotMatter : Obligations.UnnamedOperandsDoNotMatter := by
  refine ⟨fun i s t b0 b1 b2 b3 b4 hi => ?_, fun i s t b1 b2 b3 b4 hi => ?_, fun s t b2 b3 b4 => ?_,
    fun s t b4 => ?_⟩
  · refine exec_writeOperands [(.a0, b0), (.a1, b1), (.a2, b2), (.a3, b3), (.a4, b4)] ?_
    rcases hi with rfl | rfl | rfl | rfl | rfl | rfl | rfl | rfl <;> exact fun _ _ => rfl
  · refine exec_writeOperands [(.a1, b1), (.a2, b2), (.a3, b3), (.a4, b4)] ?_
    rcases hi with rfl | rfl | rfl | rfl <;> simp [namesOperand]
  · exact exec_writeOperands [(.a2, b2), (.a3, b3), (.a4, b4)] (by simp [namesOperand])
  · exact exec_writeOperands [(.a4, b4)] (by simp [namesOperand])

/-! ### Configuration words (R90, R91) -/

theorem levelCode_of_levelOf {n : Nat} {l : LpfLevel} (h : levelOf n = some l) : levelCode l = n := by
  unfold levelOf at h
  split at h <;> cases h <;> rfl

/-- The flag read from a one-bit field is that field. -/
theorem toNat_flag (w : Word) (lo : Nat) : (decide (fieldOf w lo 1 = 1)).toNat = fieldOf w lo 1 := by
  have hbit : fieldOf w lo 1 = 0 ∨ fieldOf w lo 1 = 1 := Nat.mod_two_eq_zero_or_one _
  rcases hbit with h | h <;> simp [h]

/-- The words of a configuration are the words SET_FILTER_CONFIG accepted for it, with the makeups
normalised (R37): the accepted word 0 has no reserved bit that `cfgWord0` would drop (R90). -/
theorem words_of_configOf {p : Params} {w0 w1 w2 w3 : Word} {c : FilterConfig}
    (hc : configOf p w0 w1 w2 w3 = some c) :
    cfgWord0 c = w0 ∧ c.makeup8 = normMakeup p.makeupMax w1 p.makeupDefault8 ∧
      c.makeup16 = normMakeup p.makeupMax w2 p.makeupDefault16 ∧ cfgWord3 c = w3 := by
  unfold configOf at hc
  split at hc
  · rename_i hres
    split at hc <;> cases hc
    rename_i h8 h16
    refine ⟨BitVec.eq_of_toNat_eq ?_, rfl, rfl, BitVec.eq_of_toNat_eq ?_⟩
    · simp only [cfgReservedClear, Bool.and_eq_true, decide_eq_true_eq] at hres
      simp only [cfgWord0, toNat_flag, levelCode_of_levelOf h8, levelCode_of_levelOf h16,
        BitVec.toNat_ofNat]
      have hlt := w0.isLt
      simp only [fieldOf] at hres ⊢
      omega
    · have hlt := w3.isLt
      simp only [cfgWord3, BitVec.toNat_ofNat, fieldOf]
      omega
  · cases hc

/-- `AIR_EN` stands alone in word 0, at bit 5 (R90): below it the five other flags, above it the levels. -/
theorem cfgWord0_airEn (c : FilterConfig) : ∃ hi lo, lo < 2 ^ 5 ∧ ∀ b,
    cfgWord0 { c with airEn := b } = BitVec.ofNat 32 (2 ^ 6 * hi + (2 ^ 5 * b.toNat + lo)) := by
  refine ⟨4 * levelCode c.lpf8Level + 64 * levelCode c.lpf16Level,
    c.lpf16En.toNat + 2 * c.lpf8En.toNat + 4 * c.dcSoft.toNat + 8 * c.gateEn.toNat + 16 * c.clipEn.toNat,
    ?_, fun b => congrArg (BitVec.ofNat 32) (by ring)⟩
  have h0 := c.lpf16En.toNat_le
  have h1 := c.lpf8En.toNat_le
  have h2 := c.dcSoft.toNat_le
  have h3 := c.gateEn.toNat_le
  have h4 := c.clipEn.toNat_le
  omega

theorem testBit_bit5 {lo : Nat} (hlo : lo < 2 ^ 5) (hi : Nat) (b : Bool) (k : Nat) :
    (2 ^ 6 * hi + (2 ^ 5 * b.toNat + lo)).testBit k =
      if k < 5 then lo.testBit k else if k = 5 then b else hi.testBit (k - 6) := by
  have hb := b.toNat_le
  rw [Nat.testBit_two_pow_mul_add hi (by omega), Nat.testBit_two_pow_mul_add _ hlo]
  rcases Nat.lt_trichotomy k 5 with hk | rfl | hk
  · rw [if_pos (by omega)]
    simp only [if_pos hk]
  · cases b <;> rfl
  · rw [if_neg (by omega), if_neg (by omega), if_neg (by omega)]

/-- A change of `AIR_EN` shows in bit 5 of word 0 only. -/
theorem getLsbD_cfgWord0_airEn (c : FilterConfig) (b : Bool) (k : Nat) :
    (cfgWord0 { c with airEn := b }).getLsbD k = if k = 5 then b else (cfgWord0 c).getLsbD k := by
  obtain ⟨hi, lo, hlo, hword⟩ := cfgWord0_airEn c
  rw [hword b, show cfgWord0 c = _ from hword c.airEn]
  simp only [BitVec.getLsbD_ofNat, testBit_bit5 hlo]
  by_cases hk : k = 5
  · simp [hk]
  · simp only [if_neg hk]

/-- R37, with the zero word written as a word. -/
theorem normMakeup_eq (max v d : Word) :
    normMakeup max v d = if v = 0 ∨ max.toNat < v.toNat then d else v := by
  have hz : v.toNat = 0 ↔ v = 0 := (BitVec.toNat_eq (x := v) (y := 0)).symm
  simp only [normMakeup, hz]

/-- An accepted SET_FILTER_CONFIG takes the configuration its words name (R238). -/
theorem setFilterConfig_accepted {s t : State} (ht : exec .setFilterConfig s = .next t)
    (hok : t.status = 0) : configOf s.params s.a0 s.a1 s.a2 s.a3 = some t.cfg := by
  simp only [exec, execSetFilterConfig] at ht
  split at ht <;> cases ht
  · assumption
  · cases hok

/-- Settles O23: the accepted words are those of the configuration, and a change of `AIR_EN` shows in bit 5
of word 0 only. -/
theorem configWordsRoundTrip : Obligations.ConfigWordsRoundTrip := by
  intro s t v u b ht hok hv hu
  obtain ⟨hw0, h8, h16, hw3⟩ := words_of_configOf (setFilterConfig_accepted ht hok)
  rw [normMakeup_eq] at h8 h16
  cases hu
  simp only [report_r0, report_r1, report_r2, report_r3, hv]
  refine ⟨?_, fun k hk => ?_, ?_, h8, h16, hw3, rfl⟩
  · rintro rfl
    exact hw0
  · rw [getLsbD_cfgWord0_airEn, if_neg hk, hw0]
  · rw [getLsbD_cfgWord0_airEn, if_pos rfl]

end Sys2Proof.Machine
end

section
/-! SUPPORT. The layer of the fixed-point family (40_fixed_point_mu.md): what each primitive drives, and
what the searches of its real functions find: the floor of the rounded value over the reals. -/

namespace Sys2Proof.Machine

/-! ### What the operations drive -/

theorem exec_q16Mul (a b : Int) (s : State) :
    exec (.q16Mul a b) s = .next { s with stageOut := [q16Mul a b] } := rfl

theorem exec_clamp16 (v : Int) (s : State) :
    exec (.clamp16 v) s = .next { s with stageOut := [clampInt v] } := rfl

theorem exec_q16FromReal (m : Int) (k : Nat) (s : State) :
    exec (.q16FromReal m k) s = .next { s with stageOut := [q16FromReal m k] } := rfl

theorem exec_alphaFromCutoff (fc fs : Word) (s : State) :
    exec (.alphaFromCutoff fc fs) s =
      .next { s with stageOut := [((alphaFromCutoff fc fs).toNat : Int)] } := rfl

theorem exec_dbToQ16 (d : Word) (s : State) :
    exec (.dbToQ16 d) s = .next { s with stageOut := [((dbToQ16 d).toNat : Int)] } := rfl

theorem exec_q16ToDb (g : Word) (s : State) :
    exec (.q16ToDb g) s = .next { s with stageOut := [q16ToDb g] } := rfl

theorem exec_secToSamples (sec rate : Word) (s : State) :
    exec (.secToSamples sec rate) s =
      .next { s with stageOut := [((secToSamples sec rate).toNat : Int)] } := rfl

/-! ### The words that hold a clamped number -/

theorem toNat_ofNat_min {w n m : Nat} (hm : m < 2 ^ w) : (BitVec.ofNat w (min n m)).toNat = min n m := by
  rw [BitVec.toNat_ofNat, Nat.mod_eq_of_lt ((min_le_right n m).trans_lt hm)]

theorem toNat_secToSamples (sec rate : Word) :
    (secToSamples sec rate).toNat = min (sec.toNat * rate.toNat / 65536) 2147483647 :=
  toNat_ofNat_min (by decide)

theorem toNat_dbToQ16 (d : Word) : (dbToQ16 d).toNat = min (roundDbGain d.toInt) 131072 :=
  toNat_ofNat_min (by decide)

theorem toNat_alphaFromCutoff {fc fs : Word} (hfs : fs ≠ 0) :
    (alphaFromCutoff fc fs).toNat = min (roundDecay fc.toNat fs.toNat) 65535 := by
  rw [alphaFromCutoff, if_neg hfs]
  exact toNat_ofNat_min (by decide)

/-! ### The decimal constant (R113) -/

/-- The magnitude of `Q16_FROM_REAL` is the nearest integer, a half rounded up. -/
theorem floor_decimal_add_half (a k : Nat) :
    ⌊(a : ℚ) / 10 ^ k * 65536 + 1 / 2⌋ = (((2 * a * 65536 + 10 ^ k) / (2 * 10 ^ k) : Nat) : Int) := by
  have hquot : (a : ℚ) / 10 ^ k * 65536 + 1 / 2 =
      ((2 * a * 65536 + 10 ^ k : Nat) : ℚ) / ((2 * 10 ^ k : Nat) : ℚ) := by
    push_cast
    field_simp
  rw [hquot, Rat.floor_natCast_div_natCast, Int.natCast_div]

/-! ### Searches as floors -/

/-- A search for the numbers from 1 up to `x` finds the floor of `x`, as far as its range reaches. -/
theorem greatestUpTo_eq_min_floor {p : Nat → Bool} {bits : Nat} {x : ℝ}
    (hp : ∀ n, 1 ≤ n → n < 2 ^ bits → (p n = true ↔ (n : ℝ) ≤ x)) :
    greatestUpTo p bits 0 = min ⌊x⌋₊ (2 ^ bits - 1) := by
  have floor_iff : ∀ n, 1 ≤ n → n < 2 ^ bits → (p n = true ↔ n ≤ ⌊x⌋₊) := fun n h1 h2 =>
    (hp n h1 h2).trans (Nat.le_floor_iff' (by omega)).symm
  obtain ⟨-, hlt, hpass⟩ := greatestUpTo_spec p bits 0
  have hmax := greatestUpTo_max p bits 0 fun m n hm hmn hn hpn =>
    (floor_iff m hm (by omega)).mpr (hmn.trans ((floor_iff n (by omega) (by omega)).mp hpn))
  generalize greatestUpTo p bits 0 = r at *
  apply le_antisymm
  · refine le_min ?_ (by omega)
    rcases hpass with rfl | hr
    · exact Nat.zero_le _
    · rcases Nat.eq_zero_or_pos r with rfl | hpos
      · exact Nat.zero_le _
      · exact (floor_iff r hpos (by omega)).mp hr
  · rcases Nat.eq_zero_or_pos (min ⌊x⌋₊ (2 ^ bits - 1)) with h0 | hpos
    · omega
    · exact hmax _ (Nat.zero_le _) (by omega) ((floor_iff _ hpos (by omega)).mpr (min_le_left _ _))

/-! ### The exponential (R115) -/

theorem roundDecay_eq {fc fs : Nat} (hfc : fc < 4294967296) (hfs : 0 < fs) (hfs' : fs < 4294967296) :
    roundDecay fc fs = min ⌊65536 * Real.exp (-(2 * Real.pi * fc / fs)) + 1 / 2⌋₊ 65535 :=
  greatestUpTo_eq_min_floor (bits := 16) fun n h1 h2 => by
    rw [decayReaches_iff fc fs n h1 (by omega) hfc hfs hfs', sub_le_iff_le_add]

/-- R115's clamp at 0.99998 before the rounding is the clamp at 65535 after it. -/
theorem floor_clamped_scale {x : ℝ} (hx : 0 ≤ x) :
    ⌊min (max x 0) 0.99998 * 65536 + 1 / 2⌋ = ((min ⌊65536 * x + 1 / 2⌋₊ 65535 : Nat) : Int) := by
  have hmono : Monotone fun y : ℝ => ⌊y * 65536 + 1 / 2⌋ := fun a b hab => by
    apply Int.floor_mono
    linarith
  have htop : ⌊(0.99998 : ℝ) * 65536 + 1 / 2⌋ = 65535 := by
    rw [Int.floor_eq_iff]
    norm_num
  calc ⌊min (max x 0) 0.99998 * 65536 + 1 / 2⌋
      = min ⌊x * 65536 + 1 / 2⌋ ⌊(0.99998 : ℝ) * 65536 + 1 / 2⌋ := by
        rw [max_eq_left hx]
        exact hmono.map_min
    _ = ((min ⌊65536 * x + 1 / 2⌋₊ 65535 : Nat) : Int) := by
        rw [htop, Nat.cast_min, Int.natCast_floor_eq_floor (by positivity), mul_comm x]
        rfl

/-! ### The power (R116) -/

theorem powerProduct_single (a j : Nat) : powerProduct [(a, j)] = a ^ j := by
  simp only [powerProduct, mul_one]

theorem powerProduct_pair (a j b k : Nat) : powerProduct [(a, j), (b, k)] = a ^ j * b ^ k := by
  simp only [powerProduct, mul_one]

theorem dbScale_pos : 0 < dbScale := by decide

theorem cast_dbScale : (dbScale : ℝ) = 65536 * 20 := by norm_num [dbScale]

theorem cast_two_mul_sub_one {n : Nat} (hn : 1 ≤ n) : ((2 * n - 1 : Nat) : ℝ) = 2 * n - 1 := by
  rw [Nat.cast_sub (by omega)]
  push_cast
  rfl

/-- A number is at most a root of a power of ten when its own power is at most that power of ten. -/
theorem le_ten_rpow_div_iff {S : Nat} (hS : 0 < S) (d : Int) {a : ℝ} (ha : 0 ≤ a) :
    a ≤ (10 : ℝ) ^ ((d : ℝ) / S) ↔ a ^ S ≤ (10 : ℝ) ^ d := by
  rw [← pow_le_pow_iff_left₀ ha (by positivity) hS.ne', ← Real.rpow_mul_natCast (by norm_num),
    div_mul_cancel₀ _ (by positivity), Real.rpow_intCast]

/-- The real comparison of R116 in the exact powers that `dbReaches` compares. -/
theorem le_dbGain_iff (d : Int) {n : Nat} (hn : 1 ≤ n) :
    (n : ℝ) ≤ 65536 * (10 : ℝ) ^ ((d : ℝ) / (65536 * 20)) + 1 / 2 ↔
      ((2 * n - 1 : Nat) : ℝ) ^ dbScale ≤ 2 ^ (17 * dbScale) * (10 : ℝ) ^ d := by
  have hhalf : (n : ℝ) ≤ 65536 * (10 : ℝ) ^ ((d : ℝ) / (65536 * 20)) + 1 / 2 ↔
      ((2 * n - 1 : Nat) : ℝ) / 2 ^ 17 ≤ (10 : ℝ) ^ ((d : ℝ) / (65536 * 20)) := by
    rw [div_le_iff₀ (by positivity), cast_two_mul_sub_one hn]
    constructor <;> intro h <;> linarith
  rw [hhalf, ← cast_dbScale, le_ten_rpow_div_iff dbScale_pos d (by positivity), div_pow, ← pow_mul,
    div_le_iff₀ (by positivity), mul_comm ((10 : ℝ) ^ d)]

theorem dbReaches_iff (d : Int) {n : Nat} (hn : 1 ≤ n) :
    dbReaches d n = true ↔ (n : ℝ) ≤ 65536 * (10 : ℝ) ^ ((d : ℝ) / (65536 * 20)) + 1 / 2 := by
  rw [le_dbGain_iff d hn, dbReaches]
  split
  · next hd =>
    lift d to Nat using hd
    rw [productLe_iff, powerProduct_single, powerProduct_pair, Int.toNat_natCast, zpow_natCast]
    exact_mod_cast Iff.rfl
  · next hd =>
    obtain ⟨k, rfl⟩ : ∃ k : Nat, d = -k := ⟨(-d).toNat, by omega⟩
    rw [productLe_iff, powerProduct_single, powerProduct_pair, neg_neg, Int.toNat_natCast, zpow_neg,
      zpow_natCast, ← div_eq_mul_inv, le_div_iff₀ (by positivity)]
    exact_mod_cast Iff.rfl

theorem roundDbGain_eq (d : Int) :
    roundDbGain d = min ⌊65536 * (10 : ℝ) ^ ((d : ℝ) / (65536 * 20)) + 1 / 2⌋₊ 262143 :=
  greatestUpTo_eq_min_floor (bits := 18) fun _ hn _ => dbReaches_iff d hn

/-! ### The logarithm (R117) -/

/-- The dB value that R117 rounds. -/
noncomputable def gainDb (g : Nat) : ℝ := 65536 * 20 * Real.logb 10 ((g : ℝ) / 65536)

theorem gainDb_nonneg_iff {g : Nat} (hg : 1 ≤ g) : 0 ≤ gainDb g ↔ 65536 ≤ g := by
  have hg0 : (0 : ℝ) < g := by exact_mod_cast hg
  rw [gainDb, mul_nonneg_iff_of_pos_left (by norm_num), Real.logb_nonneg_iff (by norm_num) (by positivity),
    one_le_div (by norm_num)]
  exact_mod_cast Iff.rfl

/-- A u32 gain lies within 100 dB of 1. -/
theorem abs_gainDb_le {g : Nat} (hg : 1 ≤ g) (hg' : g < 4294967296) : |gainDb g| ≤ 6553600 := by
  have h1 : (1 : ℝ) ≤ g := by exact_mod_cast hg
  have h2 : (g : ℝ) ≤ 4294967296 := by exact_mod_cast hg'.le
  have hlog : |Real.logb 10 ((g : ℝ) / 65536)| ≤ 5 := by
    rw [abs_le, Real.le_logb_iff_rpow_le (by norm_num) (by positivity),
      Real.logb_le_iff_le_rpow (by norm_num) (by positivity), le_div_iff₀ (by norm_num),
      div_le_iff₀ (by norm_num)]
    norm_num
    constructor <;> linarith
  rw [gainDb, abs_mul, abs_of_pos (by norm_num)]
  linarith

/-- The real comparison of R117 in exact powers. -/
theorem le_logb_div_iff {a b n : Nat} (ha : 0 < a) (hb : 0 < b) (hn : 1 ≤ n) :
    (n : ℝ) ≤ 65536 * 20 * Real.logb 10 ((a : ℝ) / b) + 1 / 2 ↔
      10 ^ (2 * n - 1) * b ^ (2 * dbScale) ≤ a ^ (2 * dbScale) := by
  have hhalf : (n : ℝ) ≤ 65536 * 20 * Real.logb 10 ((a : ℝ) / b) + 1 / 2 ↔
      ((2 * n - 1 : Nat) : ℝ) ≤ (2 * dbScale : Nat) * Real.logb 10 ((a : ℝ) / b) := by
    rw [cast_two_mul_sub_one hn, Nat.cast_mul, cast_dbScale, Nat.cast_ofNat]
    constructor <;> intro h <;> linarith
  rw [hhalf, ← Real.logb_pow, Real.le_logb_iff_rpow_le (by norm_num) (by positivity), Real.rpow_natCast,
    div_pow, le_div_iff₀ (by positivity)]
  exact_mod_cast Iff.rfl

theorem two_pow_dbScale : 2 ^ (32 * dbScale) = 65536 ^ (2 * dbScale) := by
  rw [show 32 * dbScale = 16 * (2 * dbScale) by ring, pow_mul]
  norm_num only

theorem gainDbReaches_iff {g n : Nat} (hg : 1 ≤ g) (hn : 1 ≤ n) :
    gainDbReaches g n = true ↔ (n : ℝ) ≤ |gainDb g| + 1 / 2 := by
  rw [gainDbReaches]
  split
  · next hge =>
    rw [abs_of_nonneg ((gainDb_nonneg_iff hg).mpr hge), gainDb, productLe_iff, powerProduct_pair,
      powerProduct_single, two_pow_dbScale]
    exact_mod_cast (le_logb_div_iff (b := 65536) hg (by norm_num) hn).symm
  · next hlt =>
    have hneg : -gainDb g = 65536 * 20 * Real.logb 10 (65536 / (g : ℝ)) := by
      rw [gainDb, ← mul_neg, ← Real.logb_inv, inv_div]
    rw [abs_of_neg (not_le.mp (mt (gainDb_nonneg_iff hg).mp hlt)), hneg, productLe_iff,
      powerProduct_pair, powerProduct_single, two_pow_dbScale]
    exact_mod_cast (le_logb_div_iff (a := 65536) (by norm_num) hg hn).symm

/-- Rounding with ties away from zero (R10). -/
theorem roundGainDb_eq {g : Nat} (hg : 1 ≤ g) (hg' : g < 4294967296) :
    roundGainDb g = if 0 ≤ gainDb g then ⌊gainDb g + 1 / 2⌋ else -⌊-gainDb g + 1 / 2⌋ := by
  have hsearch : greatestUpTo (gainDbReaches g) 23 0 = min ⌊|gainDb g| + 1 / 2⌋₊ 8388607 :=
    greatestUpTo_eq_min_floor (bits := 23) fun _ hn _ => gainDbReaches_iff hg hn
  have hfloor : ⌊|gainDb g| + 1 / 2⌋₊ ≤ 8388607 := by
    apply Nat.floor_le_of_le
    push_cast
    linarith [abs_gainDb_le hg hg']
  rw [roundGainDb, hsearch, min_eq_left hfloor, Int.natCast_floor_eq_floor (by positivity)]
  simp only [← gainDb_nonneg_iff hg]
  split
  · next hpos => rw [abs_of_nonneg hpos]
  · next hneg => rw [abs_of_neg (not_le.mp hneg)]

/-! ### The obligations -/

/-- Settles O38, from what each primitive drives. -/
theorem exactPrimitives : Obligations.ExactPrimitives := by
  intro s
  refine ⟨fun a b => exec_q16Mul a b s, fun v => exec_clamp16 v s, fun sec rate => ?_⟩
  rw [exec_secToSamples, toNat_secToSamples]

/-- Settles O39: the sign of the decimal is that of its mantissa, and the magnitude is rounded. -/
theorem q16FromRealRounds : Obligations.Q16FromRealRounds := by
  intro s m k r
  have hscale : (0 : ℚ) < 65536 / 10 ^ k := by positivity
  have hr : r = m * (65536 / 10 ^ k) := by simp only [r]; ring
  have hsign : 0 ≤ r ↔ 0 ≤ m := by
    rw [hr, mul_nonneg_iff_of_pos_right hscale, Int.cast_nonneg_iff]
  rw [exec_q16FromReal, q16FromReal]
  simp only [hsign, ← not_lt, ← floor_decimal_add_half, ite_not]
  split
  · next hm =>
    have habs : ((m.natAbs : Nat) : ℚ) = -m := by
      rw [Nat.cast_natAbs, abs_of_neg hm, Int.cast_neg]
    rw [habs, neg_div, neg_mul]
  · next hm =>
    have habs : ((m.natAbs : Nat) : ℚ) = m := by
      rw [Nat.cast_natAbs, abs_of_nonneg (not_lt.mp hm)]
    rw [habs]

/-- Settles O40: the search stops at 65535, which is the clamp before the rounding. -/
theorem alphaFromCutoffRounds : Obligations.AlphaFromCutoffRounds := by
  intro s fc fs
  refine ⟨?_, fun hfs => ?_⟩
  · rintro rfl
    rfl
  · have hpos : 0 < fs.toNat := Nat.pos_of_ne_zero fun h => hfs (BitVec.eq_of_toNat_eq h)
    rw [exec_alphaFromCutoff, toNat_alphaFromCutoff hfs, roundDecay_eq fc.isLt hpos fs.isLt, min_assoc,
      min_self, floor_clamped_scale (Real.exp_nonneg _)]

/-- Settles O41: the search of `roundDbGain` ends above the clamp. -/
theorem dbToQ16Rounds : Obligations.DbToQ16Rounds := by
  intro s d
  have hpos : 0 ≤ 65536 * (10 : ℝ) ^ ((d.toInt : ℝ) / (65536 * 20)) + 1 / 2 := by positivity
  have hmin : min 262143 131072 = 131072 := by decide
  rw [exec_dbToQ16, toNat_dbToQ16, roundDbGain_eq, min_assoc, hmin, Nat.cast_min,
    Int.natCast_floor_eq_floor hpos, max_eq_left (Int.floor_nonneg.mpr hpos)]
  rfl

/-- Settles O42: the rounded dB value of a gain other than 0. -/
theorem q16ToDbRounds : Obligations.Q16ToDbRounds := by
  intro s g
  refine ⟨?_, fun hg => ?_⟩
  · rintro rfl
    rfl
  · have hne : g.toNat ≠ 0 := fun h => hg (BitVec.eq_of_toNat_eq h)
    intro v
    rw [exec_q16ToDb, q16ToDb, if_neg hne, roundGainDb_eq (Nat.pos_of_ne_zero hne) g.isLt]
    rfl

end Sys2Proof.Machine
end

section
/-! SUPPORT. The layer of the filters' family (41_filters.md): how a stage acts on a channel record, the
value each stage computes, the biquad's bounds and passes, and which stages never raise a magnitude. -/

namespace Sys2Proof.Machine

/-! ### Stages on a channel record -/

@[simp] theorem drive_chan (s : State) (o : List Int) (c : Channel) : (s.drive o).chan c = s.chan c := by
  cases c <;> rfl

theorem drive_setChan (s : State) (o : List Int) (c : Channel) (ch : ChannelState) :
    (s.drive o).setChan c ch = (s.setChan c ch).drive o := by
  cases c <;> rfl

theorem runOnChannel_eq (c : Channel) (s : State) (f : ChannelState → S16 × ChannelState) :
    runOnChannel c s f =
      { s with stageOut := [(f (s.chan c)).1.toInt] }.setChan c (f (s.chan c)).2 :=
  (drive_setChan s _ c _).symm

theorem runOnChannel_chan (c : Channel) (s : State) (f : ChannelState → S16 × ChannelState) :
    (runOnChannel c s f).chan c = (f (s.chan c)).2 := by
  rw [runOnChannel, drive_chan, setChan_chan]

theorem exec_dcBlock (c : Channel) (x : S16) (s : State) :
    exec (.dcBlock c x) s = .next (runOnChannel c s (dcBlock s.alphaDc x)) := rfl

theorem exec_lpf1 (c : Channel) (x : S16) (alpha : U16) (g : Word) (s : State) :
    exec (.lpf1 c x alpha g) s = .next (runOnChannel c s (lpf1 alpha g x)) := rfl

theorem exec_biquadStep (c : Channel) (x : S16) (alpha : U16) (g : Word) (s : State) :
    exec (.biquadStep c x alpha g) s = .next (runOnChannel c s (biquadStep alpha g x)) := rfl

theorem exec_biquadWarmup (c : Channel) (x : S16) (alpha : U16) (g : Word) (s : State) :
    exec (.biquadWarmup c x alpha g) s =
      .next ((s.setChan c (biquadWarmup alpha g x (s.chan c))).drive []) := rfl

theorem exec_airShelf (c : Channel) (x : S16) (gain : Word) (s : State) :
    exec (.airShelf c x gain) s = .next (runOnChannel c s (airShelf gain x)) := rfl

/-! ### The value each stage computes -/

/-- R130. -/
theorem toInt_dcBlock (alpha : Int) (x : S16) (ch : ChannelState) :
    (dcBlock alpha x ch).1.toInt =
      clampInt (x.toInt - ch.dcXp.toInt + ch.dcYp.toInt * alpha / 65536) :=
  toInt_clampS16 _

/-- R131: the history is the raw value, not clamped. -/
theorem toInt_lpf1_lpYp (alpha : U16) (g : Word) (x : S16) (ch : ChannelState) :
    (lpf1 alpha g x ch).2.lpYp.toInt = lpf1Raw alpha x ch.lpYp :=
  toInt_lpf1Raw alpha x ch.lpYp

/-- R131: the output is scaled from the exact history value. -/
theorem toInt_lpf1 (alpha : U16) (g : Word) (x : S16) (ch : ChannelState) :
    (lpf1 alpha g x ch).1.toInt =
      clampInt ((lpf1 alpha g x ch).2.lpYp.toInt * g.toNat / 65536) := by
  rw [toInt_lpf1_lpYp]
  exact toInt_clampS16 _

/-- R137, inside its operand range. -/
theorem toInt_airShelf {gain : Word} (hgain : gain.toNat ≤ 131072) (x : S16) (ch : ChannelState) :
    (airShelf gain x ch).1.toInt =
      clampInt (49152 * x.toInt / 65536 + (65536 - 49152) * ch.airYp.toInt / 65536 +
        (x.toInt - ch.airXp.toInt) * (65536 - 49152) / 65536 * gain.toNat / 65536) := by
  have hrange : ¬ airGainMax < gain.toNat := not_lt.mpr hgain
  simp only [airShelf, if_neg hrange, toInt_clampS16]
  rfl

/-! ### The biquad's coefficients and accumulator (R133, R134) -/

theorem exec_biquadCoef (alpha : U16) (s : State) :
    exec (.biquadCoef alpha) s = .next { s with stageOut :=
      [(biquadCoef alpha).b0, (biquadCoef alpha).b1, (biquadCoef alpha).b2, (biquadCoef alpha).a1,
        (biquadCoef alpha).a2] } := rfl

theorem biquadCoef_eq (alpha : U16) :
    biquadCoef alpha = ⟨(65536 - alpha.toNat) ^ 2 / 131072, 2 * ((65536 - alpha.toNat) ^ 2 / 131072),
      (65536 - alpha.toNat) ^ 2 / 131072, -2 * alpha.toNat, (alpha.toNat : Int) ^ 2 / 65536⟩ := by
  simp only [biquadCoef, shr16, sq]

/-- The range that R133 gives for `b0`; `b1` is twice as large. -/
theorem biquad_b0_range {a : Int} (h0 : 0 ≤ a) (h1 : a ≤ 65535) :
    0 ≤ (65536 - a) ^ 2 / 131072 ∧ (65536 - a) ^ 2 / 131072 ≤ 32768 := by
  have hsq : (65536 - a) ^ 2 ≤ 65536 ^ 2 := pow_le_pow_left₀ (by omega) (by omega) 2
  have hpos := sq_nonneg (65536 - a)
  omega

/-- The range that R133 gives for `a2`. -/
theorem biquad_a2_range {a : Int} (h0 : 0 ≤ a) (h1 : a ≤ 65535) :
    0 ≤ a ^ 2 / 65536 ∧ a ^ 2 / 65536 ≤ 65534 := by
  have hsq : a ^ 2 ≤ 65535 ^ 2 := pow_le_pow_left₀ h0 h1 2
  have hpos := sq_nonneg a
  omega

theorem abs_toInt_le (x : S16) : |x.toInt| ≤ 32768 := by
  obtain ⟨hlo, hhi⟩ := s16_range x
  exact abs_le.mpr ⟨hlo, by omega⟩

/-- One term of the accumulator: a bounded coefficient times a sample. -/
theorem abs_mul_toInt_le {k bound : Int} (hk : |k| ≤ bound) (x : S16) :
    |k * x.toInt| ≤ bound * 32768 := by
  rw [abs_mul]
  exact mul_le_mul hk (abs_toInt_le x) (abs_nonneg _) ((abs_nonneg k).trans hk)

/-- R134: five terms of at most 2^30, 2^31, 2^30, 131070 · 2^15 and 65534 · 2^15. -/
theorem abs_biquadAcc_lt (alpha : U16) (x : S16) (ch : ChannelState) :
    |biquadAcc alpha x ch| < 2 ^ 34 := by
  have ha : (alpha.toNat : Int) ≤ 65535 := by omega
  obtain ⟨hb0, hb0'⟩ := biquad_b0_range (Int.natCast_nonneg alpha.toNat) ha
  obtain ⟨ha2, ha2'⟩ := biquad_a2_range (Int.natCast_nonneg alpha.toNat) ha
  rw [biquadAcc, biquadCoef_eq]
  dsimp only
  generalize (65536 - (alpha.toNat : Int)) ^ 2 / 131072 = b0 at *
  generalize (alpha.toNat : Int) ^ 2 / 65536 = a2 at *
  have t0 := abs_mul_toInt_le (k := b0) (bound := 32768) (abs_le.mpr (by omega)) x
  have t1 := abs_mul_toInt_le (k := 2 * b0) (bound := 65536) (abs_le.mpr (by omega)) ch.bqX1
  have t2 := abs_mul_toInt_le (k := b0) (bound := 32768) (abs_le.mpr (by omega)) ch.bqX2
  have t3 := abs_mul_toInt_le (k := -2 * alpha.toNat) (bound := 131070) (abs_le.mpr (by omega)) ch.bqY1
  have t4 := abs_mul_toInt_le (k := a2) (bound := 65534) (abs_le.mpr (by omega)) ch.bqY2
  rw [abs_le] at t0 t1 t2 t3 t4
  rw [abs_lt]
  omega

/-! ### The warm-up's passes (R136) -/

/-- `n` runs of one stage on `CH[c]`. -/
def runsOnChannel (c : Channel) (f : ChannelState → S16 × ChannelState) (s : State) (n : Nat) : State :=
  (fun t => runOnChannel c t f)^[n] s

theorem runsOnChannel_succ (c : Channel) (f : ChannelState → S16 × ChannelState) (s : State) (n : Nat) :
    runsOnChannel c f s (n + 1) = runOnChannel c (runsOnChannel c f s n) f :=
  Function.iterate_succ_apply' _ n s

/-- Once their outputs are discarded, the runs of a stage change the record alone. -/
theorem runsOnChannel_drive (c : Channel) (f : ChannelState → S16 × ChannelState) (n : Nat) :
    ∀ s : State, (runsOnChannel c f s n).drive [] =
      (s.setChan c ((fun ch => (f ch).2)^[n] (s.chan c))).drive [] := by
  induction n with
  | zero => exact fun s => congrArg (State.drive · []) (setChan_self s c).symm
  | succ n ih =>
    intro s
    calc (runsOnChannel c f s (n + 1)).drive []
        = ((runOnChannel c s f).setChan c
            ((fun ch => (f ch).2)^[n] ((runOnChannel c s f).chan c))).drive [] := ih _
      _ = (s.setChan c ((fun ch => (f ch).2)^[n + 1] (s.chan c))).drive [] := by
        rw [runOnChannel_chan, runOnChannel, drive_setChan, setChan_setChan]
        rfl

theorem biquadPasses_eq_iterate (alpha : U16) (g : Word) (x : S16) (n : Nat) :
    ∀ ch, biquadPasses alpha g x n ch = (fun ch => (biquadStep alpha g x ch).2)^[n] ch := by
  induction n with
  | zero => exact fun _ => rfl
  | succ n ih => exact fun ch => ih _

/-- The history is stored before the makeup gain, so no gain changes it. -/
theorem biquadPasses_gain (alpha : U16) (g g' : Word) (x : S16) (n : Nat) :
    ∀ ch, biquadPasses alpha g x n ch = biquadPasses alpha g' x n ch := by
  induction n with
  | zero => exact fun _ => rfl
  | succ n ih => exact fun ch => ih _

/-- From the second pass on, both input cells hold the sample. -/
theorem biquadPasses_cells (alpha : U16) (g : Word) (x : S16) (n : Nat) : ∀ ch, ∃ y1 y2 : S16,
    biquadPasses alpha g x (n + 2) ch = { ch with bqX1 := x, bqX2 := x, bqY1 := y1, bqY2 := y2 } := by
  induction n with
  | zero => exact fun ch => ⟨_, _, rfl⟩
  | succ n ih => exact fun ch => ih (biquadStep alpha g x ch).2

/-! ### Stages that drive a sample and write nothing -/

theorem exec_fadeIn (x : S16) (rem tot : Word) (s : State) :
    exec (.fadeIn x rem tot) s = .next { s with stageOut := [(fadeIn x rem tot).toInt] } := rfl

theorem exec_fadeOutPause (x : S16) (r tot : Word) (s : State) :
    exec (.fadeOutPause x r tot) s = .next { s with stageOut := [(fadeOutPause x r tot).toInt] } := rfl

theorem exec_fadeOutEnd (x : S16) (rem tot : Word) (s : State) :
    exec (.fadeOutEnd x rem tot) s = .next { s with stageOut := [(fadeOutEnd x rem tot).toInt] } := rfl

theorem exec_noiseGate (x : S16) (s : State) :
    exec (.noiseGate x) s = .next { s with stageOut := [(noiseGate x).toInt] } := rfl

theorem exec_softClip (x : S16) (s : State) :
    exec (.softClip x) s = .next { s with stageOut := [(softClip x).toInt] } := rfl

theorem exec_volApply (x : S16) (g : U16) (s : State) :
    exec (.volApply x g) s = .next { s with stageOut := [(volApply x g).toInt] } := rfl

/-- A stage drives one value. -/
theorem driven_unique {i : Instr} {s : State} {y z : Int}
    (hy : exec i s = .next { s with stageOut := [y] })
    (hz : exec i s = .next { s with stageOut := [z] }) : y = z := by
  have hout := congrArg State.stageOut (Host.Outcome.next.inj (hy.symm.trans hz))
  exact List.singleton_inj.mp hout

/-! ### Magnitudes (R167, R186) -/

/-- A ratio of at most 1, truncated toward zero, brings a value nearer to 0 and keeps its sign. -/
theorem mul_tdiv_between (x : Int) {m t : Nat} (h : m ≤ t) :
    min x 0 ≤ (x * m).tdiv t ∧ (x * m).tdiv t ≤ max x 0 := by
  obtain ⟨n, hn⟩ := x.eq_nat_or_neg
  have hq : n * m / t ≤ n := Nat.div_le_of_le_mul (Nat.mul_comm t n ▸ Nat.mul_le_mul_left n h)
  have hcast : ((n : Int) * m).tdiv t = (n * m / t : Nat) := by rw [Int.ofNat_tdiv, Int.natCast_mul]
  generalize n * m / t = q at *
  obtain rfl | rfl := hn
  · omega
  · rw [neg_mul, Int.neg_tdiv]
    omega

theorem abs_mul_tdiv_le (x : Int) {m t : Nat} (h : m ≤ t) : |(x * m).tdiv t| ≤ |x| := by
  have hb := mul_tdiv_between x h
  rw [Int.abs_eq_natAbs, Int.abs_eq_natAbs]
  omega

theorem abs_clampInt_le (v : Int) : |clampInt v| ≤ |v| := by
  rw [Int.abs_eq_natAbs, Int.abs_eq_natAbs, clampInt]
  omega

theorem abs_fadeScale_le (x : S16) {m t : Nat} (h : m ≤ t) : |(fadeScale x m t).toInt| ≤ |x.toInt| := by
  rw [fadeScale, toInt_clampS16]
  exact (abs_clampInt_le _).trans (abs_mul_tdiv_le _ h)

/-- The multiplier of a fade whose count is inside its window. -/
theorem sq_div_le {n t : Nat} (h : n ≤ t) : n * n / t ≤ t :=
  Nat.div_le_of_le_mul (Nat.mul_le_mul h h)

theorem abs_fadeIn_le (x : S16) {rem tot : Word} (h : rem.toNat ≤ tot.toNat) :
    |(fadeIn x rem tot).toInt| ≤ |x.toInt| := by
  rw [fadeIn, if_neg (not_lt.mpr h)]
  split
  · exact le_rfl
  · exact abs_fadeScale_le x (sq_div_le (Nat.sub_le _ _))

theorem abs_fadeOutPause_le (x : S16) {r tot : Word} (h : r.toNat ≤ tot.toNat) :
    |(fadeOutPause x r tot).toInt| ≤ |x.toInt| := by
  rw [fadeOutPause, if_neg (not_lt.mpr h)]
  split
  · exact abs_nonneg _
  · exact abs_fadeScale_le x (sq_div_le h)

theorem abs_fadeOutEnd_le (x : S16) (rem tot : Word) : |(fadeOutEnd x rem tot).toInt| ≤ |x.toInt| := by
  rw [fadeOutEnd]
  split
  · exact le_rfl
  · next h => exact abs_fadeScale_le x (sq_div_le (not_lt.mp fun hlt => h (.inr hlt)))

theorem abs_noiseGate_le (x : S16) : |(noiseGate x).toInt| ≤ |x.toInt| := by
  have hx := s16_range x
  rw [noiseGate]
  split
  · rw [shr16, gateFactor, toInt_toS16 (by omega) (by omega), Int.abs_eq_natAbs, Int.abs_eq_natAbs]
    omega
  · exact le_rfl

/-- R186: the scaled sample is an s16, so `VOL_APPLY` gives it exactly. -/
theorem toInt_volApply (x : S16) (g : U16) :
    (volApply x g).toInt = (x.toInt * g.toNat).tdiv 65535 := by
  have hx := s16_range x
  have hb := mul_tdiv_between x.toInt (m := g.toNat) (t := 65535) (by omega)
  rw [Nat.cast_ofNat] at hb
  exact toInt_toS16 (by omega) (by omega)

theorem abs_volApply_le (x : S16) (g : U16) : |(volApply x g).toInt| ≤ |x.toInt| := by
  rw [toInt_volApply]
  exact abs_mul_tdiv_le x.toInt (t := 65535) (by omega)

/-! ### The obligations -/

/-- Settles O47: sixteen runs of the stage are sixteen passes on the record, and two passes already bring
both input cells to the sample. -/
theorem biquadWarmupPasses : Obligations.BiquadWarmupPasses := by
  intro s c x alpha g
  obtain ⟨y1, y2, hcells⟩ := biquadPasses_cells alpha g x 14 (s.chan c)
  have hwarm (g' : Word) : biquadWarmup alpha g' x (s.chan c) =
      { (s.chan c) with bqX1 := x, bqX2 := x, bqY1 := y1, bqY2 := y2 } :=
    (biquadPasses_gain alpha g' g x 16 (s.chan c)).trans hcells
  refine ⟨runsOnChannel c (biquadStep alpha g x) s, y1, y2, rfl, fun k _ => ?_, ?_,
    fun g' => ⟨?_, hwarm g'⟩⟩
  · rw [exec_biquadStep, runsOnChannel_succ]
  · rw [exec_biquadWarmup, biquadWarmup, biquadPasses_eq_iterate, ← runsOnChannel_drive]
    rfl
  · rw [exec_biquadWarmup, hwarm, ← drive_setChan]
    rfl

/-- Settles O46: the accumulator is `biquadAcc`, and both clamps are exact on it. -/
theorem biquadStepExact : Obligations.BiquadStepExact := by
  intro s c x alpha g
  refine ⟨_, _, _, _, _, biquadAcc alpha x (s.chan c), _, _, exec_biquadCoef alpha s, rfl,
    abs_biquadAcc_lt alpha x (s.chan c), toInt_clampS16 _, toInt_clampS16 _, ?_⟩
  rw [exec_biquadStep, runOnChannel_eq]
  rfl

/-- Settles O44: the raw value lies between two samples, so `LP_YP` holds it exactly. -/
theorem lpf1Step : Obligations.Lpf1Step := by
  intro s c x alpha g
  refine ⟨_, _, toInt_lpf1_lpYp alpha g x (s.chan c), toInt_lpf1 alpha g x (s.chan c), ?_⟩
  rw [exec_lpf1, runOnChannel_eq]
  rfl

/-- Settles O55, from the bound of each stage. -/
theorem stagesNeverAmplify : Obligations.StagesNeverAmplify := by
  intro s t x
  refine ⟨fun c alpha g ht => ?_, fun i r tot g y hi hy => ?_, fun i r tot hi => ?_, fun c gain => ?_⟩
  · cases ht
    rw [runOnChannel_chan, toInt_lpf1_lpYp]
    exact lpf1Raw_between alpha x (s.chan c).lpYp
  · obtain ⟨rfl, hr⟩ | ⟨rfl, hr⟩ | rfl | rfl | rfl := hi
    · exact (congrArg abs (driven_unique hy (exec_fadeIn x r tot s))).trans_le
        (abs_fadeIn_le x hr)
    · exact (congrArg abs (driven_unique hy (exec_fadeOutPause x r tot s))).trans_le
        (abs_fadeOutPause_le x hr)
    · exact (congrArg abs (driven_unique hy (exec_fadeOutEnd x r tot s))).trans_le
        (abs_fadeOutEnd_le x r tot)
    · exact (congrArg abs (driven_unique hy (exec_noiseGate x s))).trans_le
        (abs_noiseGate_le x)
    · exact (congrArg abs (driven_unique hy (exec_volApply x g s))).trans_le
        (abs_volApply_le x g)
  · obtain rfl | rfl | rfl | rfl | rfl := hi
    · exact ⟨_, exec_fadeIn x r tot s⟩
    · exact ⟨_, exec_fadeOutPause x r tot s⟩
    · exact ⟨_, exec_fadeOutEnd x r tot s⟩
    · exact ⟨_, exec_noiseGate x s⟩
    · exact ⟨_, exec_softClip x s⟩
  · exact ⟨_, congrArg Host.Outcome.next (runOnChannel_eq c s (airShelf gain x))⟩

/-- Settles O43: the record takes the value that the stage drives. -/
theorem dcBlockStep : Obligations.DcBlockStep := by
  intro s c x
  refine ⟨_, toInt_dcBlock s.alphaDc x (s.chan c), ?_⟩
  rw [exec_dcBlock, runOnChannel_eq]
  rfl

/-- Settles O45: `alpha` is a u16. -/
theorem biquadCoefficients : Obligations.BiquadCoefficients := by
  intro s alpha a b0
  have ha : 0 ≤ a := Int.natCast_nonneg _
  have ha' : a ≤ 65535 := by omega
  obtain ⟨hb0, hb0'⟩ := biquad_b0_range ha ha'
  obtain ⟨ha2, ha2'⟩ := biquad_a2_range ha ha'
  refine ⟨?_, hb0, hb0', ?_, ?_, ?_, ?_, ha2, ha2'⟩
  · rw [exec_biquadCoef, biquadCoef_eq]
  all_goals omega

/-- Settles O48: inside the operand range no value is free. -/
theorem airShelfStep : Obligations.AirShelfStep := by
  intro s c x gain hgain
  refine ⟨_, toInt_airShelf hgain x (s.chan c), ?_⟩
  rw [exec_airShelf, runOnChannel_eq]
  rfl

end Sys2Proof.Machine
end

section
/-! SUPPORT. The layer of the post-filter's family (42_post_filter.md): the fades inside their windows, what the
gate drives, and the soft clipper as an odd curve on the integers that never falls. -/

namespace Sys2Proof.Machine

/-! ### The fades (R160 to R163) -/

theorem toInt_fadeScale (x : S16) (m t : Nat) :
    (fadeScale x m t).toInt = clampInt ((x.toInt * m).tdiv t) :=
  toInt_clampS16 _

theorem fadeIn_eq (x : S16) {rem tot : Word} (h : rem.toNat ≤ tot.toNat) :
    fadeIn x rem tot =
      if rem = 0 then x else fadeScale x ((tot.toNat - rem.toNat) ^ 2 / tot.toNat) tot.toNat := by
  rw [fadeIn, if_neg (not_lt.mpr h), sq]

theorem fadeOutPause_eq (x : S16) {r tot : Word} (h : r.toNat ≤ tot.toNat) :
    fadeOutPause x r tot = if tot = 0 then 0 else fadeScale x (r.toNat ^ 2 / tot.toNat) tot.toNat := by
  rw [fadeOutPause, if_neg (not_lt.mpr h), sq]

theorem fadeOutEnd_eq (x : S16) (r tot : Word) :
    fadeOutEnd x r tot =
      if tot = 0 ∨ tot.toNat < r.toNat then x
      else fadeScale x (r.toNat ^ 2 / tot.toNat) tot.toNat := by
  rw [fadeOutEnd, sq]

theorem clampInt_mono {v w : Int} (h : v ≤ w) : clampInt v ≤ clampInt w :=
  min_le_min_right _ (max_le_max_right _ h)

/-- On a positive sample a fade follows the count that its multiplier squares. -/
theorem toInt_fadeScale_sq_mono {x : S16} (hx : 0 < x.toInt) {n n' : Nat} (h : n ≤ n') (t : Nat) :
    (fadeScale x (n ^ 2 / t) t).toInt ≤ (fadeScale x (n' ^ 2 / t) t).toInt := by
  have hmult : n ^ 2 / t ≤ n' ^ 2 / t := Nat.div_le_div_right (Nat.pow_le_pow_left h 2)
  obtain ⟨k, hk⟩ := Int.eq_ofNat_of_zero_le hx.le
  rw [toInt_fadeScale, toInt_fadeScale, hk]
  exact clampInt_mono (Int.ofNat_le.mpr (Nat.div_le_div_right (Nat.mul_le_mul_left k hmult)))

theorem toInt_fadeScale_zero (x : S16) (t : Nat) : (fadeScale x 0 t).toInt = 0 := by
  rw [toInt_fadeScale, Nat.cast_zero, mul_zero, Int.zero_tdiv]
  rfl

/-- R163: the fade-in does not fall as its count falls. -/
theorem toInt_fadeIn_antitone {x : S16} (hx : 0 < x.toInt) {r r' tot : Word}
    (h' : r'.toNat ≤ r.toNat) (h : r.toNat ≤ tot.toNat) :
    (fadeIn x r tot).toInt ≤ (fadeIn x r' tot).toInt := by
  by_cases h0 : r' = 0
  · calc (fadeIn x r tot).toInt
      _ ≤ |x.toInt| := (le_abs_self _).trans (abs_fadeIn_le x h)
      _ = (fadeIn x r' tot).toInt := by rw [abs_of_pos hx, fadeIn_eq x (h'.trans h), if_pos h0]
  · have hr : r ≠ 0 := fun hr => h0 (BitVec.eq_of_toNat_eq (by simpa [hr] using h'))
    rw [fadeIn_eq x h, fadeIn_eq x (h'.trans h), if_neg h0, if_neg hr]
    exact toInt_fadeScale_sq_mono hx (Nat.sub_le_sub_left h' _) _

/-- R163: the fade-out of a pause does not rise as its count falls. -/
theorem toInt_fadeOutPause_mono {x : S16} (hx : 0 < x.toInt) {r r' tot : Word}
    (h' : r'.toNat ≤ r.toNat) (h : r.toNat ≤ tot.toNat) :
    (fadeOutPause x r' tot).toInt ≤ (fadeOutPause x r tot).toInt := by
  rw [fadeOutPause_eq x h, fadeOutPause_eq x (h'.trans h)]
  split
  · exact le_rfl
  · exact toInt_fadeScale_sq_mono hx h' _

/-- R163: inside its window the end fade does not rise as its count falls. -/
theorem toInt_fadeOutEnd_mono {x : S16} (hx : 0 < x.toInt) {r r' tot : Word}
    (h' : r'.toNat ≤ r.toNat) (h : r.toNat ≤ tot.toNat) :
    (fadeOutEnd x r' tot).toInt ≤ (fadeOutEnd x r tot).toInt := by
  have hin : ¬ tot.toNat < r.toNat := not_lt.mpr h
  have hin' : ¬ tot.toNat < r'.toNat := not_lt.mpr (h'.trans h)
  simp only [fadeOutEnd_eq, hin, hin', or_false]
  split
  · exact le_rfl
  · exact toInt_fadeScale_sq_mono hx h' _

/-- R163: the first frame of a fade-in is silent. -/
theorem toInt_fadeIn_first (x : S16) {tot : Word} (h0 : tot ≠ 0) : (fadeIn x tot tot).toInt = 0 := by
  rw [fadeIn_eq x le_rfl, if_neg h0, Nat.sub_self, zero_pow two_ne_zero, Nat.zero_div,
    toInt_fadeScale_zero]

/-- The multiplier of a fade-out's last frame rounds to 0. -/
theorem one_sq_div_eq_zero {t : Nat} (h : 2 ≤ t) : (1 : Word).toNat ^ 2 / t = 0 :=
  Nat.div_eq_of_lt h

theorem window_ne_zero {tot : Word} (h : 2 ≤ tot.toNat) : tot ≠ 0 := by
  rintro rfl
  contradiction

theorem one_le_window {tot : Word} (h : 2 ≤ tot.toNat) : (1 : Word).toNat ≤ tot.toNat :=
  one_le_two.trans h

theorem toInt_fadeOutPause_last (x : S16) {tot : Word} (h : 2 ≤ tot.toNat) :
    (fadeOutPause x 1 tot).toInt = 0 := by
  rw [fadeOutPause_eq x (one_le_window h), if_neg (window_ne_zero h), one_sq_div_eq_zero h,
    toInt_fadeScale_zero]

theorem toInt_fadeOutEnd_last (x : S16) {tot : Word} (h : 2 ≤ tot.toNat) :
    (fadeOutEnd x 1 tot).toInt = 0 := by
  have hin : ¬ (tot = 0 ∨ tot.toNat < (1 : Word).toNat) :=
    not_or.mpr ⟨window_ne_zero h, not_lt.mpr (one_le_window h)⟩
  rw [fadeOutEnd_eq, if_neg hin, one_sq_div_eq_zero h, toInt_fadeScale_zero]

/-! ### The noise gate (R165) -/

theorem toInt_noiseGate (x : S16) :
    (noiseGate x).toInt = if |x.toInt| < 512 then x.toInt * 6554 / 65536 else x.toInt := by
  have hx := s16_range x
  rw [noiseGate, gateThreshold, ← Int.abs_eq_natAbs, apply_ite BitVec.toInt, shr16, gateFactor,
    toInt_toS16 (by omega) (by omega)]

/-! ### The magnitude of the soft clipper (R166) -/

/-- The smoothstep `3u² − 2u³` of a Q16 fraction, in the floor steps of R166. -/
def smoothstep (u : Int) : Int := 3 * (u * u / 65536) - 2 * (u * u / 65536 * u / 65536)

/-- The exact cubic that `smoothstep` rounds, scaled by 2^48. -/
def exactCubic (u : Int) : Int := u * u * (3 * 65536 - 2 * u)

theorem clipMagnitude_full {e : Int} (h : 4767 ≤ e) : clipMagnitude (28000 + e) = 32767 := by
  have hover : clipR ≤ 28000 + e - clipT := by rwa [clipT, add_sub_cancel_left]
  exact if_pos hover

/-- R166 answers `CLIP_FULL` from an overshoot of `CLIP_R` on; there the curve has just arrived at it. -/
theorem clipMagnitude_curve {e : Int} (h : e ≤ 4767) :
    clipMagnitude (28000 + e) = 28000 + smoothstep (e * 65536 / 4767) * 4767 / 65536 := by
  obtain rfl | hlt := h.eq_or_lt
  · decide
  · rw [clipMagnitude, clipT, add_sub_cancel_left]
    exact if_neg hlt.not_ge

/-- `smoothstep` is below the exact cubic by less than 3 and above it by at most 2. -/
theorem smoothstep_bounds {u : Int} (h0 : 0 ≤ u) (h1 : u ≤ 65536) :
    exactCubic u - 3 * 65536 ^ 2 < 65536 ^ 2 * smoothstep u ∧
      65536 ^ 2 * smoothstep u ≤ exactCubic u + 2 * 65536 ^ 2 := by
  have hsq : 65536 * (u * u / 65536) ≤ u * u ∧ u * u - 65535 ≤ 65536 * (u * u / 65536) := by omega
  rw [smoothstep, exactCubic]
  generalize u * u / 65536 = u2 at *
  have hcube : 65536 * (u2 * u / 65536) ≤ u2 * u ∧ u2 * u - 65535 ≤ 65536 * (u2 * u / 65536) := by
    omega
  constructor <;> nlinarith

theorem exactCubic_add (u d : Int) : exactCubic (u + d) =
    exactCubic u + (6 * d * (u * (65536 - u - d)) + 3 * 65536 * d ^ 2 - 2 * d ^ 3) := by
  rw [exactCubic, exactCubic]
  ring

/-- One more unit of overshoot moves the fraction by 13 or 14. -/
theorem clipFraction_succ (e : Int) : ∃ d : Int, (d = 13 ∨ d = 14) ∧
    (e + 1) * 65536 / 4767 = e * 65536 / 4767 + d :=
  ⟨(e + 1) * 65536 / 4767 - e * 65536 / 4767, by omega, by omega⟩

/-- The slope is at most 3/2, and the floors add less than 5. -/
theorem smoothstep_add_le {u d : Int} (h0 : 0 ≤ u) (hd : d = 13 ∨ d = 14) (h1 : u + d ≤ 65536) :
    smoothstep (u + d) ≤ smoothstep u + 27 := by
  have hlow := (smoothstep_bounds h0 (by omega)).1
  have hhigh := (smoothstep_bounds (by omega) h1).2
  have hslope : 4 * (u * (65536 - u - d)) ≤ (65536 - d) ^ 2 := by
    nlinarith [sq_nonneg (2 * u + d - 65536)]
  rw [exactCubic_add] at hhigh
  obtain rfl | rfl := hd <;> omega

/-- Away from the two ends the slope exceeds what the floors cost. -/
theorem smoothstep_le_add {u d : Int} (h0 : 3600 ≤ u) (hd : d = 13 ∨ d = 14)
    (h1 : u + d ≤ 65536 - 3600) : smoothstep u ≤ smoothstep (u + d) := by
  have hhigh := (smoothstep_bounds (u := u) (by omega) (by omega)).2
  have hlow := (smoothstep_bounds (u := u + d) (by omega) (by omega)).1
  have hslope : 3600 * (65536 - d - 3600) ≤ u * (65536 - u - d) := by nlinarith
  rw [exactCubic_add] at hlow
  obtain rfl | rfl := hd <;> omega

/-- Near the ends the curve is too flat for `smoothstep_le_add` (`smoothstep` itself falls there at three
places), so these overshoots are evaluated, as R166's corner case itself is derived. -/
theorem clipMagnitude_le_succ_at_ends : ∀ n : Nat, n < 262 → ∀ e ∈ [(n : Int), 4505 + (n : Int)],
    clipMagnitude (28000 + e) ≤ clipMagnitude (28000 + (e + 1)) := by
  decide +kernel

theorem clipMagnitude_le_succ {e : Int} (h0 : 0 ≤ e) (h1 : e < 4767) :
    clipMagnitude (28000 + e) ≤ clipMagnitude (28000 + (e + 1)) := by
  obtain hlow | hhigh | hmid : e < 262 ∨ 4505 ≤ e ∨ 262 ≤ e ∧ e < 4505 := by omega
  · lift e to Nat using h0
    exact clipMagnitude_le_succ_at_ends e (by omega) _ (by simp)
  · obtain ⟨n, rfl⟩ : ∃ n : Nat, e = 4505 + n := ⟨(e - 4505).toNat, by omega⟩
    exact clipMagnitude_le_succ_at_ends n (by omega) _ (by simp)
  · obtain ⟨d, hd, hu⟩ := clipFraction_succ e
    have hstep := smoothstep_le_add (u := e * 65536 / 4767) (by omega) hd (by omega)
    rw [clipMagnitude_curve h1.le, clipMagnitude_curve h1, hu]
    omega

theorem clipMagnitude_succ_le {e : Int} (h0 : 0 ≤ e) (h1 : e < 4767) :
    clipMagnitude (28000 + (e + 1)) ≤ clipMagnitude (28000 + e) + 2 := by
  obtain ⟨d, hd, hu⟩ := clipFraction_succ e
  have hstep := smoothstep_add_le (u := e * 65536 / 4767) (by omega) hd (by omega)
  rw [clipMagnitude_curve h1.le, clipMagnitude_curve h1, hu]
  omega

theorem clipMagnitude_step {a : Int} (ha : 28000 ≤ a) :
    clipMagnitude a ≤ clipMagnitude (a + 1) ∧ clipMagnitude (a + 1) ≤ clipMagnitude a + 2 := by
  obtain ⟨e, rfl⟩ : ∃ e, a = 28000 + e := ⟨a - 28000, by omega⟩
  rw [add_assoc]
  obtain hfull | hlt := le_or_gt 4767 e
  · rw [clipMagnitude_full hfull, clipMagnitude_full (by omega)]
    omega
  · exact ⟨clipMagnitude_le_succ (by omega) hlt, clipMagnitude_succ_le (by omega) hlt⟩

/-! ### The soft clipper as a curve on the integers (R166, R167) -/

/-- What `SOFT_CLIP` gives (`toInt_softClip`), on every integer. -/
def clipCurve (x : Int) : Int :=
  if |x| ≤ 28000 then x else if 0 < x then clipMagnitude |x| else -clipMagnitude |x|

theorem clipCurve_of_abs_le {x : Int} (h : |x| ≤ 28000) : clipCurve x = x := if_pos h

theorem clipCurve_of_ge {x : Int} (h : 28000 ≤ x) : clipCurve x = clipMagnitude x := by
  obtain rfl | hlt := h.eq_or_lt
  · decide
  · have hpos : 0 < x := by omega
    rw [clipCurve, abs_of_pos hpos, if_neg hlt.not_ge, if_pos hpos]

theorem clipCurve_neg (x : Int) : clipCurve (-x) = -clipCurve x := by
  simp only [clipCurve, abs_neg]
  split
  · rfl
  · next hbig =>
    obtain hneg | rfl | hpos := lt_trichotomy x 0
    · rw [if_pos (neg_pos.mpr hneg), if_neg hneg.not_gt, neg_neg]
    · simp at hbig
    · rw [if_neg (neg_neg_of_pos hpos).not_gt, if_pos hpos]

theorem clipCurve_step (x : Int) :
    clipCurve x ≤ clipCurve (x + 1) ∧ clipCurve (x + 1) ≤ clipCurve x + 2 := by
  obtain hhigh | hmid | hlow : 28000 ≤ x ∨ (-28000 ≤ x ∧ x < 28000) ∨ x < -28000 := by omega
  · rw [clipCurve_of_ge hhigh, clipCurve_of_ge (by omega)]
    exact clipMagnitude_step hhigh
  · rw [clipCurve_of_abs_le (abs_le.mpr (by omega)), clipCurve_of_abs_le (abs_le.mpr (by omega))]
    omega
  · obtain ⟨z, rfl⟩ : ∃ z, x = -(z + 1) := ⟨-x - 1, by omega⟩
    have hstep := clipMagnitude_step (a := z) (by omega)
    rw [show -(z + 1) + 1 = -z by omega, clipCurve_neg, clipCurve_neg, clipCurve_of_ge (by omega),
      clipCurve_of_ge (by omega)]
    omega

theorem clipCurve_monotone : Monotone clipCurve :=
  monotone_int_of_le_succ fun x => (clipCurve_step x).1

theorem clipCurve_le (x : Int) : clipCurve x ≤ 32767 :=
  calc clipCurve x
    _ ≤ clipCurve (28000 + max x 4767) := clipCurve_monotone (by omega)
    _ = 32767 := by rw [clipCurve_of_ge (by omega), clipMagnitude_full (le_max_right _ _)]

theorem neg_le_clipCurve (x : Int) : -32767 ≤ clipCurve x := by
  have h := clipCurve_le (-x)
  rw [clipCurve_neg] at h
  omega

theorem toInt_softClip (x : S16) : (softClip x).toInt = clipCurve x.toInt := by
  have hlow := neg_le_clipCurve x.toInt
  have hhigh := clipCurve_le x.toInt
  rw [softClip, ← Int.abs_eq_natAbs]
  by_cases h : |x.toInt| ≤ 28000
  · rw [clipCurve_of_abs_le h]
    exact congrArg BitVec.toInt (if_pos h)
  · rw [clipCurve, if_neg h] at hlow hhigh ⊢
    exact (congrArg BitVec.toInt (if_neg h)).trans (toInt_toS16 (by omega) (by omega))

/-! ### The obligations -/

/-- Settles O49: inside the operand conditions no value is free. -/
theorem fadeStages : Obligations.FadeStages := by
  intro s x r tot ramp
  refine ⟨fun h => ?_, fun h => ?_, ?_⟩
  · rw [exec_fadeIn, fadeIn_eq x h, apply_ite BitVec.toInt, toInt_fadeScale]
    rfl
  · rw [exec_fadeOutPause, fadeOutPause_eq x h, apply_ite BitVec.toInt, toInt_fadeScale]
    rfl
  · rw [exec_fadeOutEnd, fadeOutEnd_eq, apply_ite BitVec.toInt, toInt_fadeScale]
    rfl

/-- Settles O50: each fade follows its count, and a multiplier of 0 silences it. -/
theorem fadeShape : Obligations.FadeShape := by
  intro s x r r' tot hx h' h
  refine ⟨⟨_, _, exec_fadeIn x r tot s, exec_fadeIn x r' tot s, toInt_fadeIn_antitone hx h' h⟩,
    ⟨_, _, exec_fadeOutPause x r tot s, exec_fadeOutPause x r' tot s, toInt_fadeOutPause_mono hx h' h⟩,
    ⟨_, _, exec_fadeOutEnd x r tot s, exec_fadeOutEnd x r' tot s, toInt_fadeOutEnd_mono hx h' h⟩,
    ?_, ?_⟩
  · rintro hr rfl
    rw [exec_fadeIn, toInt_fadeIn_first x hr]
  · rintro rfl htot
    rw [exec_fadeOutPause, exec_fadeOutEnd, toInt_fadeOutPause_last x htot, toInt_fadeOutEnd_last x htot]
    exact ⟨rfl, rfl⟩

/-- Settles O54: the driven values lie on `clipCurve`, which is odd, bounded and climbs by at most 2. -/
theorem softClipShape : Obligations.SoftClipShape := by
  intro s x x' y y' hy hy'
  obtain rfl : y = clipCurve x.toInt :=
    (driven_unique hy (exec_softClip x s)).trans (toInt_softClip x)
  obtain rfl : y' = clipCurve x'.toInt :=
    (driven_unique hy' (exec_softClip x' s)).trans (toInt_softClip x')
  refine ⟨⟨neg_le_clipCurve _, clipCurve_le _⟩, fun hneg => ?_, fun hle => clipCurve_monotone hle,
    fun hsucc => ?_⟩
  · rw [hneg, clipCurve_neg]
  · rw [hsucc]
    have hstep := (clipCurve_step x.toInt).2
    omega

/-- Settles O51, from the value of each counter after a tick. -/
theorem fadeTickCounters : Obligations.FadeTickCounters := fun s =>
  ⟨_, _, toNat_fadeTick_fadeInRem s, toNat_fadeTick_fadeOutRem s, rfl, rfl⟩

/-- Settles O52: the attenuated sample is an s16. -/
theorem noiseGateAttenuates : Obligations.NoiseGateAttenuates := by
  intro s x
  rw [exec_noiseGate, toInt_noiseGate]

/-- Settles O53: the clipped magnitude is an s16. -/
theorem softClipCurve : Obligations.SoftClipCurve := by
  intro s x e u u2 u3 m
  rw [exec_softClip, toInt_softClip]
  rfl

end Sys2Proof.Machine
end

section
/-! SUPPORT. The layer of the conversion's family (43_dither_format.md): the generator's arithmetic, what a
source read and the two element reads give and when they fault, and the volume curve over the reals. -/

namespace Sys2Proof.Machine

/-! ### The generator and the dither (R180, R181) -/

theorem exec_lcgDraw (s : State) :
    exec .lcgDraw s =
      .next { s with lcg := lcgNext s.lcg, stageOut := [(lcgDrawOf (lcgNext s.lcg) : Int)] } := rfl

theorem exec_tpdfDither (s : State) :
    exec .tpdfDither s =
      .next { s with lcg := lcgAfterDither s.lcg, stageOut := [ditherOf s.lcg] } := rfl

theorem toNat_lcgNext (l : Word) :
    (lcgNext l).toNat = (l.toNat * 1103515245 + 12345) % 2 ^ 32 := by
  have hmul : lcgMul.toNat = 1103515245 := rfl
  have hinc : lcgInc.toNat = 12345 := rfl
  rw [lcgNext, BitVec.toNat_add, BitVec.toNat_mul, hmul, hinc, Nat.add_mod_mod, Nat.add_comm,
    Nat.mul_comm]

/-- A draw has 15 bits. -/
theorem lcgDrawOf_lt (l : Word) : lcgDrawOf l < 32768 := Nat.mod_lt _ (by decide)

/-- R181's derived range. -/
theorem ditherOf_range (l : Word) : -512 ≤ ditherOf l ∧ ditherOf l ≤ 511 := by
  have h1 := lcgDrawOf_lt (lcgNext l)
  have h2 := lcgDrawOf_lt (lcgNext (lcgNext l))
  rw [ditherOf]
  omega

/-! ### Source reads that fault (R69) -/

theorem sourceByte_eq_error {s : State} {a : Nat}
    (h : s.src.toNat + s.regionBytes ≤ a ∨ memRead s.mem a = none) :
    sourceByte s a = .error (.sourceRange a) := by
  rw [sourceByte]
  split
  · next hin =>
    obtain hout | hnone := h
    · exact absurd hin.2 (not_lt.mpr hout)
    · rw [hnone]
  · rfl

/-! ### The 8-bit element (R182) -/

theorem exec_u8ToS16_of_ok {s t : State} {p : Word} {x : S16} (h : u8ToS16 s p.toNat = .ok (x, t)) :
    exec (.u8ToS16 p) s = .next { t with stageOut := [x.toInt] } := by
  rw [exec, execU8ToS16, h]
  rfl

theorem exec_u8ToS16_of_error {s : State} {p : Word} {f : Fault} (h : u8ToS16 s p.toNat = .error f) :
    exec (.u8ToS16 p) s = .fault f := by
  rw [exec, execU8ToS16, h]

theorem u8ToS16_of_byte {s : State} {p : Nat} {b : Byte}
    (h : sourceByte s (s.src.toNat + p) = .ok b) :
    u8ToS16 s p = .ok (u8Sample b (ditherOf s.lcg), { s with lcg := lcgAfterDither s.lcg }) := by
  rw [u8ToS16, h]

theorem u8ToS16_of_fault {s : State} {p : Nat} {f : Fault}
    (h : sourceByte s (s.src.toNat + p) = .error f) : u8ToS16 s p = .error f := by
  rw [u8ToS16, h]

theorem toInt_u8Sample (b : Byte) (d : Int) :
    (u8Sample b d).toInt = min (max (((b.toNat : Int) - 128) * 256 + d) (-32768)) 32767 :=
  toInt_clampS16 _

/-! ### The 16-bit element (R183) -/

theorem exec_s16Read_of_ok {s : State} {p : Word} {x : S16} (h : s16Read s p.toNat = .ok x) :
    exec (.s16Read p) s = .next { s with stageOut := [x.toInt] } := by
  rw [exec, execS16Read, h]
  rfl

theorem exec_s16Read_of_error {s : State} {p : Word} {f : Fault} (h : s16Read s p.toNat = .error f) :
    exec (.s16Read p) s = .fault f := by
  rw [exec, execS16Read, h]

/-- Two bytes, the low one first, are the word of the high byte before the low one. -/
theorem ofNat_littleEndian (lo hi : Byte) :
    BitVec.ofNat 16 (lo.toNat + 256 * hi.toNat) = (hi ++ lo : BitVec 16) := by
  have hlo := lo.isLt
  have hhi := hi.isLt
  apply BitVec.eq_of_toNat_eq
  rw [BitVec.toNat_ofNat, BitVec.toNat_append, ← Nat.shiftLeft_add_eq_or_of_lt hlo,
    Nat.shiftLeft_eq]
  omega

theorem s16Read_of_bytes {s : State} {p : Nat} {lo hi : Byte}
    (hlo : sourceByte s (s.src.toNat + 2 * p) = .ok lo)
    (hhi : sourceByte s (s.src.toNat + 2 * p + 1) = .ok hi) :
    s16Read s p = .ok (hi ++ lo : BitVec 16) := by
  simp only [s16Read, hlo, hhi, ofNat_littleEndian]

theorem s16Read_of_low_fault {s : State} {p : Nat} {f : Fault}
    (h : sourceByte s (s.src.toNat + 2 * p) = .error f) : s16Read s p = .error f := by
  rw [s16Read, h]

theorem s16Read_of_high_fault {s : State} {p : Nat} {lo : Byte} {f : Fault}
    (hlo : sourceByte s (s.src.toNat + 2 * p) = .ok lo)
    (hhi : sourceByte s (s.src.toNat + 2 * p + 1) = .error f) : s16Read s p = .error f := by
  simp only [s16Read, hlo, hhi]

/-! ### The element read (R184) -/

theorem readElement_of_depth8 {s : State} (hd : s.depth = 8) (p : Nat) :
    readElement s p = u8ToS16 s p := by
  have h16 : s.depth ≠ 16 := by rw [hd]; decide
  exact if_neg h16

theorem readElement_ok_of_depth16 {s t : State} {p : Nat} {x : S16} (hd : s.depth = 16)
    (h : readElement s p = .ok (x, t)) : s16Read s p = .ok x ∧ t = s := by
  rw [readElement, if_pos hd] at h
  split at h
  · cases h
  · next hx =>
    cases h
    exact ⟨hx, rfl⟩

theorem readElement_error_of_depth16 {s : State} {p : Nat} {f : Fault} (hd : s.depth = 16)
    (h : readElement s p = .error f) : s16Read s p = .error f := by
  rw [readElement, if_pos hd] at h
  split at h
  · next hf =>
    cases h
    exact hf
  · cases h

/-! ### The volume curve (R185) -/

theorem exec_volCurve (v : U16) (s : State) :
    exec (.volCurve v) s = .next { s with stageOut := [((volCurve s.params v).toNat : Int)] } := rfl

/-- A number is at most a root of a power when its own power is at most that power. -/
theorem le_rpow_div_iff {num : Nat} (hnum : 0 < num) (den : Nat) {a b : ℝ} (ha : 0 ≤ a) (hb : 0 ≤ b) :
    a ≤ b ^ ((den : ℝ) / num) ↔ a ^ num ≤ b ^ den := by
  rw [← pow_le_pow_iff_left₀ ha (by positivity) hnum.ne', ← Real.rpow_mul_natCast hb,
    div_mul_cancel₀ _ (by positivity), Real.rpow_natCast]

/-- The real comparison of R185 in the exact powers that `curveReaches` compares. -/
theorem curveReaches_iff {num : Nat} (hnum : 0 < num) (den v : Nat) {n : Nat} (hn : 1 ≤ n) :
    curveReaches num den v n = true ↔
      (n : ℝ) ≤ 65535 * ((v : ℝ) / 65535) ^ ((den : ℝ) / num) + 1 / 2 := by
  have hhalf : (n : ℝ) ≤ 65535 * ((v : ℝ) / 65535) ^ ((den : ℝ) / num) + 1 / 2 ↔
      ((2 * n - 1 : Nat) : ℝ) / 131070 ≤ ((v : ℝ) / 65535) ^ ((den : ℝ) / num) := by
    rw [div_le_iff₀ (by positivity), cast_two_mul_sub_one hn]
    constructor <;> intro h <;> linarith
  rw [hhalf, le_rpow_div_iff hnum den (by positivity) (by positivity), div_pow, div_pow,
    div_le_div_iff₀ (by positivity) (by positivity), curveReaches, productLe_iff, powerProduct_pair,
    powerProduct_pair]
  exact_mod_cast Iff.rfl

theorem roundVolumeCurve_eq {num : Nat} (hnum : 0 < num) (den v : Nat) :
    roundVolumeCurve num den v =
      min ⌊65535 * ((v : ℝ) / 65535) ^ ((den : ℝ) / num) + 1 / 2⌋₊ 65535 :=
  greatestUpTo_eq_min_floor (bits := 16) fun _ hn _ => curveReaches_iff hnum den v hn

/-- The curve of a u16 level stays a u16, so the search's own range cuts nothing off. -/
theorem floor_curve_le {v : Nat} (hv : v ≤ 65535) {e : ℝ} (he : 0 ≤ e) :
    ⌊65535 * ((v : ℝ) / 65535) ^ e + 1 / 2⌋₊ ≤ 65535 := by
  have hratio : (v : ℝ) / 65535 ≤ 1 := by
    rw [div_le_one (by norm_num)]
    exact_mod_cast hv
  have hpow : ((v : ℝ) / 65535) ^ e ≤ 1 := Real.rpow_le_one (by positivity) hratio he
  rw [← Nat.lt_succ_iff, Nat.floor_lt' (by decide)]
  push_cast
  linarith

theorem toNat_volCurve_of_gamma {p : Params} (hen : p.gammaEn = true) (hnum : 0 < p.gammaNum)
    (v : U16) :
    ((volCurve p v).toNat : Int) =
      ⌊65535 * ((v.toNat : ℝ) / 65535) ^ ((p.gammaDen : ℝ) / p.gammaNum) + 1 / 2⌋ := by
  rw [volCurve, if_pos hen, roundVolumeCurve_eq hnum, toNat_ofNat_min (by decide),
    min_eq_left (floor_curve_le (by omega) (by positivity)), Int.natCast_floor_eq_floor (by positivity)]

/-! ### The obligations -/

/-- Settles O60, from the search of the curve over the reals and the scaled sample being an s16. -/
theorem volumeStages : Obligations.VolumeStages := by
  intro s
  refine ⟨fun v hoff => ?_, fun v hen hnum _ => ?_, fun x g => ⟨?_, toInt_volApply x g, ?_⟩⟩
  · rw [exec_volCurve, volCurve, hoff]
    rfl
  · intro gamma
    rw [exec_volCurve, toNat_volCurve_of_gamma hen hnum, one_div_div]
  · rw [exec_volApply, toInt_volApply]
  · rw [← toInt_volApply]
    exact abs_volApply_le x g

/-- Settles O56, from the value of the next generator state and the range of the dither. -/
theorem ditherDraws : Obligations.DitherDraws := fun s =>
  ⟨lcgNext s.lcg, lcgAfterDither s.lcg, toNat_lcgNext _, toNat_lcgNext _, exec_lcgDraw s,
    exec_tpdfDither s, ditherOf_range s.lcg⟩

/-- Settles O57: the one byte read decides between the sample and the fault. -/
theorem u8ReadConverts : Obligations.U8ReadConverts := by
  intro s p a
  refine ⟨fun b hin hb => ⟨_, _, exec_tpdfDither s, ?_⟩, fun hbad => ?_⟩
  · have hbyte : sourceByte s a = .ok b := sourceByte_eq_ok (Nat.le_add_right _ _) hin hb
    rw [exec_u8ToS16_of_ok (u8ToS16_of_byte hbyte), toInt_u8Sample]
  · exact exec_u8ToS16_of_error (u8ToS16_of_fault (sourceByte_eq_error hbad))

/-- Settles O58: the low byte is read first, so the first of the two that is missing is reported. -/
theorem s16ReadLittleEndian : Obligations.S16ReadLittleEndian := by
  intro s p a stop
  have hbase : s.src.toNat ≤ a := Nat.le_add_right _ _
  refine ⟨fun lo hi hin hlo hhi => ?_, fun hbad => ?_, fun hin hsome hbad => ?_⟩
  · have hlow : sourceByte s a = .ok lo := sourceByte_eq_ok hbase (Nat.lt_of_succ_lt hin) hlo
    have hhigh : sourceByte s (a + 1) = .ok hi := sourceByte_eq_ok (Nat.le_succ_of_le hbase) hin hhi
    exact exec_s16Read_of_ok (s16Read_of_bytes hlow hhigh)
  · exact exec_s16Read_of_error (s16Read_of_low_fault (sourceByte_eq_error hbad))
  · obtain ⟨lo, hlo⟩ := Option.ne_none_iff_exists'.mp hsome
    have hlow : sourceByte s a = .ok lo := sourceByte_eq_ok hbase hin hlo
    exact exec_s16Read_of_error (s16Read_of_high_fault hlow (sourceByte_eq_error hbad))

/-- Settles O59, from what the element read is at each depth. -/
theorem readSelectsByDepth : Obligations.ReadSelectsByDepth := by
  intro s t p x
  refine ⟨fun hd h => ?_, fun hd h => ?_, fun f hd h => ?_, fun f hd h => ?_⟩
  · rw [readElement_of_depth8 hd] at h
    exact exec_u8ToS16_of_ok h
  · obtain ⟨hx, rfl⟩ := readElement_ok_of_depth16 hd h
    exact ⟨exec_s16Read_of_ok hx, rfl⟩
  · rw [readElement_of_depth8 hd] at h
    exact exec_u8ToS16_of_error h
  · exact exec_s16Read_of_error (readElement_error_of_depth16 hd h)

end Sys2Proof.Machine
end

section
/-! SUPPORT. The layer of the chunk processor's family (44_chunk_processor.md): what a fill event does in
each state of a session, FILL as its frames and what it leaves, the valid frames of a half, the stages of
CHAIN, and a run of fill events. -/

namespace Sys2Proof.Machine

/-! ### Silence and the end of a session (R201, R211) -/

theorem halfIndex_le_one (h : Half) : halfIndex h ≤ 1 := by
  cases h <;> decide

/-- R43: on a buffer of a multiple of four slots each half lies inside the buffer. -/
theorem half_within {s : State} (h : Half) (hlen : s.out.length = s.params.bufLen)
    (hdiv : s.params.bufLen % 4 = 0) :
    2 * (halfIndex h * s.halfFrames + s.halfFrames) ≤ s.out.length := by
  have hbase : halfIndex h * s.halfFrames ≤ 1 * s.halfFrames :=
    Nat.mul_le_mul_right _ (halfIndex_le_one h)
  have hfour : 4 * s.halfFrames = s.params.bufLen := Nat.mul_div_cancel' (Nat.dvd_of_mod_eq_zero hdiv)
  omega

theorem exec_silenceHalf (h : Half) (s : State) :
    exec (.silenceHalf h) s = .next ((s.silenceHalf h).drive []) := rfl

theorem exec_endSession (s : State) : exec .endSession s = .next ((SessionEnded s).drive []) := by
  rw [← endSession_eq]
  rfl

/-! ### The fill event, by the state it finds (R207 to R212) -/

theorem exec_eventInstr (h : Half) (s : State) : exec (eventInstr h) s = outcomeOf (fillEvent s h) := by
  cases h <;> rfl

theorem fillEvent_of_noSession {s : State} (h : Half)
    (hp : s.playState = .idle ∨ s.playState = .error ∨ s.playState = .playingFailed) :
    fillEvent s h = .ok (s.silenceHalf h) := by
  rcases hp with hp | hp | hp <;> simp only [fillEvent, hp]

theorem fillEvent_of_paused {s : State} (h : Half) (hp : s.playState = .paused) :
    fillEvent s h =
      .ok (if s.stopReq = true then SessionEnded (s.silenceHalf h) else s.silenceHalf h) := by
  simp only [fillEvent, hp, endSession_eq]

theorem fillEvent_of_pause_over {s : State} (h : Half) (hp : s.playState = .pausing)
    (hrem : s.fadeOutRem.toNat ≤ s.halfFrames) : fillEvent s h = .ok (s.completePause h) := by
  simp only [fillEvent, hp, if_pos hrem]

/-- What an event that fills does first (R208): a stop seen while `Playing` shortens `END`. -/
def State.stopSeen (s : State) : State :=
  if s.playState = .playing ∧ s.stopReq = true then s.shortenEnd else s

theorem stopSeen_of_no_stop {s : State} (hstop : s.stopReq = false) : s.stopSeen = s :=
  if_neg (by simp [hstop])

/-- It writes `END` and the stop flag alone. -/
theorem stopSeen_eq (s : State) : s.stopSeen =
    { s with endOff := s.stopSeen.endOff
             stopReq := if s.playState = .playing then false else s.stopReq } := by
  unfold State.stopSeen
  split
  · next h =>
    rw [if_pos h.1]
    rfl
  · next h =>
    have hflag : (if s.playState = .playing then false else s.stopReq) = s.stopReq := by
      split
      · next hp => exact (Bool.eq_false_iff.mpr fun hstop => h ⟨hp, hstop⟩).symm
      · rfl
    rw [hflag]

/-- R208: the new `END`, the end of a play-end window if that comes before the old one. -/
theorem toNat_stopSeen_endOff (s : State) : s.stopSeen.endOff.toNat =
    if s.playState = .playing ∧ s.stopReq = true then
      min s.endOff.toNat (min (s.cur.toNat + s.fadeSmp.playOut.toNat * s.elems) 4294967295)
    else s.endOff.toNat := by
  unfold State.stopSeen
  split
  · rw [State.shortenEnd, toNat_sat32, BitVec.toNat_ofNat]
    exact Nat.mod_eq_of_lt ((min_le_left _ _).trans_lt s.endOff.isLt)
  · rfl

theorem Fillable.stopSeen {s : State} (hs : Fillable s) : Fillable s.stopSeen := by
  have hend : s.stopSeen.endOff.toNat ≤ s.endOff.toNat := by
    rw [toNat_stopSeen_endOff]
    split
    · exact min_le_left _ _
    · exact le_rfl
  rw [stopSeen_eq]
  exact { hs with endWithin := hend.trans hs.endWithin }

/-- R207: `Playing`, or `Pausing` with the counter above one half, is where an event fills. -/
theorem fillEvent_of_filling {s : State} (h : Half)
    (hp : s.playState = .playing ∨ s.playState = .pausing ∧ s.halfFrames < s.fadeOutRem.toNat) :
    fillEvent s h = fillThenEnd s.stopSeen h := by
  rcases hp with hp | ⟨hp, hrem⟩
  · simp only [fillEvent, State.stopSeen, hp, true_and]
  · simp only [fillEvent, State.stopSeen, hp, if_neg (Nat.not_le.mpr hrem), reduceCtorEq, false_and,
      if_false]

/-- Where FILL completes, the event ends the session if the cursor has reached `END`. -/
theorem fillThenEnd_of_fill {s u : State} {h : Half} (hu : fill s h = .ok u) :
    fillThenEnd s h = .ok (if u.endOff.toNat ≤ u.cur.toNat then SessionEnded u else u) := by
  simp only [fillThenEnd, hu, endSession_eq]

/-- A filling event completes on a source the memory holds. -/
theorem exec_event_of_filling {s : State} (h : Half) (hs : Fillable s)
    (hp : s.playState = .playing ∨ s.playState = .pausing ∧ s.halfFrames < s.fadeOutRem.toNat) :
    ∃ u, fill s.stopSeen h = .ok u ∧ exec (eventInstr h) s =
      .next (if u.endOff.toNat ≤ u.cur.toNat then SessionEnded u else u) := by
  obtain ⟨u, hu⟩ := fill_completes hs.stopSeen h
  refine ⟨u, hu, ?_⟩
  rw [exec_eventInstr, fillEvent_of_filling h hp, fillThenEnd_of_fill hu]
  rfl

/-! ### FILL as its frames (R202, R206) -/

theorem exec_fill_of_ok {s t : State} {h : Half} (ht : fill s h = .ok t) :
    exec (.fill h) s = .next { t with stageOut := [] } := by
  simp only [exec, execFill, ht, State.drive]

/-- Once the frames are written, FILL moves the cursor by `STEP` and logs the half. -/
theorem fill_of_frames {s u : State} {h : Half}
    (hu : fillFrames h (volCurve s.params s.volumeAnswer) s.halfFrames 0 s.afterVolumeRead = .ok u) :
    fill s h = .ok { u with
      cur := sat32 (s.cur.toNat + s.stepElems)
      log := u.log ++
        [.half h ((u.out.drop (2 * halfIndex h * s.halfFrames)).take (2 * s.halfFrames))] } := by
  have hstill := (fillFrames_ok hu).still
  have hcur : u.cur = s.cur := still_field (s := s.afterVolumeRead) State.cur (fun _ => rfl) hstill
  have hstep : u.stepElems = s.stepElems :=
    still_field (s := s.afterVolumeRead) State.stepElems (fun _ => rfl) hstill
  have hhalf : u.halfFrames = s.halfFrames :=
    still_field (s := s.afterVolumeRead) State.halfFrames (fun _ => rfl) hstill
  simp only [fill, hu]
  rw [← hcur, ← hstep, ← hhalf]
  rfl

/-- R213: what FILL logs, the volume read and the half. -/
theorem fill_log {s t : State} {h : Half} (ht : fill s h = .ok t) :
    t.log = s.log ++ [.volRead s.volumeAnswer,
      .half h ((t.out.drop (2 * halfIndex h * s.halfFrames)).take (2 * s.halfFrames))] := by
  obtain ⟨u, hd, rfl⟩ := fill_ok ht
  have hlog : u.log = s.log ++ [.volRead s.volumeAnswer] :=
    still_field (s := s.afterVolumeRead) State.log (fun _ => rfl) hd.still
  have hhalf : u.halfFrames = s.halfFrames :=
    still_field (s := s.afterVolumeRead) State.halfFrames (fun _ => rfl) hd.still
  simp only [State.halfSlots, hlog, hhalf, List.append_assoc, List.cons_append, List.nil_append]

/-! ### The valid frames of a half, and what FILL leaves (R203 to R206) -/

theorem elems_pos (s : State) : 0 < s.elems := by
  rcases elems_cases s with h | h <;> rw [h] <;> decide

/-- A frame is valid when its number is below the count of whole frames from the cursor to `END`. -/
theorem frame_valid_iff {endOff cur c f : Nat} (hc : 0 < c) :
    cur + f * c + c ≤ endOff ↔ f < (endOff - cur) / c := by
  have hsucc : (f + 1) * c = f * c + c := Nat.succ_mul f c
  rw [← Nat.succ_le_iff, Nat.le_div_iff_mul_le hc, Nat.succ_eq_add_one, hsucc]
  omega

theorem validFrames_eq {endOff cur c : Nat} (hc : 0 < c) :
    ∀ n f, validFrames endOff cur c f n = min n ((endOff - cur) / c - f)
  | 0, _ => (Nat.zero_min _).symm
  | n + 1, f => by
    rw [validFrames, validFrames_eq hc n (f + 1)]
    simp only [frame_valid_iff hc]
    split <;> omega

theorem fill_keeps_other_slots {s t : State} {h : Half} (ht : fill s h = .ok t) {i : Nat}
    (hi : ¬(2 * halfIndex h * s.halfFrames ≤ i ∧
      i < 2 * halfIndex h * s.halfFrames + 2 * s.halfFrames)) : t.out[i]? = s.out[i]? := by
  obtain ⟨u, hd, rfl⟩ := fill_ok ht
  have hout : ¬(2 * (halfIndex h * s.halfFrames + 0) ≤ i ∧
      i < 2 * (halfIndex h * s.halfFrames + 0 + s.halfFrames)) := by
    rw [Nat.mul_assoc] at hi
    omega
  exact hd.slots i hout

/-- R203: from the number of valid frames on, a half is silent. -/
theorem fill_silences_past_end {s t : State} {h : Half} (ht : fill s h = .ok t)
    (hlen : s.out.length = s.params.bufLen) (hdiv : s.params.bufLen % 4 = 0) {k : Nat} (hk : k < s.halfFrames)
    (hpast : (s.endOff.toNat - s.cur.toNat) / s.elems ≤ k) :
    t.out[2 * (halfIndex h * s.halfFrames + k)]? = some 0 ∧
    t.out[2 * (halfIndex h * s.halfFrames + k) + 1]? = some 0 := by
  obtain ⟨u, hd, rfl⟩ := fill_ok ht
  exact hd.silent k (Nat.zero_le k) (by rwa [Nat.zero_add])
    (Nat.not_le.mp fun hv => Nat.not_lt.mpr hpast ((frame_valid_iff (elems_pos s)).mp hv))
    (half_within h hlen hdiv)

theorem fill_mono_slots {s t : State} {h : Half} (ht : fill s h = .ok t)
    (hlen : s.out.length = s.params.bufLen) (hdiv : s.params.bufLen % 4 = 0) (hmono : s.elems = 1)
    (hsrc : s.sourceChanged = false) {k : Nat} (hk : k < s.halfFrames) :
    t.out[2 * (halfIndex h * s.halfFrames + k)]? = t.out[2 * (halfIndex h * s.halfFrames + k) + 1]? := by
  obtain ⟨u, hd, rfl⟩ := fill_ok ht
  exact hd.mono hmono hsrc k (Nat.zero_le k) (by rwa [Nat.zero_add]) (half_within h hlen hdiv)

theorem fill_mono_chR {s t : State} {h : Half} (ht : fill s h = .ok t) (hmono : s.elems = 1) :
    t.chR = s.chR := by
  obtain ⟨u, hd, rfl⟩ := fill_ok ht
  exact hd.monoR hmono

theorem fill_lcg {s t : State} {h : Half} (ht : fill s h = .ok t) (hdepth : s.depth = 16) :
    t.lcg = s.lcg := by
  obtain ⟨u, hd, rfl⟩ := fill_ok ht
  exact hd.lcg hdepth

/-- R204 to R206: one tick of the fade counters for each valid frame. -/
theorem fill_counters {s t : State} {h : Half} (ht : fill s h = .ok t) :
    t.fadeInRem.toNat =
      s.fadeInRem.toNat - min s.halfFrames ((s.endOff.toNat - s.cur.toNat) / s.elems) ∧
    t.fadeOutRem.toNat = if s.playState = .pausing then
        s.fadeOutRem.toNat - min s.halfFrames ((s.endOff.toNat - s.cur.toNat) / s.elems)
      else s.fadeOutRem.toNat := by
  obtain ⟨u, hd, rfl⟩ := fill_ok ht
  have hvalid := validFrames_eq (endOff := s.endOff.toNat) (cur := s.cur.toNat) (elems_pos s) s.halfFrames 0
  rw [Nat.sub_zero] at hvalid
  rw [← hvalid]
  exact ⟨hd.fadeIn, hd.fadeOut⟩

/-! ### The stages of CHAIN (R200, R141) -/

theorem setChan_alphaDc (s : State) (c : Channel) (ch : ChannelState) :
    (s.setChan c ch).alphaDc = s.alphaDc := by
  cases c <;> rfl

theorem runOnChannel_of_eq {c : Channel} {s : State} {ch : ChannelState} {y : S16}
    {f : ChannelState → S16 × ChannelState} (h : f (s.chan c) = (y, ch)) :
    runOnChannel c s f = { s.setChan c ch with stageOut := [y.toInt] } := by
  rw [runOnChannel, h]
  rfl

/-- A stage on a channel takes the record that the stage before it wrote. -/
theorem runOnChannel_after {c : Channel} {s : State} {ch ch' : ChannelState} {y : S16}
    {f : ChannelState → S16 × ChannelState} (h : f ch = (y, ch')) :
    runOnChannel c (s.setChan c ch) f = { s.setChan c ch' with stageOut := [y.toInt] } := by
  rw [runOnChannel_of_eq ((congrArg f (setChan_chan s c ch)).trans h), setChan_setChan]

/-- A stage that is skipped keeps the sample and the record (R200). -/
theorem setChan_of_skipped {c : Channel} {s : State} {ch : ChannelState} {x y : S16}
    (h : (x, s.chan c) = (y, ch)) : s.setChan c ch = s ∧ y = x := by
  cases h
  exact ⟨setChan_self s c, rfl⟩

/-- The LPF stage at depth 16 is BIQUAD_STEP under its selection. -/
theorem lpfStage_biquad {s : State} {a : U16} (hd : s.depth = 16) (ha : s.alpha16 = some a) (x : S16)
    (ch : ChannelState) : lpfStage s x ch = biquadStep a s.cfg.makeup16 x ch := by
  simp only [lpfStage, if_pos hd, ha]

theorem lpfStage_inactive16 {s : State} (hd : s.depth = 16) (ha : s.alpha16 = none) (x : S16)
    (ch : ChannelState) : lpfStage s x ch = (x, ch) := by
  simp only [lpfStage, if_pos hd, ha]

/-- At any other depth it is LPF1 under its selection. -/
theorem lpfStage_lpf1 {s : State} {a : U16} (hd : s.depth ≠ 16) (ha : s.alpha8 = some a) (x : S16)
    (ch : ChannelState) : lpfStage s x ch = lpf1 a s.cfg.makeup8 x ch := by
  simp only [lpfStage, if_neg hd, ha]

theorem lpfStage_inactive8 {s : State} (hd : s.depth ≠ 16) (ha : s.alpha8 = none) (x : S16)
    (ch : ChannelState) : lpfStage s x ch = (x, ch) := by
  simp only [lpfStage, if_neg hd, ha]

/-- The noise gate under its enable. -/
def gateStage (s : State) (x : S16) : S16 := if s.cfg.gateEn = true then noiseGate x else x

/-- The last stage is the soft clipper under its enable, on what the gate gave. -/
theorem postStages_eq (s : State) (p : Nat) (x : S16) : postStages s p x =
    if s.cfg.clipEn = true then softClip (gateStage s (fadeOutStage s p (fadeIn x s.fadeInRem s.fadeInTot)))
    else gateStage s (fadeOutStage s p (fadeIn x s.fadeInRem s.fadeInTot)) := rfl

theorem exec_chain (c : Channel) (x : S16) (p : Word) (s : State) : exec (.chain c x p) s =
    .next { afterChain s c x p.toNat with stageOut := [(chainSample s c x p.toNat).toInt] } := rfl

theorem toNat_framesLeft {s : State} {p : Nat} (hp : p ≤ s.endOff.toNat) :
    (framesLeft s p).toNat = (s.endOff.toNat - p) / s.elems := by
  have hle : (s.endOff.toNat - p) / s.elems ≤ s.endOff.toNat := (Nat.div_le_self _ _).trans (Nat.sub_le _ _)
  rw [framesLeft, if_pos hp, BitVec.toNat_ofNat, Nat.mod_eq_of_lt (hle.trans_lt s.endOff.isLt)]

/-! ### A run of fill events -/

/-- The half of an event bit (R96). -/
def halfOfBit (b : BitVec 1) : Half := if b = 0 then .first else .second

theorem decode_event (b : BitVec 1) : decode (.event b) = .ok (eventInstr (halfOfBit b)) := by
  unfold halfOfBit
  simp only [decode, decodeEvent]
  split <;> rfl

theorem run_of_step {s t : State} (hstep : step s = .next t) (k : Nat) :
    Host.Core.run Sys2Proof.core (k + 1) s = Host.Core.run Sys2Proof.core k t := by
  have hcore : Sys2Proof.core.step s = .next t := hstep
  simp only [Host.Core.run, hcore]

/-- What holds before each event of an uninterrupted session (R215), with the inputs still to come. -/
structure Uninterrupted (s : State) (rest : List Input) : Prop where
  fillable : Fillable s
  playing : s.playState = .playing
  noStop : s.stopReq = false
  notNotified : s.doneFired = false
  inbox : s.inbox = rest

/-- What one more half of such a session moves (R206) and what it leaves. -/
structure HalfFilled (s u : State) : Prop where
  cur : u.cur.toNat = min (s.cur.toNat + s.stepElems) 4294967295
  stepElems : u.stepElems = s.stepElems
  endOff : u.endOff = s.endOff
  notifications : u.log.count .notify = s.log.count .notify

theorem fill_halfFilled {s u : State} {h : Half} (hu : fill s h = .ok u) : HalfFilled s u := by
  obtain ⟨hcur, hstep, -⟩ := fill_cursor hu
  refine ⟨hcur, hstep, by rw [(fill_form hu).1], ?_⟩
  simp [fill_log hu, List.count_append]

theorem fill_keeps_uninterrupted {s u : State} {h : Half} {rest : List Input} (hu : fill s h = .ok u)
    (hs : Uninterrupted s rest) : Uninterrupted u rest := by
  rw [(fill_form hu).1]
  exact { hs with fillable := { hs.fillable with } }

theorem sessionEnded_notifies {s : State} (hdone : s.doneFired = false) :
    (SessionEnded s).log.count .notify = s.log.count .notify + 1 := by
  simp [SessionEnded, hdone, List.count_append]

/-- One event of an uninterrupted session fills a half, and ends the session at `END`. -/
theorem step_of_uninterrupted {s : State} {b : BitVec 1} {rest : List Input}
    (hs : Uninterrupted s (.port (.event b) :: rest)) :
    ∃ u, Uninterrupted u rest ∧ HalfFilled s u ∧
      step s = .next (if u.endOff.toNat ≤ u.cur.toNat then SessionEnded u else u) := by
  have htaken : Uninterrupted { s with inbox := rest } rest :=
    { hs with fillable := { hs.fillable with }, inbox := rfl }
  obtain ⟨u, hu, hexec⟩ := exec_event_of_filling (halfOfBit b) htaken.fillable (.inl htaken.playing)
  rw [stopSeen_of_no_stop htaken.noStop] at hu
  exact ⟨u, fill_keeps_uninterrupted hu htaken, { fill_halfFilled hu with },
    (step_of_decode_ok hs.inbox (decode_event b)).trans hexec⟩

/-- The session of `s` is `Playing` before its event `n` and over after it, notified once (R215). -/
structure EndsAt (n : Nat) (s : State) : Prop where
  last : ∃ t : State, Host.Core.run Sys2Proof.core n s = .next t ∧ t.playState = .idle ∧
    t.doneFired = true ∧ t.inbox = [] ∧ t.log.count .notify = s.log.count .notify + 1
  before : ∀ k, k < n → ∃ t : State, Host.Core.run Sys2Proof.core k s = .next t ∧
    t.playState = .playing ∧ t.log.count .notify = s.log.count .notify

theorem endsAt_one {s t : State} (hp : s.playState = .playing) (hstep : step s = .next t)
    (hidle : t.playState = .idle) (hdone : t.doneFired = true) (hin : t.inbox = [])
    (hlog : t.log.count .notify = s.log.count .notify + 1) : EndsAt 1 s where
  last := ⟨t, run_of_step hstep 0, hidle, hdone, hin, hlog⟩
  before k hk := by
    obtain rfl := Nat.lt_one_iff.mp hk
    exact ⟨s, rfl, hp, rfl⟩

theorem EndsAt.succ {n : Nat} {s t : State} (ht : EndsAt n t) (hp : s.playState = .playing)
    (hstep : step s = .next t) (hlog : t.log.count .notify = s.log.count .notify) :
    EndsAt (n + 1) s where
  last := by
    rw [run_of_step hstep, ← hlog]
    exact ht.last
  before
    | 0, _ => ⟨s, rfl, hp, rfl⟩
    | k + 1, hk => by
      rw [run_of_step hstep, ← hlog]
      exact ht.before k (Nat.lt_of_succ_lt_succ hk)

/-- R215 from any cursor: the session goes on while the cursor's advances stay below `END`, and ends at the
event that reaches it. -/
theorem endsAt_of_uninterrupted : ∀ (bs : List (BitVec 1)) {b : BitVec 1} {s : State},
    Uninterrupted s ((b :: bs).map (fun h => .port (.event h))) →
    s.endOff.toNat ≤ s.cur.toNat + (bs.length + 1) * s.stepElems →
    (bs = [] ∨ s.cur.toNat + bs.length * s.stepElems < s.endOff.toNat) →
    EndsAt (bs.length + 1) s
  | [], b, s, hs, hreach, _ => by
    obtain ⟨u, hu, hmove, hstep⟩ := step_of_uninterrupted hs
    have hlt := s.endOff.isLt
    have hended : u.endOff.toNat ≤ u.cur.toNat := by
      rw [hmove.endOff, hmove.cur]
      simp only [List.length_nil, Nat.zero_add, Nat.one_mul] at hreach
      omega
    rw [if_pos hended] at hstep
    exact endsAt_one hs.playing hstep rfl rfl hu.inbox
      ((sessionEnded_notifies hu.notNotified).trans (congrArg (· + 1) hmove.notifications))
  | b' :: bs, b, s, hs, hreach, hlast => by
    obtain ⟨u, hu, hmove, hstep⟩ := step_of_uninterrupted hs
    have hbelow : s.cur.toNat + (bs.length + 1) * s.stepElems < s.endOff.toNat := by
      simpa using hlast
    have hsucc : (bs.length + 1) * s.stepElems = bs.length * s.stepElems + s.stepElems := Nat.succ_mul _ _
    have hlt := s.endOff.isLt
    have hcur : u.cur.toNat = s.cur.toNat + s.stepElems := by
      rw [hmove.cur]
      omega
    have hgoes : ¬u.endOff.toNat ≤ u.cur.toNat := by
      rw [hmove.endOff, hcur]
      omega
    rw [if_neg hgoes] at hstep
    refine (endsAt_of_uninterrupted bs hu ?_ ?_).succ hs.playing hstep hmove.notifications
    · rw [hmove.endOff, hmove.stepElems, hcur]
      rw [List.length_cons, Nat.succ_mul] at hreach
      omega
    · rw [hmove.endOff, hmove.stepElems, hcur]
      exact .inr (by omega)

/-- R215's event number is the first whose advances reach `END` from the cursor `2·STEP`. -/
theorem event_count_reaches {e d n : Nat} (hd : 0 < d) (hn : n + 1 = max 1 ((e + d - 1) / d - 2)) :
    e ≤ 2 * d + (n + 1) * d ∧ (n = 0 ∨ 2 * d + n * d < e) := by
  have hunder : (e + d - 1) / d * d ≤ e + d - 1 := Nat.div_mul_le_self _ _
  have hover : e + d - 1 < (e + d - 1) / d * d + d := Nat.lt_div_mul_add hd
  generalize (e + d - 1) / d = q at hn hunder hover
  rcases Nat.le_total q 3 with hq | hq
  · have hsmall : q * d ≤ 3 * d := Nat.mul_le_mul_right d hq
    obtain rfl : n = 0 := by omega
    omega
  · obtain rfl : q = n + 3 := by omega
    have hsplit : (n + 3) * d = n * d + 3 * d := Nat.add_mul n 3 d
    have hsucc : (n + 1) * d = n * d + d := Nat.succ_mul n d
    omega

/-! ### The obligations -/

/-- Settles O34, by induction over the events that are left (`endsAt_of_uninterrupted`). -/
theorem naturalEndEventCount : Obligations.NaturalEndEventCount := by
  intro s hs hfill hp hstop hdone hstep hcur _ hin hlen
  obtain _ | ⟨b, bs⟩ := hs
  · exact absurd hlen (Nat.ne_of_lt (Nat.lt_of_lt_of_le Nat.zero_lt_one (Nat.le_max_left _ _)))
  · obtain ⟨hreach, hlast⟩ := event_count_reaches hstep hlen
    rw [← hcur] at hreach hlast
    have hends := endsAt_of_uninterrupted bs ⟨hfill, hp, hstop, hdone, hin⟩ hreach
      (hlast.imp_left List.length_eq_zero_iff.mp)
    exact ⟨hends.last, hends.before⟩

/-- Settles O36: each stage takes the sample and the record the stage before it gave. -/
theorem chainRunsStages : Obligations.ChainRunsStages := by
  intro s c x p hp
  rcases h1 : lpfStage s x (s.chan c) with ⟨y1, ch1⟩
  rcases h2 : dcBlock s.alphaDc y1 ch1 with ⟨y2, ch2⟩
  rcases h3 : airStage s y2 ch2 with ⟨y3, ch3⟩
  have hchain : chainOn s x p.toNat (s.chan c) = (postStages s p.toNat y3, ch3) := by
    simp only [chainOn, h1, h2, h3]
  refine ⟨s.setChan c ch1, s.setChan c ch2, s.setChan c ch3, y1, y2, y3, fadeIn y3 s.fadeInRem s.fadeInTot,
    fadeOutStage s p.toNat (fadeIn y3 s.fadeInRem s.fadeInTot),
    gateStage s (fadeOutStage s p.toNat (fadeIn y3 s.fadeInRem s.fadeInTot)), postStages s p.toNat y3,
    framesLeft s p.toNat, ?lpf, ?dc, ?air, exec_fadeIn _ _ _ _, toNat_framesLeft hp, ?fadeOut, ?gate, ?clip,
    ?chain, ?sample, ?after, ch3, ?record⟩
  case lpf =>
    split
    · next hd =>
      cases ha : s.alpha16 with
      | none => exact setChan_of_skipped ((lpfStage_inactive16 hd ha _ _).symm.trans h1)
      | some a =>
        exact congrArg Host.Outcome.next (runOnChannel_of_eq ((lpfStage_biquad hd ha _ _).symm.trans h1))
    · next hd =>
      cases ha : s.alpha8 with
      | none => exact setChan_of_skipped ((lpfStage_inactive8 hd ha _ _).symm.trans h1)
      | some a =>
        exact congrArg Host.Outcome.next (runOnChannel_of_eq ((lpfStage_lpf1 hd ha _ _).symm.trans h1))
  case dc =>
    rw [exec_dcBlock, setChan_alphaDc, runOnChannel_after h2]
  case air =>
    rw [airStage] at h3
    split
    · next hair =>
      rw [if_pos hair] at h3
      rw [exec_airShelf, runOnChannel_after h3]
    · next hair =>
      rw [if_neg hair] at h3
      cases h3
      exact ⟨rfl, rfl⟩
  case fadeOut =>
    rw [fadeOutStage]
    split
    · exact exec_fadeOutPause _ _ _ _
    · exact exec_fadeOutEnd _ _ _ _
  case gate =>
    rw [gateStage]
    split
    · exact exec_noiseGate _ _
    · rfl
  case clip =>
    rw [postStages_eq]
    split
    · exact exec_softClip _ _
    · rfl
  case chain =>
    rw [exec_chain, afterChain, chainSample, hchain]
  case sample => rw [chainSample, hchain]
  case after => rw [afterChain, hchain]
  case record => cases c <;> rfl

/-- Settles O32, from the passes of R202's loop. -/
theorem fillRunsFrames : Obligations.FillRunsFrames := by
  intro s h hs
  refine ⟨fun v rest hv => by simp only [State.volumeAnswer, hv], ?_⟩
  have hread : Fillable s.afterVolumeRead := { hs with }
  obtain ⟨u, hu⟩ := fillFrames_completes h (volCurve s.params s.volumeAnswer) s.halfFrames 0 hread
  obtain ⟨f, hfirst, hlast, hpass⟩ := frames_seq hu
  rw [Nat.zero_add] at hlast
  subst hlast
  have hfill := fill_of_frames hu
  exact ⟨f, _, _, _, exec_volCurve _ s, hfirst, fun k hk => hpass k (Nat.zero_le k) (by rwa [Nat.zero_add]),
    toNat_sat32 _, rfl, hfill, exec_fill_of_ok hfill⟩

/-- Settles O31, from what an event that fills does, with the new `END` that a stop gives. -/
theorem eventFillsHalf : Obligations.EventFillsHalf := by
  intro s h hs hp
  obtain ⟨u, hu, hexec⟩ := exec_event_of_filling h hs hp
  rw [stopSeen_eq] at hu
  exact ⟨_, u, toNat_stopSeen_endOff s, hu, hexec⟩

/-- Settles O30, from what an event does in `Pausing` at its last half and in `Paused`. -/
theorem eventsAroundPause : Obligations.EventsAroundPause := by
  intro s h hlen hdiv
  refine ⟨_, silence_silenced s h hlen hdiv, fun hp hrem => ?_, fun hp hstop => ?_, fun hp hstop => ?_⟩
  · rw [exec_eventInstr, fillEvent_of_pause_over h hp hrem, State.completePause, silence_eq s h hlen hdiv]
    rfl
  · rw [exec_eventInstr, fillEvent_of_paused h hp, if_neg (by simp [hstop]), silence_eq s h hlen hdiv]
    rfl
  · rw [exec_eventInstr, fillEvent_of_paused h hp, if_pos hstop, silence_eq s h hlen hdiv]
    rfl

/-- Settles O33, from the closed form of FILL and what its frames can do (`fillFrame` is the model's). -/
theorem fill_frame : Obligations.FillFrame := by
  intro s t h hlen hdiv ht hb c v
  obtain ⟨hform, hlength, -⟩ := fill_form ht
  have hcur : t.cur = sat32 (s.cur.toNat + s.stepElems) := congrArg State.cur hform
  rw [fill_log ht, ← hcur] at hform
  obtain ⟨hin, hout⟩ := fill_counters ht
  refine ⟨hform, (fill_cursor ht).1, hlength, fun i => fill_keeps_other_slots ht, fun k hv hk => ?_, hin,
    hout, fill_mono_chR ht, fun hc hsrc k => fill_mono_slots ht hlen hdiv hc hsrc, fill_lcg ht⟩
  exact fill_silences_past_end ht hlen hdiv hk ((min_le_iff.mp hv).resolve_left (Nat.not_le.mpr hk))

/-- Settles O27, from SILENCE_HALF in closed form. -/
theorem silenceHalfZeroesSlots : Obligations.SilenceHalfZeroesSlots := by
  intro s h hlen hdiv hb
  have hs := silence_silenced s h hlen hdiv
  have hhalf : s.halfFrames = hb := rfl
  refine ⟨_, hs, rfl, rfl, ?_, ?_, ?_⟩
  · rintro rfl
    have hstart : 2 * halfIndex .first * s.halfFrames = 0 := Nat.zero_mul _
    exact ⟨fun i hi => hs.inside i (by omega) (by omega), fun i hi => hs.outside i (by omega)⟩
  · rintro rfl
    have hstart : 2 * halfIndex .second * s.halfFrames = 2 * s.halfFrames := rfl
    exact ⟨fun i hlo hhi => hs.inside i (by omega) (by omega), fun i hi => hs.outside i (by omega)⟩
  · rw [exec_silenceHalf, silence_eq s h hlen hdiv]
    rfl

/-- Settles O28, from END_SESSION in closed form. -/
theorem endSessionClears : Obligations.EndSessionClears := fun s => exec_endSession s

/-- Settles O29: outside a session the event is SILENCE_HALF. -/
theorem eventOutsideSession : Obligations.EventOutsideSession := by
  intro s h hlen hdiv hp
  refine ⟨_, silence_silenced s h hlen hdiv, ?_⟩
  rw [exec_eventInstr, fillEvent_of_noSession h hp, silence_eq s h hlen hdiv]
  rfl

end Sys2Proof.Machine
end

section
/-! SUPPORT. The layer of the control commands' family (45_control_commands.md): PLAY's refusal, its faults
and its body, the level PAUSE starts from, what each instruction does to STATE, and the configuration
words. -/

namespace Sys2Proof.Machine

/-! ### PLAY's refusal and its two faults (R231, R275) -/

theorem exec_play_of_refused {s : State} (h : ¬PlayAccepted s) :
    exec .play s = .next { s with r0 := 4, status := 3 } :=
  if_neg (mt (playValid_iff s).mp h)

theorem exec_play_of_accepted {s : State} (h : PlayAccepted s) : exec .play s =
    if s.a3 = 16 ∧ s.a0.toNat % 2 = 1 then .fault (.misalignedSource s.a0)
    else if 4294967296 < playRegionEnd s then .fault (.sourceRange s.a0.toNat)
    else outcomeOf (playBody s) :=
  if_pos ((playValid_iff s).mpr h)

/-- Settles O16: each clause is the first of PLAY's tests that decides. -/
theorem playValidationAndFaults : Obligations.PlayValidationAndFaults := by
  intro s
  refine ⟨exec_play_of_refused, fun h h16 hodd => ?_, fun h hal hfar => ⟨s.a0.toNat, ?_⟩⟩
  · rw [exec_play_of_accepted h, if_pos ⟨h16, hodd⟩]
  · rw [exec_play_of_accepted h, if_neg hal]
    exact if_pos hfar

/-! ### The session PLAY opens (R232) -/

/-- The state in which PLAY warms up: the session registers, the rate and the fades are written. -/
def State.opened (s : State) : State := s.openSession.takeRate.startFades

theorem takeRate_eq (s : State) : s.takeRate = { s with
    sampleRate := s.a2
    log := if s.a2 = s.sampleRate then s.log else s.log ++ [.transportInit] } := by
  unfold State.takeRate
  split
  · next hrate => exact congrArg (fun r => ({ s with sampleRate := r } : State)) hrate.symm
  · rfl

theorem opened_eq (s : State) : s.opened = { s with
    stopReq := false, doneFired := false, sourceChanged := false, src := s.a0, endOff := s.a1
    srcLen := s.a1, cur := 0, pausePos := 0, depth := s.a3.setWidth 8, mode := s.a4.setWidth 8
    chL := ChannelState.zero, chR := ChannelState.zero, sampleRate := s.a2
    log := if s.a2 = s.sampleRate then s.log else s.log ++ [.transportInit]
    fadeSmp := fadeCounts s.fadeSec s.a2, fadeInTot := (fadeCounts s.fadeSec s.a2).playIn
    fadeInRem := (fadeCounts s.fadeSec s.a2).playIn, fadeOutRem := 0, fadeOutTot := 0 } := by
  rw [State.opened, takeRate_eq]
  rfl

/-- A depth PLAY accepts is kept whole in the 8-bit register. -/
theorem opened_depth {s : State} (h : PlayAccepted s) :
    (s.a3 = 8 ∧ s.opened.depth = 8) ∨ (s.a3 = 16 ∧ s.opened.depth = 16) := by
  obtain ⟨-, -, -, hd, -⟩ := h
  rw [opened_eq]
  exact hd.imp (fun hd => ⟨hd, by rw [hd]; rfl⟩) (fun hd => ⟨hd, by rw [hd]; rfl⟩)

theorem opened_elems {s : State} (h : PlayAccepted s) :
    (s.a4 = 1 ∧ s.opened.elems = 1) ∨ (s.a4 = 2 ∧ s.opened.elems = 2) := by
  obtain ⟨-, -, -, -, hm, -⟩ := h
  rw [opened_eq]
  exact hm.imp (fun hm => ⟨hm, by simp [State.elems, hm]⟩) (fun hm => ⟨hm, by simp [State.elems, hm]⟩)

/-- The admitted region is the one PLAY's operands name (R69). -/
theorem opened_regionBytes {s : State} (h : PlayAccepted s) :
    s.opened.regionBytes = s.a1.toNat * (s.a3.toNat / 8) := by
  have hlen : s.opened.srcLen = s.a1 := by rw [opened_eq]
  rcases opened_depth h with ⟨ha, hd⟩ | ⟨ha, hd⟩ <;> rw [State.regionBytes, hlen, ha, hd] <;> rfl

theorem opened_fillable {s : State} (h : PlayAccepted s)
    (hmem : ∀ a : Nat, s.a0.toNat ≤ a → a < s.a0.toNat + s.a1.toNat * (s.a3.toNat / 8) →
      ∃ b, memRead s.mem a = some b) : Fillable s.opened where
  depth := (opened_depth h).imp And.right And.right
  endWithin := by rw [opened_eq]
  ready := by
    have hsrc : s.opened.src = s.a0 := by rw [opened_eq]
    have hbytes : s.opened.mem = s.mem := by rw [opened_eq]
    rw [SourceReady, opened_regionBytes h, hsrc, hbytes]
    exact hmem

/-- The warm-up runs at depth 16 on a source of at least one frame. -/
theorem opened_warms_iff {s : State} (h : PlayAccepted s) :
    (s.opened.depth = 16 ∧ s.opened.elems ≤ s.opened.endOff.toNat) ↔
      (s.a3 = 16 ∧ s.a4.toNat ≤ s.a1.toNat) := by
  have hend : s.opened.endOff = s.a1 := by rw [opened_eq]
  have hdepth : s.opened.depth = 16 ↔ s.a3 = 16 := by
    rcases opened_depth h with ⟨ha, hd⟩ | ⟨ha, hd⟩ <;> rw [ha, hd] <;> decide
  have helems : s.opened.elems = s.a4.toNat := by
    rcases opened_elems h with ⟨ha, he⟩ | ⟨ha, he⟩ <;> rw [ha, he] <;> rfl
  rw [hend, hdepth, helems]

/-! ### The warm-up -/

theorem warmup_of_skipped {s : State} (h : ¬(s.depth = 16 ∧ s.elems ≤ s.endOff.toNat)) :
    warmup s = .ok s :=
  if_neg h

theorem warmup_of_inactive {s : State} (h : s.alpha16 = none) : warmup s = .ok s := by
  simp only [warmup, h, ite_self]

/-- With the LPF active each channel is warmed up on its first sample: in mono the left one twice. -/
theorem warmup_of_active {s : State} {alpha : U16} (hs : Fillable s) (hd : s.depth = 16)
    (hlen : s.elems ≤ s.endOff.toNat) (ha : s.alpha16 = some alpha) :
    ∃ xl xr, readElement s 0 = .ok (xl, s) ∧
      (if s.elems = 2 then readElement s 1 = .ok (xr, s) else xr = xl) ∧
      warmup s = .ok { s with chL := biquadWarmup alpha s.cfg.makeup16 xl s.chL
                              chR := biquadWarmup alpha s.cfg.makeup16 xr s.chR } := by
  have read : ∀ p, p < s.elems → ∃ x, readElement s p = .ok (x, s) := fun p hp => by
    obtain ⟨x, s1, hx⟩ :=
      readElement_completes hs.depth hs.ready ((hp.trans_le hlen).trans_le hs.endWithin)
    obtain rfl := (readElement_ok hx).2 hd
    exact ⟨x, hx⟩
  obtain ⟨xl, hxl⟩ := read 0 (elems_pos s)
  rcases elems_cases s with he | he
  · refine ⟨xl, xl, hxl, by simp [he], ?_⟩
    rw [warmup, if_pos ⟨hd, hlen⟩]
    simp [ha, hxl, he]
  · obtain ⟨xr, hxr⟩ := read 1 (by omega)
    refine ⟨xl, xr, hxl, by simp [he, hxr], ?_⟩
    rw [warmup, if_pos ⟨hd, hlen⟩]
    simp [ha, hxl, he, hxr]

theorem warmup_completes {s : State} (hs : Fillable s) : ∃ t, warmup s = .ok t := by
  by_cases h : s.depth = 16 ∧ s.elems ≤ s.endOff.toNat
  · cases ha : s.alpha16 with
    | none => exact ⟨s, warmup_of_inactive ha⟩
    | some alpha =>
      obtain ⟨xl, xr, -, -, hw⟩ := warmup_of_active hs h.1 h.2 ha
      exact ⟨_, hw⟩
  · exact ⟨s, warmup_of_skipped h⟩

theorem warmup_keeps_fillable {s t : State} (ht : warmup s = .ok t) (hs : Fillable s) : Fillable t := by
  rw [warmup_form ht]
  exact { hs with }

theorem fill_keeps_fillable {s t : State} {h : Half} (ht : fill s h = .ok t) (hs : Fillable s) :
    Fillable t := by
  rw [(fill_form ht).1]
  exact { hs with }

/-! ### PLAY's body and the transport's answer -/

theorem exec_play_of_body {s s1 s2 s3 : State} (h : PlayAccepted s)
    (hal : ¬(s.a3 = 16 ∧ s.a0.toNat % 2 = 1)) (hr : playRegionEnd s ≤ 4294967296)
    (hw : warmup s.opened = .ok s1) (h1 : fill s1 .first = .ok s2) (h2 : fill s2 .second = .ok s3) :
    exec .play s = .next s3.startTransport := by
  have hbody : playBody s = .ok s3.startTransport := by
    rw [State.opened] at hw
    simp only [playBody, hw, h1, h2]
  rw [exec_play_of_accepted h, if_neg hal, if_neg (Nat.not_lt.mpr hr), hbody]
  rfl

/-- What the transport's start reads (R285): the buffer's length, and the answers to come. -/
def State.startInputs (s : State) : Nat × List Bool × Nat := (s.params.bufLen, s.startAnswers, s.startDraws)

theorem startAnswer_of_startInputs {s t : State} (h : t.startInputs = s.startInputs) :
    t.startAnswer = s.startAnswer := by
  simp only [State.startInputs, Prod.mk.injEq] at h
  obtain ⟨-, hlist, hdraws⟩ := h
  rw [State.startAnswer, State.startAnswer, hlist, hdraws]

theorem fill_startInputs {s t : State} {h : Half} (ht : fill s h = .ok t) :
    t.startInputs = s.startInputs := by
  rw [(fill_form ht).1]; rfl

theorem warmup_startInputs {s t : State} (ht : warmup s = .ok t) : t.startInputs = s.startInputs := by
  rw [warmup_form ht]; rfl

theorem opened_startInputs (s : State) : s.opened.startInputs = s.startInputs := by
  rw [opened_eq]; rfl

/-- Nothing before its start draws an answer of the transport. -/
theorem body_startInputs {s s1 s2 s3 : State} (hw : warmup s.opened = .ok s1)
    (h1 : fill s1 .first = .ok s2) (h2 : fill s2 .second = .ok s3) : s3.startInputs = s.startInputs :=
  calc s3.startInputs
      = s2.startInputs := fill_startInputs h2
    _ = s1.startInputs := fill_startInputs h1
    _ = s.opened.startInputs := warmup_startInputs hw
    _ = s.startInputs := opened_startInputs s

theorem startTransport_of_startInputs {s t : State} (h : t.startInputs = s.startInputs) :
    t.startTransport =
      if s.startAnswer = true then
        { t with playState := .playing, r0 := 1, status := 0, startAnswers := s.startAnswers.tail
                 startDraws := s.startDraws + 1
                 log := t.log ++ [.amp true, .transportStart s.params.bufLen true] }
      else
        { t with playState := .playingFailed, r0 := 5, status := 4, startAnswers := s.startAnswers.tail
                 startDraws := s.startDraws + 1
                 log := t.log ++ [.amp true, .transportStart s.params.bufLen false, .amp false] } := by
  have hanswer := startAnswer_of_startInputs h
  simp only [State.startInputs, Prod.mk.injEq] at h
  obtain ⟨hbuf, hlist, hdraws⟩ := h
  rw [startTransport_form, hanswer, hbuf, hlist, hdraws]

theorem toNat_fadeGet_fadeCounts (sec : FadeTable) (rate : Word) (w : FadeWindow) :
    (fadeGet (fadeCounts sec rate) w).toNat =
      min ((fadeGet sec w).toNat * rate.toNat / 65536) 2147483647 := by
  cases w <;> exact toNat_secToSamples _ _

/-- Settles O17: on a source the memory holds, the warm-up and both FILLs complete, and the transport's
answer is the one of `s` (`playBody` is the model's). -/
theorem play_body : Obligations.PlayBody := by
  intro s h hal hr hmem
  have hs := opened_fillable h hmem
  obtain ⟨s1, hw⟩ := warmup_completes hs
  have hs1 := warmup_keeps_fillable hw hs
  obtain ⟨s2, h1⟩ := fill_completes hs1 .first
  obtain ⟨s3, h2⟩ := fill_completes (fill_keeps_fillable h1 hs1) .second
  refine ⟨fun b rest hlist => by simp only [State.startAnswer, hlist],
    fadeCounts s.fadeSec s.a2, s.opened, s1, s2, s3, toNat_fadeGet_fadeCounts _ _, opened_eq s, ?warm, h1, h2,
    ?play⟩
  case warm =>
    have halpha : s.opened.alpha16 = s.alpha16 := by rw [opened_eq]; rfl
    have hmakeup : s.opened.cfg.makeup16 = s.cfg.makeup16 := by rw [opened_eq]
    split
    · next hwarm =>
      cases ha : s.alpha16 with
      | none =>
        rw [warmup_of_inactive (halpha.trans ha)] at hw
        exact (Except.ok.inj hw).symm
      | some alpha =>
        obtain ⟨hd, hlen⟩ := (opened_warms_iff h).mpr hwarm
        obtain ⟨xl, xr, hxl, hxr, hact⟩ := warmup_of_active hs hd hlen (halpha.trans ha)
        have hstereo : s.opened.elems = 2 ↔ s.a4 = 2 := by
          rcases opened_elems h with ⟨ha4, he⟩ | ⟨ha4, he⟩ <;> rw [ha4, he] <;> decide
        simp only [hstereo] at hxr
        rw [hact, hmakeup] at hw
        exact ⟨xl, xr, hxl, hxr, (Except.ok.inj hw).symm⟩
    · next hwarm =>
      rw [warmup_of_skipped (mt (opened_warms_iff h).mp hwarm)] at hw
      exact (Except.ok.inj hw).symm
  case play =>
    rw [exec_play_of_body h hal hr hw h1 h2, startTransport_of_startInputs (body_startInputs hw h1 h2)]

/-! ### PAUSE, RESUME, STOP and the getters of STATE (R233 to R237) -/

theorem exec_pause_of_playing {s : State} (hp : s.playState = .playing) : exec .pause s =
    .next { s with fadeOutRem := pauseLevel s, fadeOutTot := s.fadeSmp.pauseOut, fadeInRem := 0
                   playState := .pausing, r0 := 2, status := 0 } :=
  if_pos hp

theorem exec_pause_of_not_playing {s : State} (hp : s.playState ≠ .playing) :
    exec .pause s = .next { s with r0 := stateCode s.playState, status := 0 } :=
  if_neg hp

theorem exec_resume_of_paused {s : State} (hp : s.playState = .paused) : exec .resume s =
    .next { s with cur := s.pausePos, fadeOutRem := 0, fadeOutTot := 0, fadeInTot := s.fadeSmp.resumeIn
                   fadeInRem := s.fadeSmp.resumeIn, playState := .playing, r0 := 1, status := 0 } :=
  if_pos hp

theorem exec_resume_of_not_paused {s : State} (hp : s.playState ≠ .paused) :
    exec .resume s = .next { s with r0 := stateCode s.playState, status := 0 } :=
  if_neg hp

theorem toNat_eq_zero_iff {n : Nat} {x : BitVec n} : x.toNat = 0 ↔ x = 0 := by
  rw [BitVec.toNat_eq]
  simp

/-- The word that holds a part of a word holds it exactly. -/
theorem toNat_ofNat_of_le {n : Nat} {w : Word} (h : n ≤ w.toNat) : (BitVec.ofNat 32 n).toNat = n := by
  rw [BitVec.toNat_ofNat, Nat.mod_eq_of_lt (h.trans_lt w.isLt)]

/-- R233's level, exact: a ramp at most as far as its length is at most the pause window. -/
theorem toNat_pauseLevel {s : State} (hs : s.fadeInRem.toNat ≤ s.fadeInTot.toNat) :
    (pauseLevel s).toNat =
      if 0 < s.fadeInRem.toNat then
        (s.fadeInTot.toNat - s.fadeInRem.toNat) * s.fadeSmp.pauseOut.toNat / s.fadeInTot.toNat
      else if 0 < s.fadeSmp.playOut.toNat ∧ framesToEnd s ≤ s.fadeSmp.playOut.toNat then
        framesToEnd s * s.fadeSmp.pauseOut.toNat / s.fadeSmp.playOut.toNat
      else s.fadeSmp.pauseOut.toNat := by
  have hpos : ∀ w : Word, 0 < w.toNat ↔ w ≠ 0 := fun w =>
    Nat.pos_iff_ne_zero.trans (not_congr toNat_eq_zero_iff)
  simp only [hpos, pauseLevel]
  split
  · rw [if_neg (Nat.not_lt.mpr hs)]
    exact toNat_ofNat_of_le (mul_div_le_of_le (Nat.sub_le _ _))
  · split
    · next hend => exact toNat_ofNat_of_le (mul_div_le_of_le hend.2)
    · rfl

/-- Settles O18: the level PAUSE writes is R233's. -/
theorem pauseStartsRamp : Obligations.PauseStartsRamp :=
  fun s => ⟨exec_pause_of_not_playing, fun hp hrem =>
    ⟨pauseLevel s, toNat_pauseLevel hrem, exec_pause_of_playing hp⟩⟩

/-- Settles O19, from what RESUME does in `Paused` and elsewhere. -/
theorem resumeRestores : Obligations.ResumeRestores :=
  fun _ => ⟨exec_resume_of_not_paused, exec_resume_of_paused⟩

/-- Settles O20: the three commands report the code of STATE or the rate. -/
theorem stopAndStateGetters : Obligations.StopAndStateGetters := by
  intro s code
  have hcode : stateCode s.playState = code := by
    cases hp : s.playState <;> simp only [code, hp] <;> rfl
  rw [← hcode]
  exact ⟨rfl, rfl, rfl, rfl⟩

/-! ### STATE after each instruction (R248) -/

theorem play_playState {s t : State} (ht : exec .play s = .next t) (h : PlayAccepted s) :
    t.playState = if s.startAnswer = true then .playing else .playingFailed := by
  rcases play_form ht with ⟨hv, -⟩ | ⟨-, -, -, s1, s2, s3, hw, h1, h2, rfl⟩
  · exact absurd ((playValid_iff s).mpr h) hv
  · rw [startTransport_of_startInputs (body_startInputs hw h1 h2)]
    split <;> rfl

theorem pause_playState {s t : State} (ht : exec .pause s = .next t) :
    t.playState = if s.playState = .playing then .pausing else s.playState := by
  split
  · next hp =>
    rw [exec_pause_of_playing hp] at ht
    cases ht; rfl
  · next hp =>
    rw [exec_pause_of_not_playing hp] at ht
    cases ht; rfl

theorem resume_playState {s t : State} (ht : exec .resume s = .next t) :
    t.playState = if s.playState = .paused then .playing else s.playState := by
  split
  · next hp =>
    rw [exec_resume_of_paused hp] at ht
    cases ht; rfl
  · next hp =>
    rw [exec_resume_of_not_paused hp] at ht
    cases ht; rfl

theorem fillThenEnd_playState {s t : State} {h : Half} (ht : fillThenEnd s h = .ok t) :
    t.playState =
      if s.endOff.toNat ≤ min (s.cur.toNat + s.stepElems) 4294967295 then .idle else s.playState := by
  cases hu : fill s h with
  | error f => simp only [fillThenEnd, hu] at ht; cases ht
  | ok u =>
    obtain ⟨hcur, -, hstate⟩ := fill_cursor hu
    have hend : u.endOff = s.endOff := by rw [(fill_form hu).1]
    rw [fillThenEnd_of_fill hu] at ht
    cases ht
    rw [← hcur, ← hend]
    split
    · rfl
    · exact hstate

/-- Where an event fills, it leaves STATE or ends the session, as the cursor's advance and the `END` of
R208 decide. -/
theorem event_playState_of_filling {s t : State} {h : Half} (ht : fillEvent s h = .ok t)
    (hp : s.playState = .playing ∨ s.playState = .pausing ∧ s.halfFrames < s.fadeOutRem.toNat) :
    t.playState =
      if (if s.playState = .playing ∧ s.stopReq = true then
          min s.endOff.toNat (min (s.cur.toNat + s.fadeSmp.playOut.toNat * s.elems) 4294967295)
        else s.endOff.toNat) ≤ min (s.cur.toNat + s.stepElems) 4294967295
      then .idle else s.playState := by
  have hkept : s.stopSeen.cur = s.cur ∧ s.stopSeen.stepElems = s.stepElems ∧
      s.stopSeen.playState = s.playState := by
    rw [stopSeen_eq]
    exact ⟨rfl, rfl, rfl⟩
  obtain ⟨hcur, hstep, hstate⟩ := hkept
  rw [fillEvent_of_filling h hp] at ht
  rw [fillThenEnd_playState ht, toNat_stopSeen_endOff, hcur, hstep, hstate]

theorem event_playState_of_noSession {s t : State} {h : Half} (ht : fillEvent s h = .ok t)
    (hp : s.playState = .idle ∨ s.playState = .error ∨ s.playState = .playingFailed) :
    t.playState = s.playState := by
  rw [fillEvent_of_noSession h hp] at ht
  cases ht; rfl

theorem event_playState_of_paused {s t : State} {h : Half} (ht : fillEvent s h = .ok t)
    (hp : s.playState = .paused) : t.playState = if s.stopReq = true then .idle else .paused := by
  rw [fillEvent_of_paused h hp] at ht
  cases ht
  split
  · rfl
  · exact hp

theorem event_playState_of_pausing {s t : State} {h : Half} (ht : fillEvent s h = .ok t)
    (hp : s.playState = .pausing) :
    t.playState =
      if s.fadeOutRem.toNat ≤ s.halfFrames then .paused
      else if s.endOff.toNat ≤ min (s.cur.toNat + s.stepElems) 4294967295 then .idle else .pausing := by
  split
  · next hrem =>
    rw [fillEvent_of_pause_over h hp hrem] at ht
    cases ht; rfl
  · next hrem =>
    rw [event_playState_of_filling ht (.inr ⟨hp, Nat.not_le.mp hrem⟩), hp]
    simp

theorem event_playState_of_playing {s t : State} {h : Half} (ht : fillEvent s h = .ok t)
    (hp : s.playState = .playing) :
    t.playState =
      if (if s.stopReq = true then
          min s.endOff.toNat (min (s.cur.toNat + s.fadeSmp.playOut.toNat * s.elems) 4294967295)
        else s.endOff.toNat) ≤ min (s.cur.toNat + s.stepElems) 4294967295
      then .idle else .playing := by
  rw [event_playState_of_filling ht (.inl hp), hp]
  simp only [true_and]

/-- An event changes STATE in a session only, to `Idle` or `Paused`. -/
theorem event_playState_change {s t : State} {h : Half} (ht : fillEvent s h = .ok t) :
    t.playState = s.playState ∨
      noSession s.playState = false ∧ (t.playState = .idle ∨ t.playState = .paused) := by
  cases hp : s.playState with
  | idle => exact .inl ((event_playState_of_noSession ht (.inl hp)).trans hp)
  | error => exact .inl ((event_playState_of_noSession ht (.inr (.inl hp))).trans hp)
  | playingFailed => exact .inl ((event_playState_of_noSession ht (.inr (.inr hp))).trans hp)
  | paused =>
    rw [event_playState_of_paused ht hp]
    exact (ite_eq_or_eq _ _ _).symm.imp_right fun hidle => ⟨rfl, .inl hidle⟩
  | pausing =>
    rw [event_playState_of_pausing ht hp]
    split
    · exact .inr ⟨rfl, .inr rfl⟩
    · exact (ite_eq_or_eq _ _ _).symm.imp_right fun hidle => ⟨rfl, .inl hidle⟩
  | playing =>
    rw [event_playState_of_playing ht hp]
    exact (ite_eq_or_eq _ _ _).symm.imp_right fun hidle => ⟨rfl, .inl hidle⟩

/-- A command changes STATE to no `Error`, and from `PlayingFailed` only PLAY does. -/
theorem command_playState_change {i : Instr} {s t : State} (ht : CommandEffect s i t) :
    t.playState = s.playState ∨
      t.playState ≠ .error ∧ (s.playState = .playingFailed → i = .play) := by
  cases ht with
  | @play s1 s2 s3 =>
    refine .inr ⟨?_, fun _ => rfl⟩
    rw [startTransport_form]
    split <;> nofun
  | pause hp => exact .inr ⟨nofun, fun hf => nomatch hp.symm.trans hf⟩
  | resume hp => exact .inr ⟨nofun, fun hf => nomatch hp.symm.trans hf⟩
  | _ => exact .inl rfl

theorem run_playState_change {i : Instr} {s t : State} (hi : isRunInstr i = true)
    (ht : exec i s = .next t) :
    t.playState = s.playState ∨
      t.playState ≠ .error ∧ (s.playState = .playingFailed → i = .play) := by
  rcases run_cases hi ht with ⟨h, -, he⟩ | ⟨-, hc⟩
  · refine (event_playState_change he).imp_right fun ⟨hsession, hto⟩ => ⟨fun herr => ?_, fun hf => ?_⟩
    · rw [herr] at hto
      exact hto.elim nofun nofun
    · rw [hf] at hsession
      exact nomatch hsession
  · exact command_playState_change hc

/-- Settles O14: each row of R248 from STATE after its instruction, and the last two clauses from what a
change of STATE can be. -/
theorem stateTransitions : Obligations.StateTransitions := by
  intro i s t hi ht hb c
  refine ⟨?accepted, ?refused, ?pause, ?resume, ?event, ?other, fun herr => ?error, fun hf hne => ?failed⟩
  case accepted => rintro rfl h; exact play_playState ht h
  case refused =>
    rintro rfl h
    rw [exec_play_of_refused h] at ht
    cases ht
    exact ⟨rfl, rfl⟩
  case pause => rintro rfl; exact pause_playState ht
  case resume => rintro rfl; exact resume_playState ht
  case event =>
    intro he
    obtain ⟨h, hev⟩ : ∃ h, fillEvent s h = .ok t := by
      rcases he with rfl | rfl
      · exact ⟨.first, evFill0_next ht⟩
      · exact ⟨.second, evFill1_next ht⟩
    cases hp : s.playState with
    | idle => exact (event_playState_of_noSession hev (.inl hp)).trans hp
    | error => exact (event_playState_of_noSession hev (.inr (.inl hp))).trans hp
    | playingFailed => exact (event_playState_of_noSession hev (.inr (.inr hp))).trans hp
    | paused => exact event_playState_of_paused hev hp
    | pausing => exact event_playState_of_pausing hev hp
    | playing => exact event_playState_of_playing hev hp
  case other =>
    intro hplay hpause hresume h0 h1
    rcases run_cases hi ht with ⟨h, rfl, -⟩ | ⟨-, hc⟩
    · cases h with
      | first => exact absurd rfl h0
      | second => exact absurd rfl h1
    · obtain ⟨-, -, -, -, hstate⟩ :=
        command_keeps_fades hc hplay (fun h => hresume h.1) (fun h => hpause h.1)
      exact hstate
  case error =>
    rcases run_playState_change hi ht with hkeep | ⟨hno, -⟩
    · rwa [← hkeep]
    · exact absurd herr hno
  case failed =>
    rcases run_playState_change hi ht with hkeep | ⟨-, honly⟩
    · rwa [hkeep]
    · exact absurd (honly hf) hne

/-! ### SET_FILTER_CONFIG (R238) -/

theorem fieldOf_eq (w : Word) (lo n : Nat) : fieldOf w lo n = (w.extractLsb' lo n).toNat := by
  rw [fieldOf, BitVec.extractLsb'_toNat, Nat.shiftRight_eq_div_pow]

theorem bit_eq_field (w : Word) (k : Nat) : w.getLsbD k = decide (fieldOf w k 1 = 1) :=
  Nat.testBit_eq_decide_div_mod_eq

theorem fieldOf_eq_zero_iff {w : Word} {lo n : Nat} : fieldOf w lo n = 0 ↔ w.extractLsb' lo n = 0 := by
  rw [fieldOf_eq, toNat_eq_zero_iff]

theorem bit_eq_false_iff {w : Word} {k : Nat} : w.getLsbD k = false ↔ fieldOf w k 1 = 0 := by
  have hbit : fieldOf w k 1 = 0 ∨ fieldOf w k 1 = 1 := Nat.mod_two_eq_zero_or_one _
  rw [bit_eq_field, decide_eq_false_iff_not]
  omega

/-- Word 0 as SET_FILTER_CONFIG refuses it (R95): a reserved bit set, or the reserved level code. -/
def CfgWordRefused (w : Word) : Prop :=
  w.extractLsb' 6 2 ≠ 0 ∨ w.getLsbD 11 = true ∨ w.extractLsb' 15 17 ≠ 0 ∨
    w.extractLsb' 8 3 = 7 ∨ w.extractLsb' 12 3 = 7

theorem cfgReservedClear_iff (w : Word) : cfgReservedClear w = true ↔
    w.extractLsb' 6 2 = 0 ∧ w.getLsbD 11 = false ∧ w.extractLsb' 15 17 = 0 := by
  simp only [cfgReservedClear, Bool.and_eq_true, decide_eq_true_eq, fieldOf_eq_zero_iff, bit_eq_false_iff,
    and_assoc]

/-- A 3-bit code names a level, but for code 7 (R92). -/
theorem levelOf_eq_none_iff (w : Word) (lo : Nat) :
    levelOf (fieldOf w lo 3) = none ↔ w.extractLsb' lo 3 = 7 := by
  rw [fieldOf_eq]
  generalize w.extractLsb' lo 3 = code
  revert code
  decide

theorem configOf_of_refused {p : Params} {w0 w1 w2 w3 : Word} (h : CfgWordRefused w0) :
    configOf p w0 w1 w2 w3 = none := by
  unfold configOf
  split
  · next hres =>
    obtain ⟨h6, h11, h15⟩ := (cfgReservedClear_iff w0).mp hres
    rcases h with h | h | h | h | h
    · exact absurd h6 h
    · exact absurd (h11.symm.trans h) Bool.false_ne_true
    · exact absurd h15 h
    · rw [(levelOf_eq_none_iff w0 8).mpr h]
    · rw [(levelOf_eq_none_iff w0 12).mpr h]
      cases levelOf (fieldOf w0 8 3) <;> rfl
  · rfl

theorem configOf_of_accepted {p : Params} {w0 w1 w2 w3 : Word} (h : ¬CfgWordRefused w0) :
    ∃ l8 l16, levelCode l8 = (w0.extractLsb' 8 3).toNat ∧ levelCode l16 = (w0.extractLsb' 12 3).toNat ∧
      configOf p w0 w1 w2 w3 = some {
        lpf16En := w0.getLsbD 0, lpf8En := w0.getLsbD 1, dcSoft := w0.getLsbD 2, gateEn := w0.getLsbD 3
        clipEn := w0.getLsbD 4, airEn := w0.getLsbD 5, lpf8Level := l8, lpf16Level := l16
        makeup8 := normMakeup p.makeupMax w1 p.makeupDefault8
        makeup16 := normMakeup p.makeupMax w2 p.makeupDefault16
        alpha8 := w3.extractLsb' 0 16, alpha16 := w3.extractLsb' 16 16 } := by
  simp only [CfgWordRefused, not_or, ne_eq, not_not, Bool.not_eq_true] at h
  obtain ⟨h6, h11, h15, h8, h12⟩ := h
  obtain ⟨l8, hl8⟩ := Option.ne_none_iff_exists'.mp (mt (levelOf_eq_none_iff w0 8).mp h8)
  obtain ⟨l16, hl16⟩ := Option.ne_none_iff_exists'.mp (mt (levelOf_eq_none_iff w0 12).mp h12)
  refine ⟨l8, l16, ?_, ?_, ?_⟩
  · rw [levelCode_of_levelOf hl8, fieldOf_eq]
  · rw [levelCode_of_levelOf hl16, fieldOf_eq]
  · rw [configOf, if_pos ((cfgReservedClear_iff w0).mpr ⟨h6, h11, h15⟩), hl8, hl16]
    simp only [bit_eq_field, fieldOf_eq, BitVec.ofNat_toNat, BitVec.setWidth_eq]

theorem exec_setFilterConfig_of_config {s : State} {c : FilterConfig}
    (hc : configOf s.params s.a0 s.a1 s.a2 s.a3 = some c) :
    exec .setFilterConfig s = .next { s with cfg := c, status := 0 } := by
  simp only [exec, execSetFilterConfig, hc]
  rfl

theorem exec_setFilterConfig_of_no_config {s : State}
    (hc : configOf s.params s.a0 s.a1 s.a2 s.a3 = none) :
    exec .setFilterConfig s = .next { s with status := 2 } := by
  simp only [exec, execSetFilterConfig, hc]
  rfl

/-- Settles O21: SET_FILTER_CONFIG takes the configuration its words name, where they name one. -/
theorem setFilterConfigReplaces : Obligations.SetFilterConfigReplaces := by
  intro s w refused norm
  refine ⟨⟨rfl, rfl, rfl, rfl, rfl, rfl, rfl⟩,
    fun h => exec_setFilterConfig_of_no_config (configOf_of_refused h), fun h => ?_⟩
  obtain ⟨l8, l16, h8, h16, hc⟩ := configOf_of_accepted (p := s.params) (w0 := s.a0) (w1 := s.a1)
    (w2 := s.a2) (w3 := s.a3) h
  rw [normMakeup_eq, normMakeup_eq] at hc
  exact ⟨l8, l16, h8, h16, exec_setFilterConfig_of_config hc⟩

/-! ### GET_FILTER_CONFIG (R239) -/

theorem exec_getFilterConfig (s : State) : exec .getFilterConfig s =
    .next { s with r0 := cfgWord0 s.cfg, r1 := s.cfg.makeup8, r2 := s.cfg.makeup16
                   r3 := cfgWord3 s.cfg, status := 0 } := rfl

/-- A field added above the fields below it is a field placed beside them. -/
theorem ofNat_add_field {a m k : Nat} (hm : m = 2 ^ k) (ha : a < m) (b : Nat) :
    BitVec.ofNat 32 (a + m * b) = BitVec.ofNat 32 a ||| BitVec.ofNat 32 b <<< k := by
  subst hm
  apply BitVec.eq_of_getLsbD_eq
  intro i hi
  rw [Nat.add_comm, BitVec.getLsbD_or, BitVec.getLsbD_shiftLeft]
  simp only [BitVec.getLsbD_ofNat, Nat.testBit_two_pow_mul_add b ha]
  by_cases hk : i < k
  · simp [hi, hk]
  · have habove : a.testBit i = false :=
      Nat.testBit_lt_two_pow (ha.trans_le (Nat.pow_le_pow_right (by decide) (Nat.not_lt.mp hk)))
    simp [hi, hk, habove, (Nat.sub_le i k).trans_lt hi]

theorem ofNat_toNat_bit (b : Bool) : BitVec.ofNat 32 b.toNat = (BitVec.ofBool b).setWidth 32 := by
  cases b <;> rfl

theorem levelCode_lt (l : LpfLevel) : levelCode l < 8 := by
  cases l <;> decide

theorem cfgWord0_eq (c : FilterConfig) : cfgWord0 c =
    (BitVec.ofBool c.lpf16En).setWidth 32 ||| (BitVec.ofBool c.lpf8En).setWidth 32 <<< 1 |||
      (BitVec.ofBool c.dcSoft).setWidth 32 <<< 2 ||| (BitVec.ofBool c.gateEn).setWidth 32 <<< 3 |||
      (BitVec.ofBool c.clipEn).setWidth 32 <<< 4 ||| (BitVec.ofBool c.airEn).setWidth 32 <<< 5 |||
      BitVec.ofNat 32 (levelCode c.lpf8Level) <<< 8 ||| BitVec.ofNat 32 (levelCode c.lpf16Level) <<< 12 := by
  have h0 := c.lpf16En.toNat_le
  have h1 := c.lpf8En.toNat_le
  have h2 := c.dcSoft.toNat_le
  have h3 := c.gateEn.toNat_le
  have h4 := c.clipEn.toNat_le
  have h5 := c.airEn.toNat_le
  have h8 := levelCode_lt c.lpf8Level
  rw [cfgWord0, ofNat_add_field (m := 4096) (k := 12) rfl (by omega),
    ofNat_add_field (m := 256) (k := 8) rfl (by omega), ofNat_add_field (m := 32) (k := 5) rfl (by omega),
    ofNat_add_field (m := 16) (k := 4) rfl (by omega), ofNat_add_field (m := 8) (k := 3) rfl (by omega),
    ofNat_add_field (m := 4) (k := 2) rfl (by omega), ofNat_add_field (m := 2) (k := 1) rfl (by omega)]
  simp only [ofNat_toNat_bit]

theorem cfgWord3_eq (c : FilterConfig) :
    cfgWord3 c = c.alpha8.setWidth 32 ||| c.alpha16.setWidth 32 <<< 16 := by
  rw [cfgWord3, ofNat_add_field (m := 65536) (k := 16) rfl c.alpha8.isLt, BitVec.ofNat_toNat,
    BitVec.ofNat_toNat]

/-- Settles O22: the sums of R90 and R91 place their fields beside each other. -/
theorem getFilterConfigWords : Obligations.GetFilterConfigWords := by
  intro s c
  rw [exec_getFilterConfig, cfgWord0_eq, cfgWord3_eq]

/-! ### The fade-time commands (R240, R241) -/

theorem windowOf_eq_none {w : Word} (h : 3 < w.toNat) : windowOf w = none := by
  unfold windowOf
  split
  case h_5 => rfl
  all_goals omega

theorem exec_setFadeTime_of_window {s : State} {w : FadeWindow} (hw : windowOf s.a0 = some w) :
    exec .setFadeTime s = .next { s with
      fadeSec := fadeSet s.fadeSec s.a1 w
      fadeSmp := fadeSet s.fadeSmp (secToSamples s.a1 s.sampleRate) w, status := 0 } := by
  simp only [exec, execSetFadeTime, hw]
  rfl

theorem exec_getFadeTime_of_window {s : State} {w : FadeWindow} (hw : windowOf s.a0 = some w) :
    exec .getFadeTime s =
      .next { s with r0 := fadeGet s.fadeSec w, r1 := fadeGet s.fadeSmp w, status := 0 } := by
  simp only [exec, execGetFadeTime, hw]
  rfl

theorem exec_fadeTime_of_no_window {s : State} (hw : windowOf s.a0 = none) :
    exec .setFadeTime s = .next { s with status := 2 } ∧
    exec .getFadeTime s = .next { s with status := 2 } := by
  simp only [exec, execSetFadeTime, execGetFadeTime, hw]
  exact ⟨rfl, rfl⟩

/-- Settles O24: each index below 4 is a window (R101), and the count is SEC_TO_SAMPLES's. -/
theorem fadeTimeCommands : Obligations.FadeTimeCommands := by
  intro s
  have window : ∀ {a : Word} {w : FadeWindow}, windowOf a = some w → s.a0 = a → windowOf s.a0 = some w :=
    fun hw ha => ha ▸ hw
  have h0 := window (a := 0) (w := .playIn) rfl
  have h1 := window (a := 1) (w := .playOut) rfl
  have h2 := window (a := 2) (w := .pauseOut) rfl
  have h3 := window (a := 3) (w := .resumeIn) rfl
  exact ⟨fun h => exec_fadeTime_of_no_window (windowOf_eq_none h),
    ⟨_, exec_secToSamples _ _ _, fun h => exec_setFadeTime_of_window (h0 h),
      fun h => exec_setFadeTime_of_window (h1 h), fun h => exec_setFadeTime_of_window (h2 h),
      fun h => exec_setFadeTime_of_window (h3 h)⟩,
    fun h => exec_getFadeTime_of_window (h0 h), fun h => exec_getFadeTime_of_window (h1 h),
    fun h => exec_getFadeTime_of_window (h2 h), fun h => exec_getFadeTime_of_window (h3 h)⟩

/-! ### The air commands (R242 to R246) -/

/-- Settles O25: the setters store, and the getter returns, what the stages drive. -/
theorem airGainCommands : Obligations.AirGainCommands :=
  fun s => ⟨⟨dbToQ16 s.a0, exec_dbToQ16 _ _, rfl⟩,
    ⟨BitVec.ofNat 32 (min s.a0.toNat airGainMax), toNat_ofNat_min (by decide), rfl⟩,
    ⟨q16ToDb s.airGain, exec_q16ToDb _ _, rfl⟩⟩

theorem exec_setAirPreset_of_past {s : State} (h : s.params.airPresetDb.length ≤ s.a0.toNat) :
    exec .setAirPreset s = .next { s with status := 2 } := by
  simp only [exec, execSetAirPreset, List.getElem?_eq_none h]
  rfl

theorem exec_setAirPreset_of_zero {s : State} (h0 : s.a0 = 0) (h : 0 < s.params.airPresetDb.length) :
    exec .setAirPreset s =
      .next { s with airPresetIdx := 0, cfg := { s.cfg with airEn := false }, status := 0 } := by
  have hdb : s.params.airPresetDb[s.a0.toNat]? = some s.params.airPresetDb[0] := by
    rw [h0]
    exact List.getElem?_eq_getElem h
  simp only [exec, execSetAirPreset, hdb, if_pos h0]
  rfl

theorem exec_setAirPreset_of_entry {s : State} {db : Word} (h0 : s.a0 ≠ 0)
    (hdb : s.params.airPresetDb[s.a0.toNat]? = some db) :
    exec .setAirPreset s = .next { s with
      airPresetIdx := BitVec.ofNat 8 s.a0.toNat, airGain := dbToQ16 db
      cfg := { s.cfg with airEn := true }, status := 0 } := by
  simp only [exec, execSetAirPreset, hdb, if_neg h0]
  rfl

theorem exec_getAirPreset (s : State) : exec .getAirPreset s =
    .next { s with r0 := s.airPresetIdx.setWidth 32
                   r1 := BitVec.ofNat 32 s.params.airPresetDb.length, status := 0 } := by
  rw [← BitVec.ofNat_toNat]
  rfl

/-- Settles O26: in a table of at most 256 presets an index fits its register, and so does the count. -/
theorem airPresetCommands : Obligations.AirPresetCommands := by
  intro s hlen
  refine ⟨exec_setAirPreset_of_past, exec_setAirPreset_of_zero, fun h0 db hdb => ?_,
    _, ?_, exec_getAirPreset s⟩
  · obtain ⟨hlt, -⟩ := List.getElem?_eq_some_iff.mp hdb
    have hfit : s.a0.toNat < 2 ^ 8 := hlt.trans_le hlen
    exact ⟨dbToQ16 db, BitVec.ofNat 8 s.a0.toNat, by rw [BitVec.toNat_ofNat, Nat.mod_eq_of_lt hfit],
      exec_dbToQ16 db s, exec_setAirPreset_of_entry h0 hdb⟩
  · rw [BitVec.toNat_ofNat, Nat.mod_eq_of_lt (hlen.trans_lt (by decide))]

end Sys2Proof.Machine
end

section
/-! SUPPORT. The layer of the hazards' family (70_reset_and_hazards.md): a pause as its events, each of which
fills a half of the ramp until one finds the counter within a half (R209, R298). -/

namespace Sys2Proof.Machine

/-! ### A bounded wait -/

/-- A run from `s` is in `during` before each of its first `n` steps and in `after` once they are done. -/
structure ReachesAt (during after : State → Prop) (n : Nat) (s : State) : Prop where
  last : ∃ t : State, Host.Core.run Sys2Proof.core n s = .next t ∧ after t
  before : ∀ k, k < n → ∃ t : State, Host.Core.run Sys2Proof.core k s = .next t ∧ during t

section
variable {during after : State → Prop} {s t : State}

theorem reachesAt_one (hs : during s) (hstep : step s = .next t) (ht : after t) :
    ReachesAt during after 1 s where
  last := ⟨t, run_of_step hstep 0, ht⟩
  before k hk := by
    obtain rfl := Nat.lt_one_iff.mp hk
    exact ⟨s, rfl, hs⟩

theorem ReachesAt.succ {n : Nat} (ht : ReachesAt during after n t) (hs : during s)
    (hstep : step s = .next t) : ReachesAt during after (n + 1) s where
  last := by
    rw [run_of_step hstep]
    exact ht.last
  before
    | 0, _ => ⟨s, rfl, hs⟩
    | k + 1, hk => by
      rw [run_of_step hstep]
      exact ht.before k (Nat.lt_of_succ_lt_succ hk)

end

/-! ### One event of a pause (R209) -/

/-- What holds before each event of a pause, with the inputs still to come. A stop may be pending: it waits
until the pause is over (R208). -/
structure Ramping (s : State) (rest : List Input) : Prop where
  fillable : Fillable s
  pausing : s.playState = .pausing
  inbox : s.inbox = rest

/-- What one more half of the ramp moves and leaves: every frame is valid, so the counter falls by a half. -/
structure HalfRamped (s u : State) : Prop where
  cur : u.cur.toNat = s.cur.toNat + s.stepElems
  fadeOutRem : u.fadeOutRem.toNat = s.fadeOutRem.toNat - s.halfFrames
  halfFrames : u.halfFrames = s.halfFrames
  stepElems : u.stepElems = s.stepElems
  endOff : u.endOff = s.endOff

/-- The state a completed pause leaves, with the cursor at `c`. -/
structure PausedAt (c : Nat) (t : State) : Prop where
  paused : t.playState = .paused
  pausePos : t.pausePos = t.cur
  cur : t.cur.toNat = c

theorem completePause_pausedAt (s : State) (h : Half) : PausedAt s.cur.toNat (s.completePause h) :=
  ⟨rfl, rfl, rfl⟩

theorem fill_keeps_ramping {s u : State} {h : Half} {rest : List Input} (hu : fill s h = .ok u)
    (hs : Ramping s rest) : Ramping u rest where
  fillable := fill_keeps_fillable hu hs.fillable
  pausing := (fill_cursor hu).2.2.trans hs.pausing
  inbox := by
    rw [(fill_form hu).1]
    exact hs.inbox

/-- A half that stays below `END` has valid frames alone, so each of them ticks the counter (R204 to R206). -/
theorem fill_halfRamped {s u : State} {h : Half} (hu : fill s h = .ok u) (hp : s.playState = .pausing)
    (hbelow : s.cur.toNat + s.stepElems < s.endOff.toNat) : HalfRamped s u := by
  have hmove := fill_halfFilled hu
  have hlt := s.endOff.isLt
  have hvalid : s.halfFrames ≤ (s.endOff.toNat - s.cur.toNat) / s.elems := by
    rw [Nat.le_div_iff_mul_le (elems_pos s)]
    exact Nat.le_sub_of_add_le' hbelow.le
  obtain ⟨-, hrem⟩ := fill_counters hu
  rw [if_pos hp, Nat.min_eq_left hvalid] at hrem
  exact {
    cur := hmove.cur.trans (Nat.min_eq_left (by omega))
    fadeOutRem := hrem
    halfFrames := by rw [(fill_form hu).1]; rfl
    stepElems := hmove.stepElems
    endOff := hmove.endOff }

theorem step_of_event {s : State} {b : BitVec 1} {rest : List Input}
    (hin : s.inbox = .port (.event b) :: rest) :
    step s = exec (eventInstr (halfOfBit b)) { s with inbox := rest } :=
  step_of_decode_ok hin (decode_event b)

theorem exec_event_of_pause_over {s : State} (h : Half) (hp : s.playState = .pausing)
    (hrem : s.fadeOutRem.toNat ≤ s.halfFrames) : exec (eventInstr h) s = .next (s.completePause h) := by
  rw [exec_eventInstr, fillEvent_of_pause_over h hp hrem]
  rfl

/-- An event that finds the counter within a half completes the pause where the cursor stands. -/
theorem step_of_ramp_over {s : State} {b : BitVec 1} {rest : List Input}
    (hs : Ramping s (.port (.event b) :: rest)) (hrem : s.fadeOutRem.toNat ≤ s.halfFrames) :
    ∃ t, step s = .next t ∧ PausedAt s.cur.toNat t := by
  have hexec := exec_event_of_pause_over (s := { s with inbox := rest }) (halfOfBit b) hs.pausing hrem
  exact ⟨_, (step_of_event hs.inbox).trans hexec, completePause_pausedAt { s with inbox := rest } _⟩

/-- An event that finds the counter above a half fills it, and the pause goes on while the source lasts. -/
theorem step_of_ramping {s : State} {b : BitVec 1} {rest : List Input}
    (hs : Ramping s (.port (.event b) :: rest)) (hrem : s.halfFrames < s.fadeOutRem.toNat)
    (hbelow : s.cur.toNat + s.stepElems < s.endOff.toNat) :
    ∃ u, Ramping u rest ∧ HalfRamped s u ∧ step s = .next u := by
  have htaken : Ramping { s with inbox := rest } rest :=
    { hs with fillable := { hs.fillable with }, inbox := rfl }
  obtain ⟨u, hu, hexec⟩ :=
    exec_event_of_filling (halfOfBit b) htaken.fillable (.inr ⟨htaken.pausing, hrem⟩)
  rw [State.stopSeen, if_neg (by simp [hs.pausing])] at hu
  have hmove := fill_halfRamped hu htaken.pausing hbelow
  have hgoes : ¬u.endOff.toNat ≤ u.cur.toNat := by
    rw [hmove.endOff, hmove.cur]
    exact Nat.not_le.mpr hbelow
  rw [if_neg hgoes] at hexec
  exact ⟨u, fill_keeps_ramping hu htaken, { hmove with },
    (step_of_event hs.inbox).trans hexec⟩

/-! ### When a pause completes (R298) -/

/-- R298 from any counter: the ramp goes on while its halves stay below the counter, and the pause completes
at the event that finds one half or less. -/
theorem pausesAt_of_ramping : ∀ (bs : List (BitVec 1)) {b : BitVec 1} {s : State},
    Ramping s ((b :: bs).map (fun h => .port (.event h))) →
    s.fadeOutRem.toNat ≤ (bs.length + 1) * s.halfFrames →
    (bs = [] ∨ bs.length * s.halfFrames < s.fadeOutRem.toNat) →
    s.cur.toNat + bs.length * s.stepElems < s.endOff.toNat →
    ReachesAt (fun t => t.playState = .pausing) (PausedAt (s.cur.toNat + bs.length * s.stepElems))
      (bs.length + 1) s
  | [], b, s, hs, hover, _, _ => by
    simp only [List.length_nil, Nat.zero_add, Nat.one_mul, Nat.zero_mul, Nat.add_zero] at hover ⊢
    obtain ⟨t, hstep, ht⟩ := step_of_ramp_over hs hover
    exact reachesAt_one hs.pausing hstep ht
  | b' :: bs, b, s, hs, hover, hunder, hlasts => by
    rw [List.length_cons] at hover hlasts ⊢
    have hhalves : (bs.length + 1) * s.halfFrames < s.fadeOutRem.toNat := by simpa using hunder
    rw [Nat.succ_mul] at hover hhalves
    rw [Nat.succ_mul] at hlasts ⊢
    obtain ⟨u, hu, hmove, hstep⟩ := step_of_ramping hs (by omega) (by omega)
    have hrest := pausesAt_of_ramping bs hu
    rw [hmove.cur, hmove.fadeOutRem, hmove.halfFrames, hmove.stepElems, hmove.endOff] at hrest
    have hcur : s.cur.toNat + (bs.length * s.stepElems + s.stepElems) =
        s.cur.toNat + s.stepElems + bs.length * s.stepElems := by omega
    rw [hcur] at hlasts ⊢
    exact (hrest (Nat.sub_le_of_le_add hover) (.inr (Nat.lt_sub_of_add_lt hhalves)) hlasts).succ
      hs.pausing hstep

/-- R298's event number is the first at which the halves before it leave one half or less of the counter. -/
theorem pause_count_reaches {r d n : Nat} (hd : 0 < d) (hn : n + 1 = max 1 ((r + d - 1) / d)) :
    r ≤ (n + 1) * d ∧ (n = 0 ∨ n * d < r) := by
  have hunder : (r + d - 1) / d * d ≤ r + d - 1 := Nat.div_mul_le_self _ _
  have hover : r + d - 1 < (r + d - 1) / d * d + d := Nat.lt_div_mul_add hd
  generalize (r + d - 1) / d = q at hn hunder hover
  have hsucc : (n + 1) * d = n * d + d := Nat.succ_mul n d
  obtain ⟨rfl, rfl⟩ | rfl : q = 0 ∧ n = 0 ∨ q = n + 1 := by omega
  · omega
  · omega

/-! ### The obligation -/

/-- Settles O35, by induction over the events of the pause (`pausesAt_of_ramping`). -/
theorem pauseCompletionEventCount : Obligations.PauseCompletionEventCount := by
  intro s hs hfill hp hhalf hin hlen hlasts
  obtain _ | ⟨b, bs⟩ := hs
  · exact absurd hlen (Nat.ne_of_lt (Nat.lt_of_lt_of_le Nat.zero_lt_one (Nat.le_max_left _ _)))
  · obtain ⟨hover, hunder⟩ := pause_count_reaches hhalf hlen
    obtain ⟨⟨t, hrun, ht⟩, hbefore⟩ := pausesAt_of_ramping bs ⟨hfill, hp, hin⟩ hover
      (hunder.imp_left List.length_eq_zero_iff.mp) hlasts
    exact ⟨⟨t, hrun, ht.paused, ht.pausePos, ht.cur⟩, hbefore⟩

end Sys2Proof.Machine
end
